-- ==== Sys2Proof/Word.lean ====
section
/-! DEFINITION. The one word type of the block: a byte. Every integer of the block is unsigned (00_scope.md R8);
wider fields are `BitVec` of their own width, and offsets, lengths and counts are exact natural numbers (R6). -/

namespace Sys2Proof

/-- A byte is 8 bits (R8). -/
abbrev Byte := BitVec 8

end Sys2Proof
end

