-- ==== Sys2Proof/Config.lean ====
section
/-! DEFINITION. What is fixed for one launch of the block: the open parameters of 00_scope.md R6, the constants of R7,
the byte an unlisted cell reads as, and the free values of 93_implementation_defined.md. -/

namespace Sys2Proof

/-- The parameters of one launch (R6, R69, R342). They are plain data held in the machine's state, which no step
changes, so that a statement about every state is a statement about every value of the open parameters. -/
structure Params where
  /-- `ADDR_W`, the width of buffer offsets, lengths and byte counts (R6, at least 25). -/
  addrW : Nat
  /-- `IBLEN`, the length of the input buffer in bytes (R6). -/
  iblen : Nat
  /-- `OBCAP`, the capacity of the output buffer in bytes (R6). -/
  obcap : Nat
  /-- `P_WU_MASK`, whether WindowUpdate clears the top bit of the increment (R6, R220, R249). -/
  wuMask : Bool
  /-- Where the platform places `IB[0]` (R69: left to the platform). -/
  ibBase : Nat
  /-- Where the platform places `OB[0]` (R69: left to the platform). -/
  obBase : Nat
  deriving DecidableEq, Repr

namespace Params

/-- The bounds R6 puts on the parameters. -/
abbrev wf (p : Params) : Prop :=
  25 ≤ p.addrW ∧ p.iblen < 2 ^ p.addrW ∧ p.obcap < 2 ^ p.addrW

/-- IB and OB are distinct memories (R69): the two windows share no cell. -/
abbrev distinct (p : Params) : Prop :=
  p.ibBase + p.iblen ≤ p.obBase ∨ p.obBase + p.obcap ≤ p.ibBase

/-- A cell of the surrounding memory that belongs to IB or to OB. -/
abbrev inBuffers (p : Params) (x : Nat) : Prop :=
  (p.ibBase ≤ x ∧ x < p.ibBase + p.iblen) ∨ (p.obBase ≤ x ∧ x < p.obBase + p.obcap)

end Params

namespace Config

/-- `HDR_LEN`: bytes in a frame header (R7). -/
abbrev hdrLen : Nat := 9
/-- `PRIO_LEN`: bytes in a priority block (R7). -/
abbrev prioLen : Nat := 5
/-- `SETTING_LEN`: bytes in a setting record (R7). -/
abbrev settingLen : Nat := 6
/-- `FLAG_MASK`: the valid flag bits 0x01, 0x04, 0x08, 0x20 (R7). -/
abbrev flagMask : Byte := 0x2D#8
/-- The 8-bit complement of `FLAG_MASK` (R8). -/
abbrev badFlagMask : Byte := 0xD2#8
/-- `UNREG_SENTINEL`: the kind byte written for Unregistered (R7). -/
abbrev unregSentinel : Byte := 255#8
/-- `SID_MASK`: the 31 significant bits of a stream identifier (R7). -/
abbrev sidMask : BitVec 32 := 0x7FFFFFFF#32

/-- What a buffer byte that no one has written reads as.
DESIGN CHOICE (log entry 2, unsafe): 93_implementation_defined.md row 19 leaves it open. -/
abbrev unlistedByte : Byte := 0#8

/-- The launch that `State.reset` shows.
DESIGN CHOICE (log entry 1, unsafe): R6 leaves every one of these open; `wuMask` is the value D8 names
for "a model that needs one value". -/
abbrev launch : Params :=
  { addrW := 32, iblen := 65536, obcap := 65536, wuMask := false, ibBase := 0, obBase := 65536 }

/-- FREE VALUE (log entry 3): the bytes an encode command writes when OB overlaps the IB bytes it copies from
(R351; 93_implementation_defined.md row 16, "any value"). It has no body, so nothing can be proved of its values. -/
opaque freeByte : Nat → Byte

end Config

end Sys2Proof
end

