-- ==== Sys2Proof/Syntax.lean ====
section
/-! DEFINITION. The value types of the data model (10_state.md R30 to R39), the outcomes of an operation rule
(00_scope.md R12), and the instructions: the twenty commands of the port (30_encoding.md R120) and the eleven
frame kinds of the wire format (R93), one constructor each. -/

namespace Sys2Proof

/-- A view `<off, len>` of the input buffer (R9). -/
structure View where
  off : Nat
  len : Nat
  deriving DecidableEq, Repr

/-- The eleven frame kinds (R31). -/
inductive Kind where
  | data | headers | priority | reset | settings | pushPromise | ping | goAway | windowUpdate | continuation
  | unregistered
  deriving DecidableEq, Repr

/-- A kind as the block holds it, in RES and in operands: a 4-bit tag (R31). Tags 11 to 15 are no Kind. -/
abbrev KindTag := BitVec 4

/-- `FrameHeader` (R33). `flags` is the raw byte: an operand may hold an illegal one (R51). -/
structure FrameHeader where
  length   : BitVec 32
  kind     : KindTag
  flags    : Byte
  streamId : BitVec 32
  deriving DecidableEq, Repr

/-- `Priority` (R34). -/
structure Priority where
  exclusive  : Bool
  dependency : BitVec 32
  weight     : Byte
  deriving DecidableEq, Repr

/-- `Setting` (R35). -/
structure Setting where
  identifier : BitVec 16
  value      : BitVec 32
  deriving DecidableEq, Repr

/-- `SettingName`, the classification of an identifier (R35). -/
inductive SettingName where
  | known (id : BitVec 16)
  | unrecognized (id : BitVec 16)
  deriving DecidableEq, Repr

/-- `SettingSeq` (R39): a view of packed records, or an explicit list of records. -/
inductive SettingSeq where
  | view (v : View)
  | list (records : List Setting)
  deriving DecidableEq, Repr

/-- `Payload` (R36). The constructor `illegal n` is an operand whose 4-bit tag is `11 + n`: it is no payload, has no
fields, and R51 (b) rejects it. -/
inductive Payload where
  | data (data : View)
  | headers (priority : Option Priority) (block : View)
  | priority (priority : Priority)
  | reset (errorCode : BitVec 32)
  | settings (settings : SettingSeq)
  | pushPromise (promised : BitVec 32) (block : View)
  | ping (value : BitVec 64)
  | goAway (lastStream : BitVec 32) (errorCode : BitVec 32) (debug : View)
  | windowUpdate (increment : BitVec 32)
  | continuation (block : View)
  | unregistered (block : View)
  | illegal (n : Fin 5)
  deriving DecidableEq, Repr

/-- `Frame` (R37). -/
structure Frame where
  header  : FrameHeader
  payload : Payload
  deriving DecidableEq, Repr

/-- The fields of a 9-byte frame header other than its kind byte and its reserved bit, at their wire widths (R90). -/
structure WireHeader where
  length   : BitVec 24
  flags    : Byte
  streamId : BitVec 31
  deriving DecidableEq, Repr

/-- The protocol errors (R300). `badKind` is in the taxonomy and no command raises it (R3). -/
inductive ProtoError where
  | short
  | badFlag (byte : Byte)
  | badKind (byte : Byte)
  | tooMuchPadding (padLen : Byte)
  | payloadLengthTooShort
  | partialSettingLength
  | invalidPayloadLength
  deriving DecidableEq, Repr

/-- The model faults of the block (R310). They are ordinary next states: STATUS records them. -/
inductive ModelFault where
  | obBounds | ibBounds | kindMismatch | badOpcode | badOperand
  deriving DecidableEq, Repr

/-- The outcome of an operation rule after the fault checks (R12): `return ok(r)` or `raise E(arg)`. -/
inductive Result (α : Type) where
  | ok (value : α)
  | raise (error : ProtoError)
  deriving DecidableEq, Repr

/-- `let x <- Op(...)`: a raise propagates unchanged (R12). -/
def Result.bind {α β : Type} (r : Result α) (f : α → Result β) : Result β :=
  match r with
  | .ok a => f a
  | .raise e => .raise e

/-- Apply a function to the `ok` value. -/
def Result.map {α β : Type} (f : α → β) (r : Result α) : Result β :=
  match r with
  | .ok a => .ok (f a)
  | .raise e => .raise e

/-- The instructions: one constructor for each mnemonic of `spec/opcode_table.json`.
The first twenty are the commands of the port (R120). The last eleven are the frame kinds (R93), the opcode field of
the wire format (R2): `w` holds the header's other fields and `c` is the frame cursor, the offset in IB of the header
(R42). -/
inductive Instr where
  | flagsNew (b : Byte)
  | flagsHas (f : Byte) (sel : BitVec 2)
  | kindNew (b : Byte)
  | kindEncode (k : KindTag)
  | sidParse (v : View)
  | sidEncode (sid : BitVec 32) (obo : Nat)
  | hdrParse (v : View)
  | hdrEncode (h : FrameHeader) (obo : Nat)
  | padStrip (v : View)
  | prioParse (present : Bool) (v : View)
  | prioEncode (pr : Priority) (obo : Nat)
  | settingsParse (v : View)
  | settingsEncode (q : SettingSeq) (obo : Nat)
  | settingLookup (id : BitVec 16)
  | payloadParse (h : FrameHeader) (v : View)
  | payloadEncode (pl : Payload) (obo : Nat)
  | payloadLen (pl : Payload)
  | frameParse (h : FrameHeader) (v : View)
  | frameEncode (fr : Frame) (obo : Nat)
  | frameLen (fr : Frame)
  | kindData (w : WireHeader) (c : Nat)
  | kindHeaders (w : WireHeader) (c : Nat)
  | kindPriority (w : WireHeader) (c : Nat)
  | kindReset (w : WireHeader) (c : Nat)
  | kindSettings (w : WireHeader) (c : Nat)
  | kindPushPromise (w : WireHeader) (c : Nat)
  | kindPing (w : WireHeader) (c : Nat)
  | kindGoAway (w : WireHeader) (c : Nat)
  | kindWindowUpdate (w : WireHeader) (c : Nat)
  | kindContinuation (w : WireHeader) (c : Nat)
  | kindUnregistered (w : WireHeader) (c : Nat)
  deriving DecidableEq, Repr

end Sys2Proof
end

