-- ==== Sys2Proof/Machine/Flags.lean ====
section
/-! DEFINITION. Every flag computation of the spec: the frame flag byte (10_state.md R30, 41_scalar_flag_kind.md R148,
R149) and the words the command cycle writes into STATUS (10_state.md R45, R50). The block has no condition-code
register (R49). -/

namespace Sys2Proof.Machine

/-- A legal `Flags` value: no bit outside the valid mask (R30, R51 (a)). -/
def flagsLegal (f : Byte) : Bool :=
  (f &&& Config.badFlagMask) == 0#8

/-- `flags_new(b)` (R148). -/
def flagsNew (b : Byte) : Result Byte :=
  if (b &&& Config.badFlagMask) != 0#8 then .raise (.badFlag b) else .ok (b &&& Config.flagMask)

/-- `has(f, m)` (R149). -/
def has (f m : Byte) : Bool :=
  (f &&& m) != 0#8

/-- END_STREAM or ACK, whatever the kind (R30). -/
def endStreamBit : Byte := 0x01#8
/-- END_HEADERS (R30). -/
def endHeadersBit : Byte := 0x04#8
/-- PADDED (R30). -/
def paddedBit : Byte := 0x08#8
/-- PRIORITY (R30). -/
def priorityBit : Byte := 0x20#8

/-- The bit that the `sel` operand of FLAGS_HAS selects (R121). -/
def selectedBit (sel : BitVec 2) : Byte :=
  match sel.toNat with
  | 0 => endStreamBit
  | 1 => endHeadersBit
  | 2 => paddedBit
  | _ => priorityBit

/-- The ERR code of a protocol error (R45, R300). -/
def errCode : ProtoError → BitVec 32
  | .short => 1#32
  | .badFlag _ => 2#32
  | .badKind _ => 3#32
  | .tooMuchPadding _ => 4#32
  | .payloadLengthTooShort => 5#32
  | .partialSettingLength => 6#32
  | .invalidPayloadLength => 7#32

/-- The ARG field of a protocol error (R45, R300): "a = 0 when E has no argument". -/
def errArg : ProtoError → Byte
  | .badFlag b => b
  | .tooMuchPadding p => p
  | _ => 0#8

/-- STATUS after a raise (R50): ARG in bits 15:8, ERR in bits 3:0, every other bit 0. -/
def statusOfError (e : ProtoError) : BitVec 32 :=
  ((errArg e).setWidth 32 <<< 8) ||| errCode e

/-- The FCODE of a fault (R45, R310). -/
def faultCode : ModelFault → BitVec 32
  | .obBounds => 1#32
  | .ibBounds => 2#32
  | .kindMismatch => 3#32
  | .badOpcode => 4#32
  | .badOperand => 5#32

/-- STATUS after a fault (R50): FAULT is bit 16, FCODE is bits 19:17, ERR and ARG are cleared. -/
def statusOfFault (f : ModelFault) : BitVec 32 :=
  0x00010000#32 ||| (faultCode f <<< 17)

/-- STATUS.ERR (R45). -/
def statusErr (w : BitVec 32) : BitVec 4 := w.extractLsb' 0 4
/-- STATUS.ARG (R45). -/
def statusArg (w : BitVec 32) : Byte := w.extractLsb' 8 8
/-- STATUS.FAULT (R45). -/
def statusFault (w : BitVec 32) : Bool := w.getLsbD 16
/-- STATUS.FCODE (R45). -/
def statusFcode (w : BitVec 32) : BitVec 3 := w.extractLsb' 17 3

end Sys2Proof.Machine
end

