-- ==== Sys2Proof/Machine/Operands.lean ====
section
/-! DEFINITION. Every operand form of the commands (30_encoding.md R121): views and their slices (00_scope.md R9),
kind tags (10_state.md R31), setting sequences (R39), payload tags (R36), and which operands are legal (R51). -/

namespace Sys2Proof.Machine

/-- A view is valid when `off + len <= IBLEN` (R9). -/
def viewInside (iblen : Nat) (v : View) : Bool :=
  decide (v.off + v.len ≤ iblen)

/-- `v[a .. b]`, half-open (R9, R10). -/
def viewSlice (v : View) (a b : Nat) : View :=
  { off := v.off + a, len := b - a }

/-- `v[a ..]` (R9). -/
def viewFrom (v : View) (a : Nat) : View :=
  viewSlice v a v.len

/-- The 4-bit tag of a Kind (R31). -/
def kindTag : Kind → KindTag
  | .data => 0#4
  | .headers => 1#4
  | .priority => 2#4
  | .reset => 3#4
  | .settings => 4#4
  | .pushPromise => 5#4
  | .ping => 6#4
  | .goAway => 7#4
  | .windowUpdate => 8#4
  | .continuation => 9#4
  | .unregistered => 10#4

/-- A tag of a Kind: 0 to 10 (R31, R51 (b)). -/
def kindLegal (k : KindTag) : Bool :=
  decide (k.toNat ≤ 10)

/-- The Kind of a tag (R31). The command cycle rejects tags 11 to 15 before any rule reads them (R51 (b)). -/
def kindOfTag (k : KindTag) : Kind :=
  match k.toNat with
  | 0 => .data
  | 1 => .headers
  | 2 => .priority
  | 3 => .reset
  | 4 => .settings
  | 5 => .pushPromise
  | 6 => .ping
  | 7 => .goAway
  | 8 => .windowUpdate
  | 9 => .continuation
  | _ => .unregistered

/-- The variant tag of a payload, the tag of `payload_kind(P)` (R36, R37). -/
def payloadTag : Payload → KindTag
  | .data _ => 0#4
  | .headers _ _ => 1#4
  | .priority _ => 2#4
  | .reset _ => 3#4
  | .settings _ => 4#4
  | .pushPromise _ _ => 5#4
  | .ping _ => 6#4
  | .goAway _ _ _ => 7#4
  | .windowUpdate _ => 8#4
  | .continuation _ => 9#4
  | .unregistered _ => 10#4
  | .illegal n => 11#4 + BitVec.ofNat 4 n.val

/-- A legal SettingSeq operand: a view of whole records, or any list (R51 (c)). -/
def seqLegal : SettingSeq → Bool
  | .view v => v.len % Config.settingLen == 0
  | .list _ => true

/-- A legal Payload operand (R51 (b), (c)). -/
def payloadLegal : Payload → Bool
  | .settings q => seqLegal q
  | .illegal _ => false
  | _ => true

/-- A legal FrameHeader operand (R51 (a), (b)). -/
def headerLegal (h : FrameHeader) : Bool :=
  flagsLegal h.flags && kindLegal h.kind

/-- A legal Frame operand: both parts legal (R51). -/
def frameLegal (fr : Frame) : Bool :=
  headerLegal fr.header && payloadLegal fr.payload

/-- `payload_kind(payload) = header.kind` (R37). -/
def frameKindsMatch (fr : Frame) : Bool :=
  payloadTag fr.payload == fr.header.kind

/-- The views inside a SettingSeq operand (R50). -/
def seqViews : SettingSeq → List View
  | .view v => [v]
  | .list _ => []

/-- The views inside a Payload operand (R36, R50). -/
def payloadViews : Payload → List View
  | .data d => [d]
  | .headers _ b => [b]
  | .settings q => seqViews q
  | .pushPromise _ b => [b]
  | .goAway _ _ d => [d]
  | .continuation b => [b]
  | .unregistered b => [b]
  | .priority _ => []
  | .reset _ => []
  | .ping _ => []
  | .windowUpdate _ => []
  | .illegal _ => []

/-- `count(s)`: the number of records of a SettingSeq (R39, R252). -/
def seqCount : SettingSeq → Nat
  | .view v => v.len / Config.settingLen
  | .list rs => rs.length

/-- The FrameHeader that a wire header and its kind stand for (R91: every field zero-extended). -/
def wireFrameHeader (k : Kind) (w : WireHeader) : FrameHeader :=
  { length := w.length.setWidth 32, kind := kindTag k, flags := w.flags, streamId := w.streamId.setWidth 32 }

/-- The payload view that the caller's macro gives the frame at cursor `c`: `<c + 9, IBLEN - c - 9>` (R123). -/
def payloadViewAt (iblen c : Nat) : View :=
  { off := c + Config.hdrLen, len := iblen - c - Config.hdrLen }

/-- The header view that the caller's macro gives the frame at cursor `c`: `<c, IBLEN - c>` (R123). -/
def headerViewAt (iblen c : Nat) : View :=
  { off := c, len := iblen - c }

/-- The cursor of the next frame: `c + 9 + header.length` (R42, R123, R355). The caller computes it. -/
def nextCursor (c : Nat) (h : FrameHeader) : Nat :=
  c + Config.hdrLen + h.length.toNat

end Sys2Proof.Machine
end

