-- ==== Sys2Proof/WellFormed.lean ====
section
/-! DEFINITION. Which terms of `Instr` are well formed. `Instr.fits` says that each operand is a value of its encoded
width (30_encoding.md R121); the bit-vector fields fit by their type, so only the `ADDR_W`-bit fields are checked.
`Instr.legal` is the operand rule 10_state.md R51. An ill-formed command can still be issued: the block faults it. -/

namespace Sys2Proof

/-- Both fields of a View are `ADDR_W` bits wide (R121). -/
def View.fits (aw : Nat) (v : View) : Bool :=
  decide (v.off < 2 ^ aw) && decide (v.len < 2 ^ aw)

/-- An `ADDR_W`-bit field (R121). -/
def addrFits (aw : Nat) (n : Nat) : Bool :=
  decide (n < 2 ^ aw)

/-- A SettingSeq operand whose view, if it has one, fits (R121). -/
def SettingSeq.fits (aw : Nat) (q : SettingSeq) : Bool :=
  (Machine.seqViews q).all (View.fits aw)

/-- A Payload operand whose views fit (R121). -/
def Payload.fits (aw : Nat) (pl : Payload) : Bool :=
  (Machine.payloadViews pl).all (View.fits aw)

namespace Instr

/-- Every operand is a value its field can hold (R121). For a wire header this includes the flag byte: the header
decoder hands on no other (R94, R148). -/
def fits (aw : Nat) : Instr → Bool
  | .flagsNew _ => true
  | .flagsHas _ _ => true
  | .kindNew _ => true
  | .kindEncode _ => true
  | .sidParse v => v.fits aw
  | .sidEncode _ obo => addrFits aw obo
  | .hdrParse v => v.fits aw
  | .hdrEncode _ obo => addrFits aw obo
  | .padStrip v => v.fits aw
  | .prioParse _ v => v.fits aw
  | .prioEncode _ obo => addrFits aw obo
  | .settingsParse v => v.fits aw
  | .settingsEncode q obo => q.fits aw && addrFits aw obo
  | .settingLookup _ => true
  | .payloadParse _ v => v.fits aw
  | .payloadEncode pl obo => pl.fits aw && addrFits aw obo
  | .payloadLen pl => pl.fits aw
  | .frameParse _ v => v.fits aw
  | .frameEncode fr obo => fr.payload.fits aw && addrFits aw obo
  | .frameLen fr => fr.payload.fits aw
  | .kindData w _ => Machine.flagsLegal w.flags
  | .kindHeaders w _ => Machine.flagsLegal w.flags
  | .kindPriority w _ => Machine.flagsLegal w.flags
  | .kindReset w _ => Machine.flagsLegal w.flags
  | .kindSettings w _ => Machine.flagsLegal w.flags
  | .kindPushPromise w _ => Machine.flagsLegal w.flags
  | .kindPing w _ => Machine.flagsLegal w.flags
  | .kindGoAway w _ => Machine.flagsLegal w.flags
  | .kindWindowUpdate w _ => Machine.flagsLegal w.flags
  | .kindContinuation w _ => Machine.flagsLegal w.flags
  | .kindUnregistered w _ => Machine.flagsLegal w.flags

/-- Every operand is a legal value of its type (R51). -/
def legal : Instr → Bool
  | .flagsNew _ => true
  | .flagsHas f _ => Machine.flagsLegal f
  | .kindNew _ => true
  | .kindEncode k => Machine.kindLegal k
  | .sidParse _ => true
  | .sidEncode _ _ => true
  | .hdrParse _ => true
  | .hdrEncode h _ => Machine.headerLegal h
  | .padStrip _ => true
  | .prioParse _ _ => true
  | .prioEncode _ _ => true
  | .settingsParse _ => true
  | .settingsEncode q _ => Machine.seqLegal q
  | .settingLookup _ => true
  | .payloadParse h _ => Machine.headerLegal h
  | .payloadEncode pl _ => Machine.payloadLegal pl
  | .payloadLen pl => Machine.payloadLegal pl
  | .frameParse h _ => Machine.headerLegal h
  | .frameEncode fr _ => Machine.frameLegal fr
  | .frameLen fr => Machine.frameLegal fr
  | .kindData w _ => Machine.flagsLegal w.flags
  | .kindHeaders w _ => Machine.flagsLegal w.flags
  | .kindPriority w _ => Machine.flagsLegal w.flags
  | .kindReset w _ => Machine.flagsLegal w.flags
  | .kindSettings w _ => Machine.flagsLegal w.flags
  | .kindPushPromise w _ => Machine.flagsLegal w.flags
  | .kindPing w _ => Machine.flagsLegal w.flags
  | .kindGoAway w _ => Machine.flagsLegal w.flags
  | .kindWindowUpdate w _ => Machine.flagsLegal w.flags
  | .kindContinuation w _ => Machine.flagsLegal w.flags
  | .kindUnregistered w _ => Machine.flagsLegal w.flags

/-- A well-formed instruction: its operands fit their fields and are legal values of their types. -/
def wf (aw : Nat) (i : Instr) : Bool :=
  i.fits aw && i.legal

end Instr

end Sys2Proof
end

