-- ==== Sys2Proof/Decode.lean ====
section
/-! DEFINITION. The decoder of the block's two encodings and the encoder written from the same tables.

* A COMMAND RECORD (30_encoding.md R120, R121) is a bit string held as a number: bit 0 is the least significant bit of
  `opc`, each operand follows in R120's order at R121's width, the next field at the next higher bit. The spec fixes
  the fields, their order and their widths, not how a record is packed (log entry 4, DESIGN CHOICE).
* A FRAME HEADER (R90, R91) is nine bytes, whose fourth, the kind byte, is the opcode field of the wire format.

Decoding is total. A record is rejected by name when its opcode is unassigned; a header when it is short or its flag
byte is illegal. -/

namespace Sys2Proof

/-! ### Byte order -/

/-- The number whose big-endian bytes are given: the first byte is the most significant (R11, R63). -/
def beNat (bs : List Byte) : Nat :=
  bs.foldl (fun acc b => acc * 256 + b.toNat) 0

/-- The `n` big-endian bytes of the low `8 n` bits of `v` (R11). -/
def beBytes : Nat → Nat → List Byte
  | 0, _ => []
  | n + 1, v => BitVec.ofNat 8 (v / 256 ^ n) :: beBytes n v

/-! ### Kind bytes -/

/-- `kind_new(b)`: total, never fails (R151, R93). -/
def kindNew (b : Byte) : Kind :=
  match b.toNat with
  | 0 => .data
  | 1 => .headers
  | 2 => .priority
  | 3 => .reset
  | 4 => .settings
  | 5 => .pushPromise
  | 6 => .ping
  | 7 => .goAway
  | 8 => .windowUpdate
  | 9 => .continuation
  | _ => .unregistered

/-- `kind_encode(k)`: Unregistered is written as the sentinel 255 (R152). -/
def kindEncode : Kind → Byte
  | .data => 0#8
  | .headers => 1#8
  | .priority => 2#8
  | .reset => 3#8
  | .settings => 4#8
  | .pushPromise => 5#8
  | .ping => 6#8
  | .goAway => 7#8
  | .windowUpdate => 8#8
  | .continuation => 9#8
  | .unregistered => Config.unregSentinel

/-! ### Fields of a command record -/

/-- Read the next `w`-bit field as a bit vector. -/
def takeBits (w : Nat) (r : Nat) : BitVec w × Nat :=
  (BitVec.ofNat w r, r >>> w)

/-- Put a `w`-bit field below the fields already laid out. -/
def putBits {w : Nat} (x : BitVec w) (rest : Nat) : Nat :=
  x.toNat + rest <<< w

/-- Read the next `aw`-bit offset, length or count. -/
def takeAddr (aw : Nat) (r : Nat) : Nat × Nat :=
  (r % 2 ^ aw, r >>> aw)

/-- Put an `aw`-bit offset, length or count. -/
def putAddr (aw n rest : Nat) : Nat :=
  n % 2 ^ aw + rest <<< aw

/-- A Bool is one bit (R121). -/
def takeBool (r : Nat) : Bool × Nat :=
  (r % 2 == 1, r >>> 1)

/-- A Bool is one bit (R121). -/
def putBool (b : Bool) (rest : Nat) : Nat :=
  b.toNat + rest <<< 1

/-- `View` is two `ADDR_W`-bit fields, `off` and `len` (R121). -/
def takeView (aw r : Nat) : View × Nat :=
  let off := takeAddr aw r
  let len := takeAddr aw off.2
  ({ off := off.1, len := len.1 }, len.2)

def putView (aw : Nat) (v : View) (rest : Nat) : Nat :=
  putAddr aw v.off (putAddr aw v.len rest)

/-- `FrameHeader` is `{length : 32, kind : 4, flags : 8, stream_id : 32}` (R121). -/
def takeHeader (r : Nat) : FrameHeader × Nat :=
  let length := takeBits 32 r
  let kind := takeBits 4 length.2
  let flags := takeBits 8 kind.2
  let sid := takeBits 32 flags.2
  ({ length := length.1, kind := kind.1, flags := flags.1, streamId := sid.1 }, sid.2)

def putHeader (h : FrameHeader) (rest : Nat) : Nat :=
  putBits h.length (putBits h.kind (putBits h.flags (putBits h.streamId rest)))

/-- `Priority` is `{exclusive : 1, dependency : 32, weight : 8}` (R121). -/
def takePriority (r : Nat) : Priority × Nat :=
  let e := takeBool r
  let d := takeBits 32 e.2
  let w := takeBits 8 d.2
  ({ exclusive := e.1, dependency := d.1, weight := w.1 }, w.2)

def putPriority (p : Priority) (rest : Nat) : Nat :=
  putBool p.exclusive (putBits p.dependency (putBits p.weight rest))

/-- `Option Priority`: one presence bit, then the Priority if it is 1 (log entry 4, DESIGN CHOICE). -/
def takeOptPriority (r : Nat) : Option Priority × Nat :=
  let p := takeBool r
  if p.1 then
    let q := takePriority p.2
    (some q.1, q.2)
  else (none, p.2)

def putOptPriority (p : Option Priority) (rest : Nat) : Nat :=
  match p with
  | none => putBool false rest
  | some q => putBool true (putPriority q rest)

/-- A list of `{identifier : 16, value : 32}` pairs: a 1 bit before each pair and a 0 bit after the last
(log entry 4, DESIGN CHOICE). The first argument bounds the number of pairs read;
`takeSeq` gives a bound that no record reaches. -/
def takeSettings : Nat → Nat → List Setting × Nat
  | 0, r => ([], r)
  | fuel + 1, r =>
    let more := takeBool r
    if more.1 then
      let id := takeBits 16 more.2
      let val := takeBits 32 id.2
      let tail := takeSettings fuel val.2
      ({ identifier := id.1, value := val.1 } :: tail.1, tail.2)
    else ([], more.2)

def putSettings (rs : List Setting) (rest : Nat) : Nat :=
  match rs with
  | [] => putBool false rest
  | s :: ss => putBool true (putBits s.identifier (putBits s.value (putSettings ss rest)))

/-- `SettingSeq` is a View (form bit 0) or a list of pairs (form bit 1) (R121; log entry 4, DESIGN CHOICE). -/
def takeSeq (aw r : Nat) : SettingSeq × Nat :=
  let form := takeBool r
  if form.1 then
    let l := takeSettings (form.2 + 1) form.2
    (.list l.1, l.2)
  else
    let v := takeView aw form.2
    (.view v.1, v.2)

def putSeq (aw : Nat) (q : SettingSeq) (rest : Nat) : Nat :=
  match q with
  | .view v => putBool false (putView aw v rest)
  | .list rs => putBool true (putSettings rs rest)

/-- `Payload` is a 4-bit tag with the fields of 10_state.md R36 (R121). -/
def takePayload (aw r : Nat) : Payload × Nat :=
  let tag := takeBits 4 r
  let r := tag.2
  match tag.1.toNat with
  | 0 => let v := takeView aw r; (.data v.1, v.2)
  | 1 => let p := takeOptPriority r; let v := takeView aw p.2; (.headers p.1 v.1, v.2)
  | 2 => let p := takePriority r; (.priority p.1, p.2)
  | 3 => let e := takeBits 32 r; (.reset e.1, e.2)
  | 4 => let q := takeSeq aw r; (.settings q.1, q.2)
  | 5 => let i := takeBits 32 r; let v := takeView aw i.2; (.pushPromise i.1 v.1, v.2)
  | 6 => let x := takeBits 64 r; (.ping x.1, x.2)
  | 7 =>
    let l := takeBits 32 r
    let e := takeBits 32 l.2
    let v := takeView aw e.2
    (.goAway l.1 e.1 v.1, v.2)
  | 8 => let x := takeBits 32 r; (.windowUpdate x.1, x.2)
  | 9 => let v := takeView aw r; (.continuation v.1, v.2)
  | 10 => let v := takeView aw r; (.unregistered v.1, v.2)
  | 11 => (.illegal 0, r)
  | 12 => (.illegal 1, r)
  | 13 => (.illegal 2, r)
  | 14 => (.illegal 3, r)
  | _ => (.illegal 4, r)

def putPayload (aw : Nat) (pl : Payload) (rest : Nat) : Nat :=
  putBits (Machine.payloadTag pl) <|
    match pl with
    | .data v => putView aw v rest
    | .headers p v => putOptPriority p (putView aw v rest)
    | .priority p => putPriority p rest
    | .reset e => putBits e rest
    | .settings q => putSeq aw q rest
    | .pushPromise i v => putBits i (putView aw v rest)
    | .ping x => putBits x rest
    | .goAway l e v => putBits l (putBits e (putView aw v rest))
    | .windowUpdate x => putBits x rest
    | .continuation v => putView aw v rest
    | .unregistered v => putView aw v rest
    | .illegal _ => rest

/-- `Frame` is `{header, payload}` (R121). -/
def takeFrame (aw r : Nat) : Frame × Nat :=
  let h := takeHeader r
  let p := takePayload aw h.2
  ({ header := h.1, payload := p.1 }, p.2)

def putFrame (aw : Nat) (fr : Frame) (rest : Nat) : Nat :=
  putHeader fr.header (putPayload aw fr.payload rest)

/-! ### The decoder -/

/-- What the port hands to the decoder: a command record, or the header bytes of the frame at cursor `c`. -/
inductive Fetched where
  | record (bits : Nat)
  | frame (c : Nat) (header : List Byte)
  deriving DecidableEq, Repr

/-- Why the decoder rejects: an opcode R120 leaves unassigned (the block faults BAD_OPCODE, R50), or a header that
HDR_PARSE rejects (the block raises the error, R170). -/
inductive Reject where
  | badOpcode (opc : Byte)
  | badHeader (error : ProtoError)
  deriving DecidableEq, Repr

/-- Decode a command record: the opcode map of R120. -/
def decodeRecord (aw bits : Nat) : Except Reject Instr :=
  let opc := takeBits 8 bits
  let r := opc.2
  match opc.1.toNat with
  | 0x01 => .ok (.flagsNew (takeBits 8 r).1)
  | 0x02 =>
    let f := takeBits 8 r
    .ok (.flagsHas f.1 (takeBits 2 f.2).1)
  | 0x03 => .ok (.kindNew (takeBits 8 r).1)
  | 0x04 => .ok (.kindEncode (takeBits 4 r).1)
  | 0x05 => .ok (.sidParse (takeView aw r).1)
  | 0x06 =>
    let sid := takeBits 32 r
    .ok (.sidEncode sid.1 (takeAddr aw sid.2).1)
  | 0x07 => .ok (.hdrParse (takeView aw r).1)
  | 0x08 =>
    let h := takeHeader r
    .ok (.hdrEncode h.1 (takeAddr aw h.2).1)
  | 0x09 => .ok (.padStrip (takeView aw r).1)
  | 0x0A =>
    let p := takeBool r
    .ok (.prioParse p.1 (takeView aw p.2).1)
  | 0x0B =>
    let p := takePriority r
    .ok (.prioEncode p.1 (takeAddr aw p.2).1)
  | 0x0C => .ok (.settingsParse (takeView aw r).1)
  | 0x0D =>
    let q := takeSeq aw r
    .ok (.settingsEncode q.1 (takeAddr aw q.2).1)
  | 0x0E => .ok (.settingLookup (takeBits 16 r).1)
  | 0x10 =>
    let h := takeHeader r
    .ok (.payloadParse h.1 (takeView aw h.2).1)
  | 0x11 =>
    let p := takePayload aw r
    .ok (.payloadEncode p.1 (takeAddr aw p.2).1)
  | 0x12 => .ok (.payloadLen (takePayload aw r).1)
  | 0x13 =>
    let h := takeHeader r
    .ok (.frameParse h.1 (takeView aw h.2).1)
  | 0x14 =>
    let f := takeFrame aw r
    .ok (.frameEncode f.1 (takeAddr aw f.2).1)
  | 0x15 => .ok (.frameLen (takeFrame aw r).1)
  | _ => .error (.badOpcode opc.1)

/-- The wire instruction of a frame kind (R93). -/
def wireInstr (k : Kind) (w : WireHeader) (c : Nat) : Instr :=
  match k with
  | .data => .kindData w c
  | .headers => .kindHeaders w c
  | .priority => .kindPriority w c
  | .reset => .kindReset w c
  | .settings => .kindSettings w c
  | .pushPromise => .kindPushPromise w c
  | .ping => .kindPing w c
  | .goAway => .kindGoAway w c
  | .windowUpdate => .kindWindowUpdate w c
  | .continuation => .kindContinuation w c
  | .unregistered => .kindUnregistered w c

/-- Decode a frame header from its bytes `h0` to `h8` by the layout of R90 and R91; bytes past the ninth are not read.
Fewer than nine bytes is Short, checked before the flag byte (R170). -/
def decodeHeader (c : Nat) (bytes : List Byte) : Except Reject Instr :=
  match bytes with
  | h0 :: h1 :: h2 :: h3 :: h4 :: h5 :: h6 :: h7 :: h8 :: _ =>
    match Machine.flagsNew h4 with
    | .raise e => .error (.badHeader e)
    | .ok flags =>
      .ok (wireInstr (kindNew h3)
        { length := h0 ++ h1 ++ h2, flags := flags, streamId := h5.extractLsb' 0 7 ++ h6 ++ h7 ++ h8 } c)
  | _ => .error (.badHeader .short)

/-- The decoder: total, rejecting by name. `aw` is `ADDR_W`. -/
def decode (aw : Nat) : Fetched → Except Reject Instr
  | .record bits => decodeRecord aw bits
  | .frame c header => decodeHeader c header

/-- A command record given as bytes, the first byte holding bits 7 to 0. -/
def recordOfBytes : List Byte → Nat
  | [] => 0
  | b :: bs => b.toNat + 256 * recordOfBytes bs

/-! ### The encoder -/

/-- The nine header bytes of R90: the reserved bit is written 0. -/
def encodeHeaderBytes (k : Kind) (w : WireHeader) : List Byte :=
  [ w.length.extractLsb' 16 8, w.length.extractLsb' 8 8, w.length.extractLsb' 0 8,
    kindEncode k, w.flags,
    (w.streamId.extractLsb' 24 7).setWidth 8, w.streamId.extractLsb' 16 8, w.streamId.extractLsb' 8 8,
    w.streamId.extractLsb' 0 8 ]

/-- The words of an instruction: R120 and R121 for a command, R90 for a frame header. -/
def encode (aw : Nat) : Instr → Fetched
  | .flagsNew b => .record (putBits 0x01#8 (putBits b 0))
  | .flagsHas f sel => .record (putBits 0x02#8 (putBits f (putBits sel 0)))
  | .kindNew b => .record (putBits 0x03#8 (putBits b 0))
  | .kindEncode k => .record (putBits 0x04#8 (putBits k 0))
  | .sidParse v => .record (putBits 0x05#8 (putView aw v 0))
  | .sidEncode sid obo => .record (putBits 0x06#8 (putBits sid (putAddr aw obo 0)))
  | .hdrParse v => .record (putBits 0x07#8 (putView aw v 0))
  | .hdrEncode h obo => .record (putBits 0x08#8 (putHeader h (putAddr aw obo 0)))
  | .padStrip v => .record (putBits 0x09#8 (putView aw v 0))
  | .prioParse p v => .record (putBits 0x0A#8 (putBool p (putView aw v 0)))
  | .prioEncode p obo => .record (putBits 0x0B#8 (putPriority p (putAddr aw obo 0)))
  | .settingsParse v => .record (putBits 0x0C#8 (putView aw v 0))
  | .settingsEncode q obo => .record (putBits 0x0D#8 (putSeq aw q (putAddr aw obo 0)))
  | .settingLookup id => .record (putBits 0x0E#8 (putBits id 0))
  | .payloadParse h v => .record (putBits 0x10#8 (putHeader h (putView aw v 0)))
  | .payloadEncode p obo => .record (putBits 0x11#8 (putPayload aw p (putAddr aw obo 0)))
  | .payloadLen p => .record (putBits 0x12#8 (putPayload aw p 0))
  | .frameParse h v => .record (putBits 0x13#8 (putHeader h (putView aw v 0)))
  | .frameEncode f obo => .record (putBits 0x14#8 (putFrame aw f (putAddr aw obo 0)))
  | .frameLen f => .record (putBits 0x15#8 (putFrame aw f 0))
  | .kindData w c => .frame c (encodeHeaderBytes .data w)
  | .kindHeaders w c => .frame c (encodeHeaderBytes .headers w)
  | .kindPriority w c => .frame c (encodeHeaderBytes .priority w)
  | .kindReset w c => .frame c (encodeHeaderBytes .reset w)
  | .kindSettings w c => .frame c (encodeHeaderBytes .settings w)
  | .kindPushPromise w c => .frame c (encodeHeaderBytes .pushPromise w)
  | .kindPing w c => .frame c (encodeHeaderBytes .ping w)
  | .kindGoAway w c => .frame c (encodeHeaderBytes .goAway w)
  | .kindWindowUpdate w c => .frame c (encodeHeaderBytes .windowUpdate w)
  | .kindContinuation w c => .frame c (encodeHeaderBytes .continuation w)
  | .kindUnregistered w c => .frame c (encodeHeaderBytes .unregistered w)

/-! ### The host's entry to the opcode table -/

/-- Nine header bytes whose kind byte is `b` and whose other bits are 0. -/
def headerOfKindByte (b : Byte) : List Byte :=
  [0#8, 0#8, 0#8, b, 0#8, 0#8, 0#8, 0#8, 0#8]

/-- The instruction read from a word of the opcode table. The table has two formats that use the same byte values
(`command` and `header_kind_byte`) and a word does not say which it is: an assigned opcode is read as a command and any
other byte as a header's kind byte (log entry 6, DESIGN CHOICE). -/
def decodeTableWord (nbits w : Nat) : Option Instr :=
  let bits := w % 2 ^ nbits
  match decode Config.launch.addrW (.record bits) with
  | .ok i => some i
  | .error _ =>
    match decode Config.launch.addrW (.frame 0 (headerOfKindByte (BitVec.ofNat 8 bits))) with
    | .ok i => some i
    | .error _ => none

end Sys2Proof
end

