-- ==== Sys2Proof/Machine/State.lean ====
section
/-! DEFINITION. The state of the block as plain data (10_state.md R40 to R49), the inputs of its command port
(R47, R340, 20_memory.md R75), and the machine after reset (70_reset_and_hazards.md R340).

IB and OB are the caller's memories (R43, R44). Where they lie in the surrounding memory, and whether they share cells,
is left to the platform (R69): the cells are stored once, in `mem`, and IB and OB are the two windows of it that the
launch parameters place. -/

namespace Sys2Proof.Machine

/-- The cells of the caller's buffers: (address, byte) pairs in one canonical form (`Memory.wf`). -/
abbrev Memory := List Host.Cell

/-- The canonical form: addresses strictly rising, and no entry equal to what an unlisted cell reads as. -/
abbrev Memory.wf (m : Memory) : Prop :=
  m.Pairwise (fun p q => p.1 < q.1) ∧ ∀ p ∈ m, p.2 ≠ Config.unlistedByte

/-- The result register, a tagged record (R46). -/
inductive Res where
  /-- Tag 0: reset, and any command that raises or faults. -/
  | none
  /-- Tag 1, written by FLAGS_NEW. -/
  | flags (f : Byte)
  /-- Tag 2, written by FLAGS_HAS. -/
  | bool (b : Bool)
  /-- Tag 3, written by KIND_NEW. -/
  | kind (k : Kind)
  /-- Tag 4, written by KIND_ENCODE. -/
  | byte (b : Byte)
  /-- Tag 5, written by SID_PARSE. -/
  | sid (s : BitVec 32)
  /-- Tag 6, written by HDR_PARSE. -/
  | header (h : FrameHeader)
  /-- Tag 7, written by PAD_STRIP. -/
  | view (v : View)
  /-- Tag 8, written by PRIO_PARSE. -/
  | prio (rest : View) (priority : Option Priority)
  /-- Tag 9, written by SETTINGS_PARSE: a SettingSeq as a View. -/
  | settings (s : View)
  /-- Tag 10, written by SETTING_LOOKUP. -/
  | name (n : SettingName)
  /-- Tag 11, written by PAYLOAD_PARSE. -/
  | payload (p : Payload)
  /-- Tag 12, written by FRAME_PARSE. -/
  | frame (f : Frame)
  /-- Tag 13, a byte count, written by the encode and length commands. -/
  | count (n : Nat)
  deriving DecidableEq, Repr

/-- One input of the port or of the caller between two commands. The block has no program of its own (R42, R318): what
the caller will do next is data in the state, read in order (log entry 5). -/
inductive PortInput where
  /-- The caller issues a command, given as its record (R47). -/
  | cmd (bits : Nat)
  /-- The caller decodes the frame at cursor `c`: the macro FRAME_DECODE (R123). -/
  | frame (c : Nat)
  /-- The caller asserts RESET, between commands (R340). -/
  | reset
  /-- The caller writes bytes of IB (R43, R75). -/
  | ibWrite (a : Nat) (bytes : List Byte)
  /-- The caller writes bytes of OB (R44). -/
  | obWrite (a : Nat) (bytes : List Byte)
  deriving DecidableEq, Repr

/-- The state: the architectural tuple (IB, OB, STATUS, RES) of R40, the launch parameters, and the inputs to come. -/
structure State where
  /-- The launch parameters (R6, R69), which no step changes. -/
  cfg    : Params
  /-- The cells of IB and OB (R43, R44). -/
  mem    : Memory
  /-- STATUS (R45). -/
  status : BitVec 32
  /-- RES (R46). -/
  res    : Res
  /-- MODEL'S OWN: the inputs the caller will present, the next one first (log entry 5). -/
  port   : List PortInput
  /-- MODEL'S OWN: how many free values have been drawn (log entry 3). -/
  fresh  : Nat
  deriving DecidableEq, Repr

/-- Reasons for which the machine stops. There are none: each model fault of R310 is a next state that STATUS records,
and a command issued after one is not executed and changes nothing (R314). -/
inductive Fault where
  deriving DecidableEq, Repr

/-- Reasons for which an instruction has no meaning. -/
inductive Refusal where
  /-- Raised by an arm of `exec` whose instruction has no meaning yet, by its mnemonic (safe). No arm raises it. -/
  | notModelled (mnemonic : String)
  deriving DecidableEq, Repr

/-- The block after power-on or RESET under given launch parameters (R340): STATUS is 0, RES is NONE. The buffers hold
nothing the caller has written, and no input is pending. -/
def State.launched (cfg : Params) : State :=
  { cfg := cfg, mem := [], status := 0#32, res := .none, port := [], fresh := 0 }

/-- The machine right after reset (R340), under the launch parameters of log entry 1. -/
def State.reset : State := State.launched Config.launch

end Sys2Proof.Machine
end

