-- ==== Sys2Proof/Machine/Ops.lean ====
section
/-! DEFINITION. The named operations over memory and registers: the cells and the two windows IB and OB, the memory
primitives of 00_scope.md R11, the scalar codecs of 41_scalar_flag_kind.md R140 to R145, the two abnormal outcomes
(60_exceptions.md R313: the block's whole exception entry) with the one way back, and the command cycle of
10_state.md R50. -/

namespace Sys2Proof.Machine

/-! ### Cells -/

/-- Read one cell. -/
def Memory.read : Memory → Nat → Byte
  | [], _ => Config.unlistedByte
  | (y, b) :: rest, x => if x = y then b else Memory.read rest x

/-- Write one cell, keeping the canonical form. -/
def Memory.write : Memory → Nat → Byte → Memory
  | [], x, b => if b = Config.unlistedByte then [] else [(x, b)]
  | (y, c) :: rest, x, b =>
    if x < y then
      if b = Config.unlistedByte then (y, c) :: rest else (x, b) :: (y, c) :: rest
    else if x = y then
      if b = Config.unlistedByte then rest else (x, b) :: rest
    else (y, c) :: Memory.write rest x b

/-- Write consecutive cells from `x` up. -/
def Memory.writeBytes : Memory → Nat → List Byte → Memory
  | m, _, [] => m
  | m, x, b :: bs => Memory.writeBytes (Memory.write m x b) (x + 1) bs

/-! ### The buffers -/

/-- The contents of a buffer, as the rules read them. -/
abbrev Buffer := Nat → Byte

/-- `IB[a]` (R43, R60). -/
def State.ib (s : State) : Buffer := fun a => s.mem.read (s.cfg.ibBase + a)

/-- `OB[a]` (R44, R61). -/
def State.ob (s : State) : Buffer := fun a => s.mem.read (s.cfg.obBase + a)

/-- The bytes of a buffer at `a`, `a + 1`, … -/
def readBytes (buf : Buffer) (a : Nat) : Nat → List Byte
  | 0 => []
  | n + 1 => buf a :: readBytes buf (a + 1) n

/-- The bytes that a view denotes (R9); what `CopyOut` writes (R11). -/
def viewBytes (ib : Buffer) (v : View) : List Byte :=
  readBytes ib v.off v.len

/-- `MemRead(a, n)`, big-endian (R11). -/
def memRead (ib : Buffer) (a n : Nat) : Nat :=
  beNat (readBytes ib a n)

/-! ### Scalar codecs: a decoder reads IB, an encoder gives the bytes of its `MemWrite` -/

/-- `u24_decode(a)`, zero-extended to 32 bits (R140). -/
def u24Decode (ib : Buffer) (a : Nat) : BitVec 32 := BitVec.ofNat 32 (memRead ib a 3)

/-- `u16_decode(a)` (R142). -/
def u16Decode (ib : Buffer) (a : Nat) : BitVec 16 := BitVec.ofNat 16 (memRead ib a 2)

/-- `u32_decode(a)` (R142). -/
def u32Decode (ib : Buffer) (a : Nat) : BitVec 32 := BitVec.ofNat 32 (memRead ib a 4)

/-- `u64_decode(a)` (R142). -/
def u64Decode (ib : Buffer) (a : Nat) : BitVec 64 := BitVec.ofNat 64 (memRead ib a 8)

/-- `sid_decode(a)`: the top bit is cleared (R144). -/
def sidDecode (ib : Buffer) (a : Nat) : BitVec 32 := u32Decode ib a &&& Config.sidMask

/-- `u24_encode`: bits 31:24 are dropped (R141). -/
def u24Bytes (x : BitVec 32) : List Byte := beBytes 3 x.toNat

/-- `u16_encode` (R143). -/
def u16Bytes (x : BitVec 16) : List Byte := beBytes 2 x.toNat

/-- `u32_encode` (R143). -/
def u32Bytes (x : BitVec 32) : List Byte := beBytes 4 x.toNat

/-- `u64_encode` (R143). -/
def u64Bytes (x : BitVec 64) : List Byte := beBytes 8 x.toNat

/-- `sid_encode`: the top bit is written 0 (R145). -/
def sidBytes (x : BitVec 32) : List Byte := u32Bytes (x &&& Config.sidMask)

/-! ### Registers -/

/-- STATUS.FAULT is 1: the block is stuck until reset (R50). -/
def State.faulted (s : State) : Bool := statusFault s.status

/-- A protocol error (R50, R301, R313): STATUS records it, RES is NONE, the buffers are left as they were. -/
def State.raiseError (s : State) (e : ProtoError) : State :=
  { s with status := statusOfError e, res := .none }

/-- A model fault (R50, R310, R313): STATUS.FAULT and FCODE are set, ERR and ARG cleared, RES is NONE, the buffers are
left as they were. The block transfers control nowhere: it has no pc, no vector and no saved register. -/
def State.takeFault (s : State) (f : ModelFault) : State :=
  { s with status := statusOfFault f, res := .none }

/-- RESET, the only way back from a fault (R314, R340, R341): STATUS is 0, RES is NONE, IB and OB are unchanged. -/
def State.portReset (s : State) : State :=
  { s with status := 0#32, res := .none }

/-- A successful command (R50): STATUS is 0 and RES is its result. -/
def State.complete (s : State) (r : Res) : State :=
  { s with status := 0#32, res := r }

/-! ### Stores into OB -/

/-- OB overlaps the IB bytes of a view (R351). -/
def overlapsOb (p : Params) (v : View) : Bool :=
  decide (0 < v.len) && decide (0 < p.obcap) &&
    decide (p.ibBase + v.off < p.obBase + p.obcap) && decide (p.obBase < p.ibBase + v.off + v.len)

/-- `n` free bytes, drawn from the counter `k` up. -/
def freeBytes (k : Nat) : Nat → List Byte
  | 0 => []
  | n + 1 => Config.freeByte k :: freeBytes (k + 1) n

/-- Apply the writes of an encode command: its bytes land at `OB[obo ..]` (R68, R253). `sources` are the views it
copies from; when OB overlaps one of them the bytes written are free values (R351, log entry 3). -/
def State.storeOut (s : State) (obo : Nat) (sources : List View) (bytes : List Byte) : State :=
  if sources.any (overlapsOb s.cfg) then
    { s with
      mem := s.mem.writeBytes (s.cfg.obBase + obo) (freeBytes s.fresh bytes.length)
      fresh := s.fresh + bytes.length }
  else
    { s with mem := s.mem.writeBytes (s.cfg.obBase + obo) bytes }

/-! ### The command cycle -/

/-- What the cycle checks before a command's rule (R50): whether the operands are legal, the views among them, whether
a Frame operand's payload kind is its header's, and for an encode command its `obo` and byte count. -/
structure Checks where
  legal      : Bool := true
  views      : List View := []
  kindsMatch : Bool := true
  out        : Option (Nat × Nat) := none
  deriving DecidableEq, Repr

/-- The first fault, in the order of R50 and R311. -/
def Checks.firstFault (c : Checks) (p : Params) : Option ModelFault :=
  if !c.legal then some .badOperand
  else if !(c.views.all (viewInside p.iblen)) then some .ibBounds
  else if !c.kindsMatch then some .kindMismatch
  else
    match c.out with
    | some (obo, n) => if obo + n > p.obcap then some .obBounds else none
    | none => none

/-- One command of the port whose rule only reads (R50). -/
def State.readCycle (s : State) (c : Checks) (rule : Result Res) : State :=
  if s.faulted then s
  else
    match c.firstFault s.cfg with
    | some f => s.takeFault f
    | none =>
      match rule with
      | .ok r => s.complete r
      | .raise e => s.raiseError e

/-- One encode command of the port (R50): `bytes` are the bytes its rule writes from `OB[obo]` up and `n` the byte
count it is checked against and returns (R68). No encode command raises an error (R300). -/
def State.encodeCycle (s : State) (c : Checks) (obo n : Nat) (bytes : List Byte) : State :=
  if s.faulted then s
  else
    match { c with out := some (obo, n) }.firstFault s.cfg with
    | some f => s.takeFault f
    | none => (s.storeOut obo c.views bytes).complete (.count n)

/-- A command whose opcode is unassigned (R50): BAD_OPCODE, unless the block is stuck. -/
def State.badOpcode (s : State) : State :=
  if s.faulted then s else s.takeFault .badOpcode

end Sys2Proof.Machine
end

