-- ==== Sys2Proof/Machine/Header.lean ====
section
/-! DEFINITION. The frame header codec (42_frame_header.md): HDR_PARSE and HDR_ENCODE. -/

namespace Sys2Proof.Machine

/-- The rule of HDR_PARSE (R170): Short is checked first, then the flag byte. -/
def hdrParse (ib : Buffer) (v : View) : Result FrameHeader :=
  if v.len < Config.hdrLen then .raise .short
  else
    (flagsNew (ib (v.off + 4))).map fun flags =>
      { length := u24Decode ib v.off
        kind := kindTag (kindNew (ib (v.off + 3)))
        flags := flags
        streamId := sidDecode ib (v.off + 5) }

/-- The nine bytes HDR_ENCODE writes (R171). -/
def headerBytes (h : FrameHeader) : List Byte :=
  u24Bytes h.length ++ [kindEncode (kindOfTag h.kind), h.flags] ++ sidBytes h.streamId

/-- HDR_PARSE (R170). -/
def execHdrParse (v : View) (s : State) : Host.Outcome State Fault Refusal :=
  .next (s.readCycle { views := [v] } ((hdrParse s.ib v).map .header))

/-- HDR_ENCODE (R171). -/
def execHdrEncode (h : FrameHeader) (obo : Nat) (s : State) : Host.Outcome State Fault Refusal :=
  .next (s.encodeCycle { legal := headerLegal h } obo Config.hdrLen (headerBytes h))

end Sys2Proof.Machine
end

