-- ==== Sys2Proof/Machine/Padding.lean ====
section
/-! DEFINITION. The padding helper (43_padding.md): PAD_STRIP. -/

namespace Sys2Proof.Machine

/-- `pad_strip(r)` (R180): the guard is `>=` (90_conflicts.md C1). -/
def padStrip (ib : Buffer) (r : View) : Result View :=
  let p := ib r.off
  if p.toNat ≥ r.len then .raise (.tooMuchPadding p) else .ok (viewSlice r 1 (r.len - p.toNat))

/-- The rule of the standalone command (R180, D15). -/
def padStripCommand (ib : Buffer) (v : View) : Result View :=
  if v.len = 0 then .raise .payloadLengthTooShort else padStrip ib v

/-- PAD_STRIP (R180). -/
def execPadStrip (v : View) (s : State) : Host.Outcome State Fault Refusal :=
  .next (s.readCycle { views := [v] } ((padStripCommand s.ib v).map .view))

end Sys2Proof.Machine
end

