-- ==== Sys2Proof/Machine/Prio.lean ====
section
/-! DEFINITION. The priority sub-structure codec (44_priority.md): PRIO_PARSE and PRIO_ENCODE. -/

namespace Sys2Proof.Machine

/-- The priority block at `a` (R97, R190). -/
def priorityAt (ib : Buffer) (a : Nat) : Priority :=
  let raw := u32Decode ib a
  { exclusive := raw.getLsbD 31, dependency := raw &&& Config.sidMask, weight := ib (a + 4) }

/-- The block that `prio_parse` reads when it is present, and what follows it (R190, D7). -/
def prioBlock (ib : Buffer) (r : View) : Result (View × Priority) :=
  if r.len < Config.prioLen then .raise .short else .ok (viewFrom r Config.prioLen, priorityAt ib r.off)

/-- `prio_parse(present, r)` (R190). -/
def prioParse (ib : Buffer) (present : Bool) (r : View) : Result (View × Option Priority) :=
  if !present then .ok (r, none) else (prioBlock ib r).map fun p => (p.1, some p.2)

/-- `prio_write`: the five bytes of a priority block; the dependency is masked before the OR (R191, R242, D14). -/
def prioBytes (pr : Priority) : List Byte :=
  u32Bytes ((pr.dependency &&& Config.sidMask) ||| (if pr.exclusive then 0x80000000#32 else 0#32)) ++ [pr.weight]

/-- PRIO_PARSE (R190). -/
def execPrioParse (present : Bool) (v : View) (s : State) : Host.Outcome State Fault Refusal :=
  .next (s.readCycle { views := [v] } ((prioParse s.ib present v).map fun p => .prio p.1 p.2))

/-- PRIO_ENCODE (R191). -/
def execPrioEncode (pr : Priority) (obo : Nat) (s : State) : Host.Outcome State Fault Refusal :=
  .next (s.encodeCycle {} obo Config.prioLen (prioBytes pr))

end Sys2Proof.Machine
end

