-- ==== Sys2Proof/Machine/Settings.lean ====
section
/-! DEFINITION. The setting record codec (45_settings.md): SETTINGS_PARSE, SETTINGS_ENCODE and SETTING_LOOKUP. -/

namespace Sys2Proof.Machine

/-- `settings_parse(r)` (R200). -/
def settingsParse (r : View) : Result View :=
  if r.len % Config.settingLen ≠ 0 then .raise .partialSettingLength else .ok r

/-- `setting_at(s, i)`: record `i` of a view (R200). -/
def settingAt (ib : Buffer) (v : View) (i : Nat) : Setting :=
  let a := v.off + Config.settingLen * i
  { identifier := u16Decode ib a, value := u32Decode ib (a + 2) }

/-- The list of records that a SettingSeq means (R39). -/
def seqRecords (ib : Buffer) : SettingSeq → List Setting
  | .view v => (List.range (v.len / Config.settingLen)).map (settingAt ib v)
  | .list rs => rs

/-- The six bytes of a record (R98, R201). -/
def settingBytes (r : Setting) : List Byte :=
  u16Bytes r.identifier ++ u32Bytes r.value

/-- The bytes of a SettingSeq, record by record in order (R201, R245). -/
def seqBytes (ib : Buffer) (q : SettingSeq) : List Byte :=
  (seqRecords ib q).flatMap settingBytes

/-- `setting_name(id)` (R202). -/
def settingName (id : BitVec 16) : SettingName :=
  if 1 ≤ id.toNat ∧ id.toNat ≤ 5 then .known id else .unrecognized id

/-- The label of a known identifier (R203): a name only, which no rule reads. -/
def settingLabel (id : BitVec 16) : Option String :=
  match id.toNat with
  | 1 => some "HeaderTableSize"
  | 2 => some "EnablePush"
  | 3 => some "MaxConcurrentStreams"
  | 4 => some "InitialWindowSize"
  | 5 => some "MaxFrameSize"
  | _ => none

/-- SETTINGS_PARSE (R200). -/
def execSettingsParse (v : View) (s : State) : Host.Outcome State Fault Refusal :=
  .next (s.readCycle { views := [v] } ((settingsParse v).map .settings))

/-- SETTINGS_ENCODE (R201). -/
def execSettingsEncode (q : SettingSeq) (obo : Nat) (s : State) : Host.Outcome State Fault Refusal :=
  .next (s.encodeCycle { legal := seqLegal q, views := seqViews q } obo (Config.settingLen * seqCount q)
    (seqBytes s.ib q))

/-- SETTING_LOOKUP (R202). -/
def execSettingLookup (id : BitVec 16) (s : State) : Host.Outcome State Fault Refusal :=
  .next (s.readCycle {} (.ok (.name (settingName id))))

end Sys2Proof.Machine
end

