-- ==== Sys2Proof/Machine/Payload.lean ====
section
/-! DEFINITION. The payload dispatcher (46_payload_parse.md), the payload encoder and the encoded length
(47_payload_encode.md): PAYLOAD_PARSE, PAYLOAD_ENCODE and PAYLOAD_LEN. -/

namespace Sys2Proof.Machine

/-- What the prologue hands to an arm: the payload region cut to `header.length` bytes, and the two flags (R210). -/
structure Region where
  r   : View
  pad : Bool
  pri : Bool
  deriving DecidableEq, Repr

/-- The minimum payload length of step 3: 0, 1, 5 or 6 (R210). -/
def minPayloadLength (flags : Byte) : Nat :=
  (if has flags priorityBit then 5 else 0) + (if has flags paddedBit then 1 else 0)

/-- `payload_prologue(h, v)`, steps 1 to 4 (R210). -/
def payloadPrologue (h : FrameHeader) (v : View) : Result Region :=
  if v.len < h.length.toNat then .raise .short
  else if h.length.toNat < minPayloadLength h.flags then .raise .payloadLengthTooShort
  else
    .ok { r := viewSlice v 0 h.length.toNat, pad := has h.flags paddedBit, pri := has h.flags priorityBit }

/-! ### The parse arms -/

/-- The content of a region: padding stripped when PADDED is set (R96). -/
def contentOf (ib : Buffer) (g : Region) : Result View :=
  if g.pad then padStrip ib g.r else .ok g.r

/-- The Data arm (R212). -/
def parseData (ib : Buffer) (g : Region) : Result Payload :=
  (contentOf ib g).map .data

/-- The Headers arm (R213): the padding is stripped before the priority block is read. -/
def parseHeaders (ib : Buffer) (g : Region) : Result Payload :=
  (contentOf ib g).bind fun c => (prioParse ib g.pri c).map fun p => .headers p.2 p.1

/-- The Priority arm (R214): five bytes are read whatever the flags; bytes past them are dropped. -/
def parsePriority (ib : Buffer) (g : Region) : Result Payload :=
  (prioBlock ib g.r).map fun p => .priority p.2

/-- The Reset arm (R215): bytes past the fourth are dropped. -/
def parseReset (ib : Buffer) (g : Region) : Result Payload :=
  if g.r.len < 4 then .raise .payloadLengthTooShort else .ok (.reset (u32Decode ib g.r.off))

/-- The Settings arm (R216). -/
def parseSettings (g : Region) : Result Payload :=
  (settingsParse g.r).map fun v => .settings (.view v)

/-- The PushPromise arm (R217). -/
def parsePushPromise (ib : Buffer) (g : Region) : Result Payload :=
  (contentOf ib g).bind fun c =>
    if c.len < 4 then .raise .payloadLengthTooShort else .ok (.pushPromise (sidDecode ib c.off) (viewFrom c 4))

/-- The Ping arm (R218). -/
def parsePing (ib : Buffer) (g : Region) : Result Payload :=
  if g.r.len ≠ 8 then .raise .invalidPayloadLength else .ok (.ping (u64Decode ib g.r.off))

/-- The GoAway arm (R219). -/
def parseGoAway (ib : Buffer) (g : Region) : Result Payload :=
  if g.r.len < 8 then .raise .payloadLengthTooShort
  else .ok (.goAway (sidDecode ib g.r.off) (u32Decode ib (g.r.off + 4)) (viewFrom g.r 8))

/-- The increment as `P_WU_MASK` has it, on parse and on encode (R220, R249, D8). -/
def wuIncrement (wuMask : Bool) (x : BitVec 32) : BitVec 32 :=
  if wuMask then x &&& Config.sidMask else x

/-- The WindowUpdate arm (R220). -/
def parseWindowUpdate (wuMask : Bool) (ib : Buffer) (g : Region) : Result Payload :=
  if g.r.len ≠ 4 then .raise .invalidPayloadLength
  else .ok (.windowUpdate (wuIncrement wuMask (u32Decode ib g.r.off)))

/-- The Continuation arm (R221). -/
def parseContinuation (g : Region) : Result Payload :=
  .ok (.continuation g.r)

/-- The Unregistered arm (R222). -/
def parseUnregistered (g : Region) : Result Payload :=
  .ok (.unregistered g.r)

/-- Step 5 of the dispatcher (R211). -/
def payloadArm (wuMask : Bool) (ib : Buffer) (k : Kind) (g : Region) : Result Payload :=
  match k with
  | .data => parseData ib g
  | .headers => parseHeaders ib g
  | .priority => parsePriority ib g
  | .reset => parseReset ib g
  | .settings => parseSettings g
  | .pushPromise => parsePushPromise ib g
  | .ping => parsePing ib g
  | .goAway => parseGoAway ib g
  | .windowUpdate => parseWindowUpdate wuMask ib g
  | .continuation => parseContinuation g
  | .unregistered => parseUnregistered g

/-- `payload_parse(h, v)` (R211). -/
def payloadParse (wuMask : Bool) (ib : Buffer) (h : FrameHeader) (v : View) : Result Payload :=
  (payloadPrologue h v).bind (payloadArm wuMask ib (kindOfTag h.kind))

/-! ### The encoded length and the encode arms -/

/-- `encoded_len(pl)` (R252). A padded frame's padding is never counted. -/
def encodedLen : Payload → Nat
  | .data d => d.len
  | .headers opt b => (if opt.isSome then Config.prioLen else 0) + b.len
  | .priority _ => Config.prioLen
  | .reset _ => 4
  | .settings q => Config.settingLen * seqCount q
  | .pushPromise _ b => 4 + b.len
  | .ping _ => 8
  | .goAway _ _ d => 8 + d.len
  | .windowUpdate _ => 4
  | .continuation b => b.len
  | .unregistered b => b.len
  | .illegal _ => 0

/-- The Data arm (R241). -/
def dataBytes (ib : Buffer) (d : View) : List Byte := viewBytes ib d

/-- The Headers arm (R242). -/
def headersBytes (ib : Buffer) (opt : Option Priority) (b : View) : List Byte :=
  match opt with
  | none => viewBytes ib b
  | some pr => prioBytes pr ++ viewBytes ib b

/-- The Priority arm (R243). -/
def priorityPayloadBytes (pr : Priority) : List Byte := prioBytes pr

/-- The Reset arm (R244): unmasked. -/
def resetBytes (e : BitVec 32) : List Byte := u32Bytes e

/-- The Settings arm (R245). -/
def settingsBytes (ib : Buffer) (q : SettingSeq) : List Byte := seqBytes ib q

/-- The PushPromise arm (R246). -/
def pushPromiseBytes (ib : Buffer) (id : BitVec 32) (b : View) : List Byte := sidBytes id ++ viewBytes ib b

/-- The Ping arm (R247). -/
def pingBytes (x : BitVec 64) : List Byte := u64Bytes x

/-- The GoAway arm (R248). -/
def goAwayBytes (ib : Buffer) (last e : BitVec 32) (d : View) : List Byte :=
  sidBytes last ++ u32Bytes e ++ viewBytes ib d

/-- The WindowUpdate arm (R249). -/
def windowUpdateBytes (wuMask : Bool) (x : BitVec 32) : List Byte := u32Bytes (wuIncrement wuMask x)

/-- The Continuation arm (R250). -/
def continuationBytes (ib : Buffer) (b : View) : List Byte := viewBytes ib b

/-- The Unregistered arm (R251). -/
def unregisteredBytes (ib : Buffer) (b : View) : List Byte := viewBytes ib b

/-- `payload_encode(pl, obo)`: the bytes it writes from `obo` up (R240). -/
def payloadBytes (wuMask : Bool) (ib : Buffer) : Payload → List Byte
  | .data d => dataBytes ib d
  | .headers opt b => headersBytes ib opt b
  | .priority pr => priorityPayloadBytes pr
  | .reset e => resetBytes e
  | .settings q => settingsBytes ib q
  | .pushPromise id b => pushPromiseBytes ib id b
  | .ping x => pingBytes x
  | .goAway last e d => goAwayBytes ib last e d
  | .windowUpdate x => windowUpdateBytes wuMask x
  | .continuation b => continuationBytes ib b
  | .unregistered b => unregisteredBytes ib b
  | .illegal _ => []

/-! ### The commands -/

/-- PAYLOAD_PARSE (R211). -/
def execPayloadParse (h : FrameHeader) (v : View) (s : State) : Host.Outcome State Fault Refusal :=
  .next (s.readCycle { legal := headerLegal h, views := [v] }
    ((payloadParse s.cfg.wuMask s.ib h v).map .payload))

/-- PAYLOAD_ENCODE (R240). -/
def execPayloadEncode (pl : Payload) (obo : Nat) (s : State) : Host.Outcome State Fault Refusal :=
  .next (s.encodeCycle { legal := payloadLegal pl, views := payloadViews pl } obo (encodedLen pl)
    (payloadBytes s.cfg.wuMask s.ib pl))

/-- PAYLOAD_LEN (R252). -/
def execPayloadLen (pl : Payload) (s : State) : Host.Outcome State Fault Refusal :=
  .next (s.readCycle { legal := payloadLegal pl, views := payloadViews pl } (.ok (.count (encodedLen pl))))

end Sys2Proof.Machine
end

