-- ==== Sys2Proof/Machine/FrameOps.lean ====
section
/-! DEFINITION. The frame entry points (48_frame.md): FRAME_PARSE, FRAME_ENCODE and FRAME_LEN, and the frame kinds of
the wire format (30_encoding.md R93). The kind byte of a frame's header selects an arm of 46_payload_parse.md; the
instruction it names is the parse of that frame's payload, which the caller's macro FRAME_DECODE issues as
`FRAME_PARSE h, <c + 9, IBLEN - c - 9>` (R123; log entry 6). -/

namespace Sys2Proof.Machine

/-- FRAME_PARSE (R270): the header is stored as given. -/
def execFrameParse (h : FrameHeader) (v : View) (s : State) : Host.Outcome State Fault Refusal :=
  .next (s.readCycle { legal := headerLegal h, views := [v] }
    ((payloadParse s.cfg.wuMask s.ib h v).map fun pl => .frame { header := h, payload := pl }))

/-- The bytes FRAME_ENCODE writes (R271): the stored header, its length not recomputed, then the payload. -/
def frameBytes (wuMask : Bool) (ib : Buffer) (fr : Frame) : List Byte :=
  headerBytes fr.header ++ payloadBytes wuMask ib fr.payload

/-- `Frame::encoded_len()` (R272). -/
def frameLen (fr : Frame) : Nat :=
  Config.hdrLen + encodedLen fr.payload

/-- FRAME_ENCODE (R271). -/
def execFrameEncode (fr : Frame) (obo : Nat) (s : State) : Host.Outcome State Fault Refusal :=
  .next (s.encodeCycle
    { legal := frameLegal fr, views := payloadViews fr.payload, kindsMatch := frameKindsMatch fr } obo (frameLen fr)
    (frameBytes s.cfg.wuMask s.ib fr))

/-- FRAME_LEN (R272). -/
def execFrameLen (fr : Frame) (s : State) : Host.Outcome State Fault Refusal :=
  .next (s.readCycle
    { legal := frameLegal fr, views := payloadViews fr.payload, kindsMatch := frameKindsMatch fr }
    (.ok (.count (frameLen fr))))

/-! ### The frame kinds -/

/-- The frame at cursor `c`, whose header has kind `k` and fields `w`: the prologue, then the kind's arm (R210, R211),
and the frame it makes (R270). -/
def State.runFrame (s : State) (k : Kind) (arm : Region → Result Payload) (w : WireHeader) (c : Nat) : State :=
  let h := wireFrameHeader k w
  let v := payloadViewAt s.cfg.iblen c
  s.readCycle { legal := flagsLegal w.flags, views := [v] }
    (((payloadPrologue h v).bind arm).map fun pl => .frame { header := h, payload := pl })

/-- Kind byte 0x00, Data (R212). -/
def execKindData (w : WireHeader) (c : Nat) (s : State) : Host.Outcome State Fault Refusal :=
  .next (s.runFrame .data (parseData s.ib) w c)

/-- Kind byte 0x01, Headers (R213). -/
def execKindHeaders (w : WireHeader) (c : Nat) (s : State) : Host.Outcome State Fault Refusal :=
  .next (s.runFrame .headers (parseHeaders s.ib) w c)

/-- Kind byte 0x02, Priority (R214). -/
def execKindPriority (w : WireHeader) (c : Nat) (s : State) : Host.Outcome State Fault Refusal :=
  .next (s.runFrame .priority (parsePriority s.ib) w c)

/-- Kind byte 0x03, Reset (R215). -/
def execKindReset (w : WireHeader) (c : Nat) (s : State) : Host.Outcome State Fault Refusal :=
  .next (s.runFrame .reset (parseReset s.ib) w c)

/-- Kind byte 0x04, Settings (R216). -/
def execKindSettings (w : WireHeader) (c : Nat) (s : State) : Host.Outcome State Fault Refusal :=
  .next (s.runFrame .settings parseSettings w c)

/-- Kind byte 0x05, PushPromise (R217). -/
def execKindPushPromise (w : WireHeader) (c : Nat) (s : State) : Host.Outcome State Fault Refusal :=
  .next (s.runFrame .pushPromise (parsePushPromise s.ib) w c)

/-- Kind byte 0x06, Ping (R218). -/
def execKindPing (w : WireHeader) (c : Nat) (s : State) : Host.Outcome State Fault Refusal :=
  .next (s.runFrame .ping (parsePing s.ib) w c)

/-- Kind byte 0x07, GoAway (R219). -/
def execKindGoAway (w : WireHeader) (c : Nat) (s : State) : Host.Outcome State Fault Refusal :=
  .next (s.runFrame .goAway (parseGoAway s.ib) w c)

/-- Kind byte 0x08, WindowUpdate (R220). -/
def execKindWindowUpdate (w : WireHeader) (c : Nat) (s : State) : Host.Outcome State Fault Refusal :=
  .next (s.runFrame .windowUpdate (parseWindowUpdate s.cfg.wuMask s.ib) w c)

/-- Kind byte 0x09, Continuation (R221). -/
def execKindContinuation (w : WireHeader) (c : Nat) (s : State) : Host.Outcome State Fault Refusal :=
  .next (s.runFrame .continuation parseContinuation w c)

/-- Kind bytes 0x0A to 0xFF, Unregistered (R222). -/
def execKindUnregistered (w : WireHeader) (c : Nat) (s : State) : Host.Outcome State Fault Refusal :=
  .next (s.runFrame .unregistered parseUnregistered w c)

end Sys2Proof.Machine
end

