-- ==== Sys2Proof/Machine/Scalar.lean ====
section
/-! DEFINITION. The scalar, flag and kind commands (41_scalar_flag_kind.md): FLAGS_NEW, FLAGS_HAS, KIND_NEW,
KIND_ENCODE, SID_PARSE and SID_ENCODE. -/

namespace Sys2Proof.Machine

/-- FLAGS_NEW (R148). -/
def execFlagsNew (b : Byte) (s : State) : Host.Outcome State Fault Refusal :=
  .next (s.readCycle {} ((flagsNew b).map .flags))

/-- FLAGS_HAS (R149). -/
def execFlagsHas (f : Byte) (sel : BitVec 2) (s : State) : Host.Outcome State Fault Refusal :=
  .next (s.readCycle { legal := flagsLegal f } (.ok (.bool (has f (selectedBit sel)))))

/-- KIND_NEW (R151). -/
def execKindNew (b : Byte) (s : State) : Host.Outcome State Fault Refusal :=
  .next (s.readCycle {} (.ok (.kind (kindNew b))))

/-- KIND_ENCODE (R152). -/
def execKindEncode (k : KindTag) (s : State) : Host.Outcome State Fault Refusal :=
  .next (s.readCycle { legal := kindLegal k } (.ok (.byte (kindEncode (kindOfTag k)))))

/-- The rule of SID_PARSE (R146). -/
def sidParse (ib : Buffer) (v : View) : Result Res :=
  if v.len < 4 then .raise .short else .ok (.sid (sidDecode ib v.off))

/-- SID_PARSE (R146). -/
def execSidParse (v : View) (s : State) : Host.Outcome State Fault Refusal :=
  .next (s.readCycle { views := [v] } (sidParse s.ib v))

/-- SID_ENCODE (R147). -/
def execSidEncode (sid : BitVec 32) (obo : Nat) (s : State) : Host.Outcome State Fault Refusal :=
  .next (s.encodeCycle {} obo 4 (sidBytes sid))

end Sys2Proof.Machine
end

