-- ==== Sys2Proof/Machine/Dispatch.lean ====
section
/-! DEFINITION. The dispatcher: one meaning per instruction. -/

namespace Sys2Proof.Machine

def exec (i : Instr) (s : State) : Host.Outcome State Fault Refusal :=
  match i with
  | .flagsNew b => Sys2Proof.Machine.execFlagsNew b s
  | .flagsHas f sel => Sys2Proof.Machine.execFlagsHas f sel s
  | .kindNew b => Sys2Proof.Machine.execKindNew b s
  | .kindEncode k => Sys2Proof.Machine.execKindEncode k s
  | .sidParse v => Sys2Proof.Machine.execSidParse v s
  | .sidEncode sid obo => Sys2Proof.Machine.execSidEncode sid obo s
  | .hdrParse v => Sys2Proof.Machine.execHdrParse v s
  | .hdrEncode h obo => Sys2Proof.Machine.execHdrEncode h obo s
  | .padStrip v => Sys2Proof.Machine.execPadStrip v s
  | .prioParse present v => Sys2Proof.Machine.execPrioParse present v s
  | .prioEncode pr obo => Sys2Proof.Machine.execPrioEncode pr obo s
  | .settingsParse v => Sys2Proof.Machine.execSettingsParse v s
  | .settingsEncode q obo => Sys2Proof.Machine.execSettingsEncode q obo s
  | .settingLookup id => Sys2Proof.Machine.execSettingLookup id s
  | .payloadParse h v => Sys2Proof.Machine.execPayloadParse h v s
  | .payloadEncode pl obo => Sys2Proof.Machine.execPayloadEncode pl obo s
  | .payloadLen pl => Sys2Proof.Machine.execPayloadLen pl s
  | .frameParse h v => Sys2Proof.Machine.execFrameParse h v s
  | .frameEncode fr obo => Sys2Proof.Machine.execFrameEncode fr obo s
  | .frameLen fr => Sys2Proof.Machine.execFrameLen fr s
  -- The frame kinds of the wire format (R93).
  | .kindData w c => Sys2Proof.Machine.execKindData w c s
  | .kindHeaders w c => Sys2Proof.Machine.execKindHeaders w c s
  | .kindPriority w c => Sys2Proof.Machine.execKindPriority w c s
  | .kindReset w c => Sys2Proof.Machine.execKindReset w c s
  | .kindSettings w c => Sys2Proof.Machine.execKindSettings w c s
  | .kindPushPromise w c => Sys2Proof.Machine.execKindPushPromise w c s
  | .kindPing w c => Sys2Proof.Machine.execKindPing w c s
  | .kindGoAway w c => Sys2Proof.Machine.execKindGoAway w c s
  | .kindWindowUpdate w c => Sys2Proof.Machine.execKindWindowUpdate w c s
  | .kindContinuation w c => Sys2Proof.Machine.execKindContinuation w c s
  | .kindUnregistered w c => Sys2Proof.Machine.execKindUnregistered w c s

end Sys2Proof.Machine
end

