-- ==== Sys2Proof/Machine/Port.lean ====
section
/-! DEFINITION. What the port does with the caller's next input: it decodes a command record (10_state.md R47), or the
header of the frame at a cursor (30_encoding.md R123), or it is RESET (70_reset_and_hazards.md R340), or the caller
writes its own buffers between commands (R43, R44, 20_memory.md R75). -/

namespace Sys2Proof.Machine

/-- What an input comes to: an instruction to execute, or a state in which the step has ended without one. -/
inductive Issue where
  | run (i : Instr)
  | done (s : State)
  deriving DecidableEq, Repr

/-- The outcome of an input that the decoder rejects: BAD_OPCODE for a record (R50), the error of HDR_PARSE for a
header (R170). A stuck block does nothing (R314). -/
def State.reject (s : State) (r : Reject) : State :=
  match r with
  | .badOpcode _ => s.badOpcode
  | .badHeader e => if s.faulted then s else s.raiseError e

/-- Decode what was fetched, and issue it. -/
def State.issueFetched (s : State) (f : Fetched) : Issue :=
  match decode s.cfg.addrW f with
  | .ok i => .run i
  | .error r => .done (s.reject r)

/-- The first nine header bytes of a view, or fewer where the view is shorter (R67). -/
def headerBytesAt (ib : Buffer) (v : View) : List Byte :=
  readBytes ib v.off (min v.len Config.hdrLen)

/-- The caller decodes the frame at cursor `c` (R123): the header view `<c, IBLEN - c>` is checked as HDR_PARSE checks
it (R50), and its bytes are decoded. -/
def State.issueFrame (s : State) (c : Nat) : Issue :=
  let v := headerViewAt s.cfg.iblen c
  if s.faulted then .done s
  else if !viewInside s.cfg.iblen v then .done (s.takeFault .ibBounds)
  else s.issueFetched (.frame c (headerBytesAt s.ib v))

/-- The caller writes bytes of IB at `a`; bytes at or past IBLEN are not bytes of IB (R60; log entry 5). -/
def State.callerWritesIb (s : State) (a : Nat) (bytes : List Byte) : State :=
  { s with mem := s.mem.writeBytes (s.cfg.ibBase + a) (bytes.take (s.cfg.iblen - a)) }

/-- The caller writes bytes of OB at `a`; bytes at or past OBCAP are not bytes of OB (R61; log entry 5). -/
def State.callerWritesOb (s : State) (a : Nat) (bytes : List Byte) : State :=
  { s with mem := s.mem.writeBytes (s.cfg.obBase + a) (bytes.take (s.cfg.obcap - a)) }

/-- Take one input of the port. -/
def State.issue (s : State) : PortInput → Issue
  | .cmd bits => s.issueFetched (.record bits)
  | .frame c => s.issueFrame c
  | .reset => .done s.portReset
  | .ibWrite a bytes => .done (s.callerWritesIb a bytes)
  | .obWrite a bytes => .done (s.callerWritesOb a bytes)

/-- The state in which the next step fetches the instruction of an opcode-table word: its command record is the next
input, or, where the byte is no assigned opcode, a header with that kind byte stands at `IB[0]` and FRAME_DECODE 0 is the
next input (log entry 6). -/
def State.placeTableWord (s : State) (bits : Nat) : State :=
  match decode s.cfg.addrW (.record bits) with
  | .ok _ => { s with port := .cmd bits :: s.port }
  | .error _ =>
    { s with
      cfg := { s.cfg with iblen := max s.cfg.iblen Config.hdrLen }
      mem := s.mem.writeBytes s.cfg.ibBase (headerOfKindByte (BitVec.ofNat 8 bits))
      port := .frame 0 :: s.port }

end Sys2Proof.Machine
end

