-- ==== Sys2Proof/Machine/Step.lean ====
section
/-! DEFINITION. One step of the machine (00_scope.md R5, 10_state.md R50): the port takes the caller's next input, and a
command executes whole. With no input the block waits (70_reset_and_hazards.md R340, 60_exceptions.md R325). -/

namespace Sys2Proof.Machine

def step (s : State) : Host.Outcome State Fault Refusal :=
  match s.port with
  | [] => .next s
  | input :: rest =>
    let t : State := { s with port := rest }
    match t.issue input with
    | .done s' => .next s'
    | .run i => exec i t

/-- `s` with the instruction of an opcode-table word placed where `step` takes its next input. -/
def State.withFetchWord (s : State) (nbits w : Nat) : State :=
  s.placeTableWord (w % 2 ^ nbits)

end Sys2Proof.Machine
end

