-- ==== Sys2Proof/Safety.lean ====
section
/-! DEFINITION. What counts as a safe run, in the terms the statements use: the legal values of STATUS and RES, the
invariant of a state, the operands the command cycle checks (10_state.md R50), the valid frames of 48_frame.md R273,
and equality of payloads by content (00_scope.md R9, 10_state.md R39). -/

namespace Sys2Proof.Machine

/-! ### Legal register values -/

/-- STATUS as R45 allows it: reserved bits 0; ERR 0 to 7 and never BadKind; ARG only with BadFlag, which names an invalid
flag byte, or TooMuchPadding; FCODE 1 to 5 exactly when FAULT is 1, and then no error. -/
structure StatusLegal (w : BitVec 32) : Prop where
  reserved : w &&& 0xFFF000F0#32 = 0#32
  errRange : (statusErr w).toNat ≤ 7
  noBadKind : statusErr w ≠ 3#4
  argOnly : statusArg w ≠ 0#8 → statusErr w = 2#4 ∨ statusErr w = 4#4
  badFlagArg : statusErr w = 2#4 → flagsLegal (statusArg w) = false
  faultCoded : statusFault w = true → 1 ≤ (statusFcode w).toNat ∧ (statusFcode w).toNat ≤ 5 ∧ statusErr w = 0#4
  noFault : statusFault w = false → statusFcode w = 0#3

/-- A stream identifier that a parse produces: bit 31 is 0 (R32). -/
abbrev sidLegal (x : BitVec 32) : Prop := x.getLsbD 31 = false

/-- A Priority that a parse produces (R34, R144). -/
abbrev prioLegal (p : Priority) : Prop := sidLegal p.dependency

/-- A payload that a parse produces: views inside IB, ids masked, whole setting records held as a view, the WindowUpdate
increment masked when `P_WU_MASK` is true (R36, R38, R39, R220). -/
def PayloadParsed (p : Params) : Payload → Prop
  | .data d => viewInside p.iblen d
  | .headers opt b => (∀ q, opt = some q → prioLegal q) ∧ viewInside p.iblen b
  | .priority q => prioLegal q
  | .reset _ => True
  | .settings (.view v) => viewInside p.iblen v ∧ v.len % 6 = 0
  | .settings (.list _) => False
  | .pushPromise id b => sidLegal id ∧ viewInside p.iblen b
  | .ping _ => True
  | .goAway last _ d => sidLegal last ∧ viewInside p.iblen d
  | .windowUpdate x => p.wuMask = true → sidLegal x
  | .continuation b => viewInside p.iblen b
  | .unregistered b => viewInside p.iblen b
  | .illegal _ => False

/-- RES as R46 allows it: each tag holds a legal value of its type. -/
def ResLegal (p : Params) : Res → Prop
  | .none => True
  | .flags f => flagsLegal f
  | .bool _ => True
  | .kind _ => True
  | .byte _ => True
  | .sid x => sidLegal x
  | .header h => headerLegal h ∧ h.length.toNat < 2 ^ 24 ∧ sidLegal h.streamId
  | .view v => viewInside p.iblen v
  | .prio rest opt => viewInside p.iblen rest ∧ ∀ q, opt = some q → prioLegal q
  | .settings v => viewInside p.iblen v ∧ v.len % 6 = 0
  | .name (.known id) => 1 ≤ id.toNat ∧ id.toNat ≤ 5
  | .name (.unrecognized id) => id.toNat = 0 ∨ 6 ≤ id.toNat
  | .payload pl => PayloadParsed p pl
  | .frame f => headerLegal f.header ∧ PayloadParsed p f.payload ∧ payloadTag f.payload = f.header.kind
  | .count _ => True

/-- The invariant of the block: the parameters are in range (R6), the cells are in canonical form and lie in IB or OB,
STATUS and RES are legal, and RES is NONE whenever STATUS is not 0 (R50, R354). -/
structure State.Inv (s : State) : Prop where
  params : s.cfg.wf
  cells : s.mem.wf
  inBuffers : ∀ cell ∈ s.mem, s.cfg.inBuffers cell.1
  status : StatusLegal s.status
  res : ResLegal s.cfg s.res
  noneAfterStop : s.status ≠ 0#32 → s.res = .none

/-! ### What the command cycle checks (R50) -/

/-- The View operands of an instruction, those inside a Payload, Frame or SettingSeq among them. -/
def instrViews (iblen : Nat) : Instr → List View
  | .sidParse v => [v]
  | .hdrParse v => [v]
  | .padStrip v => [v]
  | .prioParse _ v => [v]
  | .settingsParse v => [v]
  | .settingsEncode q _ => seqViews q
  | .payloadParse _ v => [v]
  | .payloadEncode pl _ => payloadViews pl
  | .payloadLen pl => payloadViews pl
  | .frameParse _ v => [v]
  | .frameEncode fr _ => payloadViews fr.payload
  | .frameLen fr => payloadViews fr.payload
  | .kindData _ c => [payloadViewAt iblen c]
  | .kindHeaders _ c => [payloadViewAt iblen c]
  | .kindPriority _ c => [payloadViewAt iblen c]
  | .kindReset _ c => [payloadViewAt iblen c]
  | .kindSettings _ c => [payloadViewAt iblen c]
  | .kindPushPromise _ c => [payloadViewAt iblen c]
  | .kindPing _ c => [payloadViewAt iblen c]
  | .kindGoAway _ c => [payloadViewAt iblen c]
  | .kindWindowUpdate _ c => [payloadViewAt iblen c]
  | .kindContinuation _ c => [payloadViewAt iblen c]
  | .kindUnregistered _ c => [payloadViewAt iblen c]
  | .flagsNew _ => []
  | .flagsHas _ _ => []
  | .kindNew _ => []
  | .kindEncode _ => []
  | .sidEncode _ _ => []
  | .hdrEncode _ _ => []
  | .prioEncode _ _ => []
  | .settingLookup _ => []

/-- The Frame operand of FRAME_ENCODE and FRAME_LEN has matching kinds; no other instruction has a Frame operand. -/
def instrKindsMatch : Instr → Bool
  | .frameEncode fr _ => frameKindsMatch fr
  | .frameLen fr => frameKindsMatch fr
  | _ => true

/-- For an encode command its `obo` and the byte count its rule writes (R68); `none` for every other instruction. -/
def instrOut : Instr → Option (Nat × Nat)
  | .sidEncode _ obo => some (obo, 4)
  | .hdrEncode _ obo => some (obo, 9)
  | .prioEncode _ obo => some (obo, 5)
  | .settingsEncode q obo => some (obo, 6 * seqCount q)
  | .payloadEncode pl obo => some (obo, encodedLen pl)
  | .frameEncode fr obo => some (obo, 9 + encodedLen fr.payload)
  | _ => none

/-- No check of R50 before OB_BOUNDS fails: the block is not stuck, the operands are legal, the views lie in IB and a
Frame operand's kinds match. -/
structure Ready (s : State) (i : Instr) : Prop where
  running : s.faulted = false
  legal : i.legal = true
  inside : ∀ v ∈ instrViews s.cfg.iblen i, v.off + v.len ≤ s.cfg.iblen
  kinds : instrKindsMatch i = true

/-- The bytes an encode command writes fit in OB. -/
abbrev fitsOb (s : State) (i : Instr) : Prop :=
  ∀ obo n, instrOut i = some (obo, n) → obo + n ≤ s.cfg.obcap

/-- OB overlaps none of the bytes that the instruction copies from IB (R351). -/
abbrev noOverlap (s : State) (i : Instr) : Prop :=
  ∀ v ∈ instrViews s.cfg.iblen i, overlapsOb s.cfg v = false

/-! ### Valid frames and equality by content -/

/-- The predicate `WF(fr)`, a valid Frame (R273). -/
structure ValidFrame (wuMask : Bool) (fr : Frame) : Prop where
  a : payloadTag fr.payload = fr.header.kind
  b : fr.header.length.toNat = encodedLen fr.payload ∧ fr.header.length.toNat ≤ 2 ^ 24 - 1
  c : sidLegal fr.header.streamId
  d : (∃ v, fr.payload = .data v) ∨ (∃ o v, fr.payload = .headers o v) ∨ (∃ i v, fr.payload = .pushPromise i v) →
    has fr.header.flags paddedBit = false
  e : ∀ o v, fr.payload = .headers o v → has fr.header.flags priorityBit = o.isSome
  f : match fr.payload with
    | .headers (some q) _ => prioLegal q
    | .priority q => prioLegal q
    | .pushPromise id _ => sidLegal id
    | .goAway last _ _ => sidLegal last
    | .windowUpdate x => wuMask = true → sidLegal x
    | _ => True
  g : (if has fr.header.flags priorityBit then 5 else 0) + (if has fr.header.flags paddedBit then 1 else 0)
    ≤ fr.header.length.toNat

/-- Two payloads are equal by content, the first read in `ibA` and the second in `ibB`: views by their bytes (R9), settings
by their records (R39), every other field by value. -/
def sameContent (ibA ibB : Buffer) : Payload → Payload → Prop
  | .data v, .data v' => viewBytes ibA v = viewBytes ibB v'
  | .headers o v, .headers o' v' => o = o' ∧ viewBytes ibA v = viewBytes ibB v'
  | .priority q, .priority q' => q = q'
  | .reset e, .reset e' => e = e'
  | .settings q, .settings q' => seqRecords ibA q = seqRecords ibB q'
  | .pushPromise i v, .pushPromise i' v' => i = i' ∧ viewBytes ibA v = viewBytes ibB v'
  | .ping x, .ping x' => x = x'
  | .goAway l e v, .goAway l' e' v' => l = l' ∧ e = e' ∧ viewBytes ibA v = viewBytes ibB v'
  | .windowUpdate x, .windowUpdate x' => x = x'
  | .continuation v, .continuation v' => viewBytes ibA v = viewBytes ibB v'
  | .unregistered v, .unregistered v' => viewBytes ibA v = viewBytes ibB v'
  | _, _ => False

/-! ### The terms of the statements -/

/-- The 16 bits `{IB[a], IB[a+1]}` (R63, R98). -/
def be16 (s : State) (a : Nat) : BitVec 16 := s.ib a ++ s.ib (a + 1)

/-- The 24 bits `{IB[a], IB[a+1], IB[a+2]}` (R91, R140). -/
def be24 (s : State) (a : Nat) : BitVec 24 := s.ib a ++ s.ib (a + 1) ++ s.ib (a + 2)

/-- The 32 bits `{IB[a], …, IB[a+3]}` (R63). -/
def be32 (s : State) (a : Nat) : BitVec 32 := s.ib a ++ s.ib (a + 1) ++ s.ib (a + 2) ++ s.ib (a + 3)

/-- The 31 bits `{IB[a][6:0], IB[a+1], IB[a+2], IB[a+3]}`, zero-extended to 32: a stream identifier (R91, R97, R144). -/
def be31 (s : State) (a : Nat) : BitVec 32 :=
  ((s.ib a).extractLsb' 0 7 ++ s.ib (a + 1) ++ s.ib (a + 2) ++ s.ib (a + 3)).setWidth 32

/-- The 64 bits `{IB[a], …, IB[a+7]}` (R106). -/
def be64 (s : State) (a : Nat) : BitVec 64 := be32 s a ++ be32 s (a + 4)

/-- The priority block at `a`: E is bit 7 of the first byte, then 31 bits of dependency, then the weight (R97). -/
def prioField (s : State) (a : Nat) : Priority :=
  { exclusive := (s.ib a).getLsbD 7, dependency := be31 s a, weight := s.ib (a + 4) }

/-- The four big-endian bytes of a 32-bit value. -/
def bytes32 (x : BitVec 32) : List Byte :=
  [x.extractLsb' 24 8, x.extractLsb' 16 8, x.extractLsb' 8 8, x.extractLsb' 0 8]

/-- The four big-endian bytes of a stream identifier: the top bit is 0 (R145). -/
def bytes31 (x : BitVec 32) : List Byte :=
  [x.extractLsb' 24 8 &&& 0x7F#8, x.extractLsb' 16 8, x.extractLsb' 8 8, x.extractLsb' 0 8]

/-- The five bytes of a priority block (R97, R191): the exclusive bit stands in bit 7 of the first byte. -/
def bytesPrio (q : Priority) : List Byte :=
  [(q.dependency.extractLsb' 24 8 &&& 0x7F#8) ||| (if q.exclusive then 0x80#8 else 0#8),
    q.dependency.extractLsb' 16 8, q.dependency.extractLsb' 8 8, q.dependency.extractLsb' 0 8, q.weight]

/-- The six bytes of a setting record (R98). -/
def bytesSetting (r : Setting) : List Byte :=
  [r.identifier.extractLsb' 8 8, r.identifier.extractLsb' 0 8] ++ bytes32 r.value

/-- The kind byte that a tag is written as (R31, R152): the tag itself for 0 to 9, 255 for Unregistered. -/
def kindByteOfTag (k : KindTag) : Byte := if k = 10#4 then 255#8 else k.setWidth 8

/-- The nine bytes of a frame header (R90, R171). -/
def bytesHeader (h : FrameHeader) : List Byte :=
  [h.length.extractLsb' 16 8, h.length.extractLsb' 8 8, h.length.extractLsb' 0 8, kindByteOfTag h.kind, h.flags] ++
    bytes31 h.streamId

/-- `i` completes with result `r`: STATUS is 0, RES is `r`, and nothing else changes. -/
abbrev Gives (s : State) (i : Instr) (r : Res) : Prop :=
  exec i s = .next { s with status := 0#32, res := r }

/-- `i` is turned away: STATUS is `w`, RES is NONE, and nothing else changes. -/
abbrev Stops (s : State) (i : Instr) (w : BitVec 32) : Prop :=
  exec i s = .next { s with status := w, res := .none }

/-- What a successful encode command leaves: STATUS 0, RES COUNT(n), the `n` bytes at `OB[obo ..]`, and nothing else
changed. The bytes stored to are the cells from `obBase + obo` up, where the meaning stores them. -/
structure Wrote (s t : State) (obo n : Nat) (bytes : List Byte) : Prop where
  status : t.status = 0#32
  res : t.res = .count n
  bytes : readBytes t.ob obo n = bytes
  others : ∀ x, ¬(s.cfg.obBase + obo ≤ x ∧ x < s.cfg.obBase + obo + n) → t.mem.read x = s.mem.read x
  cfg : t.cfg = s.cfg
  port : t.port = s.port
  fresh : t.fresh = s.fresh

/-- `i` completes and leaves `bytes` at `OB[obo ..]`. -/
abbrev Encodes (s : State) (i : Instr) (obo n : Nat) (bytes : List Byte) : Prop :=
  ∃ t, exec i s = .next t ∧ Wrote s t obo n bytes

/-- The condition under which an encode command runs to completion and its bytes are fixed by the rules. -/
structure CanEncode (s : State) (i : Instr) : Prop where
  ready : Ready s i
  room : fitsOb s i
  apart : noOverlap s i
  cells : s.mem.wf

/-- The minimum payload length of a header's flags: PADDED is bit 3, PRIORITY is bit 5 (R94, R210). -/
def minLength (flags : Byte) : Nat :=
  (if flags.getLsbD 5 then 5 else 0) + (if flags.getLsbD 3 then 1 else 0)

/-- The prologue passes (R210): the view holds `header.length` bytes, and that is at least the minimum. -/
abbrev ReachesArm (h : FrameHeader) (v : View) : Prop :=
  h.length.toNat ≤ v.len ∧ minLength h.flags ≤ h.length.toNat

/-- The pad length byte, when PADDED is set, is below the payload length (R180). -/
abbrev PadFits (s : State) (h : FrameHeader) (v : View) : Prop :=
  h.flags.getLsbD 3 = true → (s.ib v.off).toNat < h.length.toNat

/-- The content of the payload region: bytes `1` to `L - p - 1` of it when PADDED is set, else all of it (R96). -/
def content (s : State) (h : FrameHeader) (v : View) : View :=
  if h.flags.getLsbD 3 then { off := v.off + 1, len := h.length.toNat - (s.ib v.off).toNat - 1 }
  else { off := v.off, len := h.length.toNat }

/-- STATUS after TooMuchPadding(p) (R45, R300). -/
def tooMuchPaddingWord (p : Byte) : BitVec 32 := (p.setWidth 32 <<< 8) ||| 4#32

/-- PAYLOAD_PARSE and FRAME_PARSE complete with the payload `pl`. -/
structure ParsesTo (s : State) (h : FrameHeader) (v : View) (pl : Payload) : Prop where
  payload : Gives s (.payloadParse h v) (.payload pl)
  frame : Gives s (.frameParse h v) (.frame { header := h, payload := pl })

/-- PAYLOAD_PARSE and FRAME_PARSE raise an error and leave STATUS `word`. -/
structure ParseRaises (s : State) (h : FrameHeader) (v : View) (word : BitVec 32) : Prop where
  payload : Stops s (.payloadParse h v) word
  frame : Stops s (.frameParse h v) word

/-- `i` completes with the frame of header `h` and payload `pl`. -/
abbrev GivesFrame (s : State) (i : Instr) (h : FrameHeader) (pl : Payload) : Prop :=
  Gives s i (.frame { header := h, payload := pl })

/-- A payload parse of kind `k` that gets past the prologue: the block runs, the operands are legal, the view is in IB. -/
structure ArmRuns (k : Kind) (s : State) (h : FrameHeader) (v : View) : Prop where
  ready : Ready s (.payloadParse h v)
  kind : h.kind = kindTag k
  reaches : ReachesArm h v

/-- The caller has copied `n` bytes of OB at `obo`, as they stand in `t`, to IB at `a` in `u`. -/
abbrev Copied (t : State) (obo : Nat) (u : State) (a n : Nat) : Prop :=
  ∀ j, j < n → u.ib (a + j) = t.ob (obo + j)

end Sys2Proof.Machine
end

