-- ==== Sys2Proof/Certificates/Slice0/Obligations.lean ====
section
/-! DEFINITION. The statements for the provers, from the numbered rules of spec/. Each is `def Obligations.<Name> : Prop`.
A statement about a next state gives that state whole, or names every field: what it does not name is unchanged. -/

open Sys2Proof Sys2Proof.Machine

/-! ### The step, the decoder and the encoder -/

/-- R50: one step executes one command. When the next input is a command record that decodes to `i`, the step is `exec i`
at the state with that input consumed. The list of inputs is the model's choice (log entry 5). -/
def Obligations.StepRunsDecodedRecord : Prop :=
  ∀ (s : State) (bits : Nat) (rest : List PortInput) (i : Instr),
    s.port = .cmd bits :: rest → decode s.cfg.addrW (.record bits) = .ok i → step s = exec i { s with port := rest }

/-- When the next input is the frame at cursor `c`, the block is not stuck and its nine header bytes lie in IB and decode
to `i`, the step is `exec i` at the state with that input consumed (the model's choice: log entries 5 and 6). -/
def Obligations.StepRunsDecodedFrame : Prop :=
  ∀ (s : State) (c : Nat) (rest : List PortInput) (i : Instr),
    s.port = .frame c :: rest → s.faulted = false → c + 9 ≤ s.cfg.iblen →
    decode s.cfg.addrW (.frame c (readBytes s.ib c 9)) = .ok i → step s = exec i { s with port := rest }

/-- R123: FRAME_DECODE is HDR_PARSE and then, if STATUS is 0, FRAME_PARSE of the header in RES; otherwise FRAME_PARSE is
not issued. The model takes the macro in one step (the model's choice, log entry 6), and it comes to the same. R123 gives no
length for a cursor past IBLEN: there the view is `<c, 0>` and HDR_PARSE faults IB_BOUNDS (the model's choice, log entry
12). -/
def Obligations.FrameDecodeIsHdrParseThenFrameParse : Prop :=
  ∀ (s : State) (c : Nat) (rest : List PortInput), s.port = .frame c :: rest →
    ∃ s1, exec (.hdrParse { off := c, len := s.cfg.iblen - c }) { s with port := rest } = .next s1 ∧
      (s1.status = 0#32 →
        ∃ h, s1.res = .header h ∧
          step s = exec (.frameParse h { off := c + 9, len := s.cfg.iblen - c - 9 }) s1) ∧
      (s1.status ≠ 0#32 → step s = .next s1)

/-- Decoding what the encoder writes gives the instruction back, for every instruction whose operands fit their fields,
legal or not: no bit of an encoding is dropped (R120, R121; R90, R91). How a record is packed is the model's choice (log
entry 4), and so is that a Payload tag 11 to 15 has no fields (log entry 8). -/
def Obligations.DecodeOfEncodeIsIdentity : Prop :=
  ∀ (aw : Nat) (i : Instr), i.fits aw = true → decode aw (encode aw i) = .ok i

/-- Words written out from R120 and R121 (records with `ADDR_W` = 32, packed as log entry 4 says) and R90 (header bytes),
and the instructions they stand for. -/
def Obligations.SampleWordsDecode : Prop :=
  decode 32 (.record 0x2501) = .ok (.flagsNew 0x25#8) ∧
  decode 32 (.record 0x22802) = .ok (.flagsHas 0x28#8 2#2) ∧
  decode 32 (.record 0x00000009_0000000F_07) = .ok (.hdrParse { off := 15, len := 9 }) ∧
  decode 32 (.record 0x00000004_80000005_06) = .ok (.sidEncode 0x80000005#32 4) ∧
  decode 32 (.record 0x8311) = .ok (.payloadEncode (.reset 8#32) 0) ∧
  decode 32 (.frame 0 [0x00#8, 0x00#8, 0x06#8, 0x04#8, 0x01#8, 0x80#8, 0x00#8, 0x00#8, 0x07#8]) =
    .ok (.kindSettings { length := 6#24, flags := 0x01#8, streamId := 7#31 } 0)

/-- The opcodes 0x00, 0x0F and 0x16 to 0xFF are unassigned, and a command with one faults BAD_OPCODE (R120, R50): FAULT is
1, FCODE is 4, RES is NONE. That the opcode is the low byte of the record, bits 7 to 0, is the model's choice (log entry 4):
R121 fixes no packing. -/
def Obligations.UnassignedOpcodeFaults : Prop :=
  ∀ (s : State) (bits : Nat) (rest : List PortInput), s.port = .cmd bits :: rest → s.faulted = false →
    (bits % 256 = 0x00 ∨ bits % 256 = 0x0F ∨ 0x16 ≤ bits % 256) →
    step s = .next { s with port := rest, status := 0x00090000#32, res := .none }

/-- With no input the block waits and holds STATUS and RES (R325, R340). The queue of inputs is the model's (log entry 5). -/
def Obligations.IdleStepChangesNothing : Prop :=
  ∀ s : State, s.port = [] → step s = .next s

/-- RESET sets STATUS to 0 and RES to NONE, whatever came before, and changes neither buffer nor parameter; power-on is a
reset (R340). The inputs after RESET stay in the port: they are what the caller does later and not a command pending in the
block, of which R340 leaves none (the model's choice, log entry 5). -/
def Obligations.ResetClearsStatusAndResult : Prop :=
  (∀ (s : State) (rest : List PortInput), s.port = .reset :: rest →
    step s = .next { s with port := rest, status := 0#32, res := .none }) ∧
  (∀ p : Params, (State.launched p).status = 0#32 ∧ (State.launched p).res = .none ∧ (State.launched p).cfg = p) ∧
  State.reset.status = 0#32 ∧ State.reset.res = .none

/-- What the caller writes into IB or OB between two commands is there for the next one (R43, R44, R75), and nothing else
changes. That such a write is an input of the model is log entry 5. -/
def Obligations.CallerWritesReachTheBuffers : Prop :=
  ∀ (s : State) (a : Nat) (bytes : List Byte) (rest : List PortInput), s.mem.wf →
    (s.port = .ibWrite a bytes :: rest → a + bytes.length ≤ s.cfg.iblen →
      ∃ m, step s = .next { s with port := rest, mem := m } ∧
        readBytes (fun j => m.read (s.cfg.ibBase + j)) a bytes.length = bytes ∧
        ∀ x, ¬(s.cfg.ibBase + a ≤ x ∧ x < s.cfg.ibBase + a + bytes.length) → m.read x = s.mem.read x) ∧
    (s.port = .obWrite a bytes :: rest → a + bytes.length ≤ s.cfg.obcap →
      ∃ m, step s = .next { s with port := rest, mem := m } ∧
        readBytes (fun j => m.read (s.cfg.obBase + j)) a bytes.length = bytes ∧
        ∀ x, ¬(s.cfg.obBase + a ≤ x ∧ x < s.cfg.obBase + a + bytes.length) → m.read x = s.mem.read x)

/-! ### Invariants -/

/-- The invariant holds after reset, for every choice of the open parameters that R6 allows; those of `State.reset` are
the model's choice (log entry 1). -/
def Obligations.ResetMeetsTheInvariant : Prop :=
  State.reset.Inv ∧ ∀ p : Params, p.wf → (State.launched p).Inv

/-- Every step keeps the invariant, from every state that meets it: the cells stay canonical and inside IB and OB, STATUS
keeps its reserved bits 0 and never says BadKind (R45, R3), RES holds a legal value of its tag (R46; ids masked, R32;
lengths below 2^24, R33; views in IB; a frame's payload of its header's kind, R37), and RES is NONE after an error or a
fault (R354). That a caller's bytes past a buffer are dropped, which keeps the cells inside, is the model's choice (log entry
5). -/
def Obligations.StepKeepsTheInvariant : Prop :=
  ∀ s s' : State, s.Inv → step s = .next s' → s'.Inv

/-! ### Faults, errors and frames, over all instructions -/

/-- Faults come before errors, in a fixed order: BAD_OPERAND, IB_BOUNDS, KIND_MISMATCH, OB_BOUNDS (R310, R311; BAD_OPCODE,
which comes first, is `UnassignedOpcodeFaults`). Each leaves STATUS with FAULT and its FCODE, RES NONE, and nothing else
changed. For a frame kind (an instruction by log entry 6) the view is the macro's, past IBLEN as log entry 12 says. -/
def Obligations.FaultsComeFirstInOrder : Prop :=
  ∀ (i : Instr) (s : State), s.faulted = false →
    (i.legal = false → Stops s i 0x000B0000#32) ∧
    (i.legal = true → (∃ v ∈ instrViews s.cfg.iblen i, s.cfg.iblen < v.off + v.len) → Stops s i 0x00050000#32) ∧
    (i.legal = true → (∀ v ∈ instrViews s.cfg.iblen i, v.off + v.len ≤ s.cfg.iblen) → instrKindsMatch i = false →
      Stops s i 0x00070000#32) ∧
    (Ready s i → (∃ obo n, instrOut i = some (obo, n) ∧ s.cfg.obcap < obo + n) → Stops s i 0x00030000#32)

/-- No fault occurs for a caller that passes legal operands, views of its buffer and a large enough OB (R310). -/
def Obligations.NoFaultForLegalCommands : Prop :=
  ∀ (i : Instr) (s : State), Ready s i → fitsOb s i → ∃ t, exec i s = .next t ∧ t.faulted = false

/-- After a fault no command is executed and nothing but RESET clears STATUS.FAULT (R314, R354): a command or a frame
changes no state, and no input but RESET changes STATUS or RES. That such a command is taken from the port and lost, not
held back until RESET, is the model's inference (log entry 9, DEDUCED); the port and a frame as one input are log entries 5
and 6. -/
def Obligations.FaultIsStickyUntilReset : Prop :=
  ∀ s : State, s.faulted = true →
    (∀ i : Instr, exec i s = .next s) ∧
    (∀ input rest, s.port = input :: rest → input ≠ .reset →
      ∃ t, step s = .next t ∧ t.status = s.status ∧ t.res = s.res) ∧
    (∀ bits rest, s.port = .cmd bits :: rest → step s = .next { s with port := rest }) ∧
    (∀ c rest, s.port = .frame c :: rest → step s = .next { s with port := rest })

/-- A command that ends with STATUS other than 0, by an error or by a fault, has no partial effect: the buffers are as
they were and RES is NONE (R301, R313). -/
def Obligations.ErrorsAndFaultsArePrecise : Prop :=
  ∀ (i : Instr) (s t : State), s.faulted = false → exec i s = .next t → t.status ≠ 0#32 →
    t = { s with status := t.status, res := .none }

/-- FRAME of the twenty-five instructions that store nothing (every one but SID_ENCODE, HDR_ENCODE, PRIO_ENCODE,
SETTINGS_ENCODE, PAYLOAD_ENCODE, FRAME_ENCODE): only STATUS and RES may change; every byte of IB and OB reads as before
(R60, R61). -/
def Obligations.ReadInstructionsStoreNothing : Prop :=
  ∀ (i : Instr) (s t : State), instrOut i = none → exec i s = .next t →
    t = { s with status := t.status, res := t.res } ∧ ∀ x, t.mem.read x = s.mem.read x

/-- FRAME of the six encode commands: every byte outside the `n` bytes from `OB[obo]` up reads as before, and the
parameters and the pending inputs are unchanged (R68). This holds where OB overlaps the bytes copied from, too. -/
def Obligations.EncodeCommandsStoreOnlyTheirRange : Prop :=
  ∀ (i : Instr) (obo n : Nat) (s t : State), instrOut i = some (obo, n) → exec i s = .next t →
    t.cfg = s.cfg ∧ t.port = s.port ∧
    ∀ x, ¬(s.cfg.obBase + obo ≤ x ∧ x < s.cfg.obBase + obo + n) → t.mem.read x = s.mem.read x

/-- An encode command that no check stops completes with STATUS 0 and RES COUNT(n), whether or not OB overlaps the bytes it
copies from; in that case only the bytes written are open (R68, R351). The free values those bytes take are log entry
3. -/
def Obligations.EncodeCommandsComplete : Prop :=
  ∀ (i : Instr) (obo n : Nat) (s : State), instrOut i = some (obo, n) → Ready s i → fitsOb s i →
    ∃ t, exec i s = .next t ∧ t.status = 0#32 ∧ t.res = .count n

/-- A parse reads no byte of IB outside its footprint: at most 4 bytes for SID_PARSE, 9 for HDR_PARSE, 5 for PRIO_PARSE,
`header.length` for PAYLOAD_PARSE and FRAME_PARSE, one for PAD_STRIP (R67, R182). Two memories that agree on those bytes
give the same STATUS and RES. -/
def Obligations.ParsesReadOnlyTheirFootprint : Prop :=
  ∀ (i : Instr) (v : View) (n : Nat) (s t : State) (m : Memory),
    (i = .sidParse v ∧ n = 4) ∨ (i = .hdrParse v ∧ n = 9) ∨ (∃ present, i = .prioParse present v ∧ n = 5) ∨
      (i = .padStrip v ∧ n = 1) ∨ (i = .settingsParse v ∧ n = 0) ∨
      (∃ h, (i = .payloadParse h v ∨ i = .frameParse h v) ∧ n = h.length.toNat) →
    (∀ j, j < n → j < v.len → m.read (s.cfg.ibBase + v.off + j) = s.mem.read (s.cfg.ibBase + v.off + j)) →
    exec i s = .next t → exec i { s with mem := m } = .next { t with mem := m }

/-- Executing a parse, flag, kind, lookup or length command twice gives what executing it once gives (R66). -/
def Obligations.ReadInstructionsAreIdempotent : Prop :=
  ∀ (i : Instr) (s t : State), instrOut i = none → exec i s = .next t → exec i t = .next t

/-- Executing an encode command twice leaves what executing it once leaves: the same bytes at the same offsets, STATUS and
RES (R66). -/
def Obligations.EncodeCommandsAreIdempotent : Prop :=
  ∀ (i : Instr) (s t u : State), instrOut i ≠ none → CanEncode s i → exec i s = .next t → exec i t = .next u →
    u.status = t.status ∧ u.res = t.res ∧ ∀ x, u.mem.read x = t.mem.read x

/-- What an instruction does depends on no earlier outcome but a fault: STATUS and RES, as earlier commands or a RESET left
them, change nothing in it (R341, R48). -/
def Obligations.ResultsDoNotDependOnHistory : Prop :=
  ∀ (i : Instr) (s : State) (w : BitVec 32) (r : Res), s.faulted = false → statusFault w = false →
    exec i { s with status := w, res := r } = exec i s

/-! ### Scalar, flag and kind codecs -/

/-- R148: FLAGS_NEW succeeds exactly when no bit of 0xD2 is set; otherwise it raises BadFlag(b). -/
def Obligations.FlagsNewAcceptsValidBytes : Prop :=
  ∀ (b : Byte) (s : State), s.faulted = false →
    (b &&& 0xD2#8 = 0#8 → Gives s (.flagsNew b) (.flags b)) ∧
    (b &&& 0xD2#8 ≠ 0#8 → Stops s (.flagsNew b) ((b.setWidth 32 <<< 8) ||| 2#32))

/-- R149, with the selector of R121: 0 tests bit 0, 1 bit 2, 2 bit 3 and 3 bit 5; an illegal Flags value is
BAD_OPERAND. -/
def Obligations.FlagsHasTestsTheSelectedBit : Prop :=
  ∀ (f : Byte) (s : State), s.faulted = false →
    (f &&& 0xD2#8 = 0#8 →
      Gives s (.flagsHas f 0#2) (.bool (f.getLsbD 0)) ∧ Gives s (.flagsHas f 1#2) (.bool (f.getLsbD 2)) ∧
      Gives s (.flagsHas f 2#2) (.bool (f.getLsbD 3)) ∧ Gives s (.flagsHas f 3#2) (.bool (f.getLsbD 5))) ∧
    (f &&& 0xD2#8 ≠ 0#8 → ∀ sel, Stops s (.flagsHas f sel) 0x000B0000#32)

/-- R151: KIND_NEW is total: bytes 0 to 9 give the Kind of that tag, every other byte gives Unregistered. -/
def Obligations.KindNewIsTotal : Prop :=
  ∀ (b : Byte) (s : State), s.faulted = false →
    ∃ k, Gives s (.kindNew b) (.kind k) ∧
      (b.toNat ≤ 9 → (kindTag k).toNat = b.toNat) ∧ (10 ≤ b.toNat → k = .unregistered)

/-- R152: KIND_ENCODE gives the wire code of a named Kind and 255 for Unregistered; tags 11 to 15 are BAD_OPERAND; and
`kind_new(kind_encode(k)) = k`. -/
def Obligations.KindEncodeGivesTheWireCode : Prop :=
  ∀ (k : KindTag) (s : State), s.faulted = false →
    (k.toNat ≤ 9 → Gives s (.kindEncode k) (.byte (k.setWidth 8))) ∧
    (k = 10#4 → Gives s (.kindEncode k) (.byte 255#8)) ∧
    (11 ≤ k.toNat → Stops s (.kindEncode k) 0x000B0000#32) ∧
    (∀ (b : Byte) (q : Kind), kindTag q = k → Gives s (.kindEncode k) (.byte b) → Gives s (.kindNew b) (.kind q))

/-- R146: SID_PARSE reads four big-endian bytes with the top bit cleared; fewer than four bytes is Short. -/
def Obligations.SidParseMasksTheTopBit : Prop :=
  ∀ (v : View) (s : State), Ready s (.sidParse v) →
    (4 ≤ v.len → Gives s (.sidParse v) (.sid (be31 s v.off))) ∧ (v.len < 4 → Stops s (.sidParse v) 1#32)

/-- R147: SID_ENCODE writes four big-endian bytes with the top bit 0, or faults OB_BOUNDS. -/
def Obligations.SidEncodeWritesFourBytes : Prop :=
  ∀ (sid : BitVec 32) (obo : Nat) (s : State),
    (CanEncode s (.sidEncode sid obo) → Encodes s (.sidEncode sid obo) obo 4 (bytes31 sid)) ∧
    (s.faulted = false → s.cfg.obcap < obo + 4 → Stops s (.sidEncode sid obo) 0x00030000#32)

/-! ### The frame header -/

/-- R170: HDR_PARSE reads the fields of R91; fewer than nine bytes is Short, checked first; a bad flag byte is
BadFlag(b). An unregistered kind byte is no error. -/
def Obligations.HdrParseReadsTheHeader : Prop :=
  ∀ (v : View) (s : State), Ready s (.hdrParse v) →
    (9 ≤ v.len → s.ib (v.off + 4) &&& 0xD2#8 = 0#8 →
      ∃ k : KindTag,
        Gives s (.hdrParse v)
          (.header { length := (be24 s v.off).setWidth 32, kind := k, flags := s.ib (v.off + 4)
                     streamId := be31 s (v.off + 5) }) ∧
        ((s.ib (v.off + 3)).toNat ≤ 9 → k.toNat = (s.ib (v.off + 3)).toNat) ∧
        (10 ≤ (s.ib (v.off + 3)).toNat → k = 10#4)) ∧
    (v.len < 9 → Stops s (.hdrParse v) 1#32) ∧
    (9 ≤ v.len → s.ib (v.off + 4) &&& 0xD2#8 ≠ 0#8 →
      Stops s (.hdrParse v) (((s.ib (v.off + 4)).setWidth 32 <<< 8) ||| 2#32))

/-- R171: HDR_ENCODE writes the nine bytes of R90: the low 24 bits of the length, the kind byte (255 for Unregistered), the
flags, and the stream id with the reserved bit 0; or it faults. -/
def Obligations.HdrEncodeWritesNineBytes : Prop :=
  ∀ (h : FrameHeader) (obo : Nat) (s : State),
    (CanEncode s (.hdrEncode h obo) → Encodes s (.hdrEncode h obo) obo 9 (bytesHeader h)) ∧
    (Ready s (.hdrEncode h obo) → s.cfg.obcap < obo + 9 → Stops s (.hdrEncode h obo) 0x00030000#32) ∧
    (s.faulted = false → h.flags &&& 0xD2#8 ≠ 0#8 ∨ 10 < h.kind.toNat → Stops s (.hdrEncode h obo) 0x000B0000#32)

/-- R172: a header survives HDR_ENCODE, the caller's copy into IB, and HDR_PARSE exactly when its length is below 2^24 and
its stream id below 2^31; a header that HDR_PARSE produces is such a header, and can be encoded where there is room. -/
def Obligations.HeaderRoundTrip : Prop :=
  (∀ (h : FrameHeader) (obo a : Nat) (s t u : State),
    CanEncode s (.hdrEncode h obo) → exec (.hdrEncode h obo) s = .next t →
    Ready u (.hdrParse { off := a, len := 9 }) → Copied t obo u a 9 →
    (Gives u (.hdrParse { off := a, len := 9 }) (.header h) ↔
      h.length.toNat < 2 ^ 24 ∧ h.streamId.toNat < 2 ^ 31)) ∧
  (∀ (v : View) (h : FrameHeader) (s : State), Ready s (.hdrParse v) → Gives s (.hdrParse v) (.header h) →
    h.length.toNat < 2 ^ 24 ∧ h.streamId.toNat < 2 ^ 31 ∧ ∀ obo, Ready s (.hdrEncode h obo))

/-- R173: encoding a parsed header writes the nine bytes it was parsed from, but for bit 7 of `b5`, written 0, and a kind
byte from 10 to 254, written 255. -/
def Obligations.HeaderBytesRoundTrip : Prop :=
  ∀ (v : View) (h : FrameHeader) (obo : Nat) (s u : State),
    Ready s (.hdrParse v) → Gives s (.hdrParse v) (.header h) → CanEncode u (.hdrEncode h obo) →
    Encodes u (.hdrEncode h obo) obo 9
      [s.ib v.off, s.ib (v.off + 1), s.ib (v.off + 2),
        if (s.ib (v.off + 3)).toNat ≤ 9 then s.ib (v.off + 3) else 255#8,
        s.ib (v.off + 4), s.ib (v.off + 5) &&& 0x7F#8, s.ib (v.off + 6), s.ib (v.off + 7), s.ib (v.off + 8)]

/-! ### Padding, priority and settings -/

/-- R180: PAD_STRIP removes the pad length byte and the `p` bytes it declares; `p >= L` is TooMuchPadding(p), also when
`p = L`; an empty view is PayloadLengthTooShort. -/
def Obligations.PadStripRemovesThePadding : Prop :=
  ∀ (v : View) (s : State), Ready s (.padStrip v) →
    ((s.ib v.off).toNat < v.len →
      Gives s (.padStrip v) (.view { off := v.off + 1, len := v.len - (s.ib v.off).toNat - 1 })) ∧
    (0 < v.len → v.len ≤ (s.ib v.off).toNat → Stops s (.padStrip v) (tooMuchPaddingWord (s.ib v.off))) ∧
    (v.len = 0 → Stops s (.padStrip v) 5#32)

/-- R190: PRIO_PARSE reads the five-byte block when it is present, and leaves the rest from offset 5; when it is not, the
view is returned as it is; a block of fewer than five bytes is Short. -/
def Obligations.PrioParseReadsTheBlock : Prop :=
  ∀ (v : View) (s : State), Ready s (.prioParse true v) →
    Gives s (.prioParse false v) (.prio v none) ∧
    (5 ≤ v.len →
      Gives s (.prioParse true v) (.prio { off := v.off + 5, len := v.len - 5 } (some (prioField s v.off)))) ∧
    (v.len < 5 → Stops s (.prioParse true v) 1#32)

/-- R191: PRIO_ENCODE writes the dependency with its bit 31 cleared and the exclusive bit OR'd in, then the weight; or it
faults OB_BOUNDS. -/
def Obligations.PrioEncodeWritesFiveBytes : Prop :=
  ∀ (q : Priority) (obo : Nat) (s : State),
    (CanEncode s (.prioEncode q obo) → Encodes s (.prioEncode q obo) obo 5 (bytesPrio q)) ∧
    (s.faulted = false → s.cfg.obcap < obo + 5 → Stops s (.prioEncode q obo) 0x00030000#32)

/-- R192: a Priority comes back from PRIO_ENCODE, the copy and PRIO_PARSE with its dependency masked to 31 bits, so
unchanged when the dependency is below 2^31, and with an empty rest. -/
def Obligations.PriorityRoundTrip : Prop :=
  ∀ (q : Priority) (obo a : Nat) (s t u : State),
    CanEncode s (.prioEncode q obo) → exec (.prioEncode q obo) s = .next t →
    Ready u (.prioParse true { off := a, len := 5 }) → Copied t obo u a 5 →
    Gives u (.prioParse true { off := a, len := 5 })
      (.prio { off := a + 5, len := 0 } (some { q with dependency := q.dependency &&& 0x7FFFFFFF#32 })) ∧
    (q.dependency.toNat < 2 ^ 31 →
      Gives u (.prioParse true { off := a, len := 5 }) (.prio { off := a + 5, len := 0 } (some q)))

/-- R200: SETTINGS_PARSE accepts exactly the views of whole records, whose record `i` is the big-endian pair at offset
`6 i`; any other length is PartialSettingLength. -/
def Obligations.SettingsParseAcceptsWholeRecords : Prop :=
  ∀ (v : View) (s : State), Ready s (.settingsParse v) →
    (v.len % 6 = 0 → Gives s (.settingsParse v) (.settings v)) ∧
    (v.len % 6 ≠ 0 → Stops s (.settingsParse v) 6#32) ∧
    (∀ i, settingAt s.ib v i =
      { identifier := be16 s (v.off + 6 * i), value := be32 s (v.off + 6 * i + 2) })

/-- R201: SETTINGS_ENCODE writes the records of a list in order, six bytes each, and for a view the viewed bytes; it faults
OB_BOUNDS where they do not fit, and BAD_OPERAND for a view that is not whole records. -/
def Obligations.SettingsEncodeWritesTheRecords : Prop :=
  ∀ (obo : Nat) (s : State),
    (∀ rs, CanEncode s (.settingsEncode (.list rs) obo) →
      Encodes s (.settingsEncode (.list rs) obo) obo (6 * rs.length) (rs.flatMap bytesSetting)) ∧
    (∀ v, CanEncode s (.settingsEncode (.view v) obo) →
      Encodes s (.settingsEncode (.view v) obo) obo v.len (readBytes s.ib v.off v.len)) ∧
    (∀ q, Ready s (.settingsEncode q obo) → s.cfg.obcap < obo + 6 * seqCount q →
      Stops s (.settingsEncode q obo) 0x00030000#32) ∧
    (∀ v : View, s.faulted = false → v.len % 6 ≠ 0 → Stops s (.settingsEncode (.view v) obo) 0x000B0000#32)

/-- R204: the records of any SettingSeq come back, in order, from SETTINGS_ENCODE, the copy and SETTINGS_PARSE; and
re-encoding a view that SETTINGS_PARSE accepts gives the bytes of the view again. -/
def Obligations.SettingsRoundTrip : Prop :=
  (∀ (q : SettingSeq) (obo a n : Nat) (s t u : State),
    CanEncode s (.settingsEncode q obo) → exec (.settingsEncode q obo) s = .next t → n = 6 * seqCount q →
    Ready u (.settingsParse { off := a, len := n }) → Copied t obo u a n →
    Gives u (.settingsParse { off := a, len := n }) (.settings { off := a, len := n }) ∧
    seqRecords u.ib (.view { off := a, len := n }) = seqRecords s.ib q) ∧
  (∀ (v q : View) (obo : Nat) (s : State), Ready s (.settingsParse v) → Gives s (.settingsParse v) (.settings q) →
    obo + v.len ≤ s.cfg.obcap → overlapsOb s.cfg v = false → s.mem.wf →
    Encodes s (.settingsEncode (.view q) obo) obo v.len (readBytes s.ib v.off v.len))

/-- R202: identifiers 1 to 5 are Known, every other one is Unrecognized and keeps its value; never an error. -/
def Obligations.SettingLookupClassifies : Prop :=
  ∀ (id : BitVec 16) (s : State), s.faulted = false →
    (1 ≤ id.toNat → id.toNat ≤ 5 → Gives s (.settingLookup id) (.name (.known id))) ∧
    (id.toNat = 0 ∨ 6 ≤ id.toNat → Gives s (.settingLookup id) (.name (.unrecognized id)))

/-! ### Payload parse: the prologue and the eleven arms, for PAYLOAD_PARSE and FRAME_PARSE -/

/-- R210: Short when the view holds fewer than `header.length` bytes, then PayloadLengthTooShort when that is below the
minimum of the flags, for every kind; otherwise the view is cut to `header.length` bytes, so that a longer one parses as
the cut one does. -/
def Obligations.PayloadPrologueChecksLengths : Prop :=
  ∀ (h : FrameHeader) (v : View) (s : State), Ready s (.payloadParse h v) →
    (v.len < h.length.toNat → ParseRaises s h v 1#32) ∧
    (h.length.toNat ≤ v.len → h.length.toNat < minLength h.flags → ParseRaises s h v 5#32) ∧
    (ReachesArm h v →
      exec (.payloadParse h v) s = exec (.payloadParse h { off := v.off, len := h.length.toNat }) s)

/-- R212: Data is the content after padding; a pad length of `L` or more is TooMuchPadding(p). -/
def Obligations.DataArm : Prop :=
  ∀ (h : FrameHeader) (v : View) (s : State), ArmRuns .data s h v →
    (PadFits s h v → ParsesTo s h v (.data (content s h v))) ∧
    (¬PadFits s h v → ParseRaises s h v (tooMuchPaddingWord (s.ib v.off)))

/-- R213: Headers strips the padding, then reads the priority block when PRIORITY is set; what is left is the block. -/
def Obligations.HeadersArm : Prop :=
  ∀ (h : FrameHeader) (v : View) (s : State), ArmRuns .headers s h v →
    (PadFits s h v → h.flags.getLsbD 5 = false →
      ParsesTo s h v (.headers none (content s h v))) ∧
    (PadFits s h v → h.flags.getLsbD 5 = true → 5 ≤ (content s h v).len →
      ParsesTo s h v
        (.headers (some (prioField s (content s h v).off))
          { off := (content s h v).off + 5, len := (content s h v).len - 5 })) ∧
    (PadFits s h v → h.flags.getLsbD 5 = true → (content s h v).len < 5 →
      ParseRaises s h v 1#32) ∧
    (¬PadFits s h v → ParseRaises s h v (tooMuchPaddingWord (s.ib v.off)))

/-- R214: Priority reads five bytes whatever the flags and drops what follows; fewer than five is Short. -/
def Obligations.PriorityArm : Prop :=
  ∀ (h : FrameHeader) (v : View) (s : State), ArmRuns .priority s h v →
    (5 ≤ h.length.toNat → ParsesTo s h v (.priority (prioField s v.off))) ∧
    (h.length.toNat < 5 → ParseRaises s h v 1#32)

/-- R215: Reset reads a 32-bit error code, unmasked; fewer than four bytes is PayloadLengthTooShort. -/
def Obligations.ResetArm : Prop :=
  ∀ (h : FrameHeader) (v : View) (s : State), ArmRuns .reset s h v →
    (4 ≤ h.length.toNat → ParsesTo s h v (.reset (be32 s v.off))) ∧
    (h.length.toNat < 4 → ParseRaises s h v 5#32)

/-- R216: Settings is the view of the whole payload; a length that is no multiple of six is PartialSettingLength. -/
def Obligations.SettingsArm : Prop :=
  ∀ (h : FrameHeader) (v : View) (s : State), ArmRuns .settings s h v →
    (h.length.toNat % 6 = 0 →
      ParsesTo s h v (.settings (.view { off := v.off, len := h.length.toNat }))) ∧
    (h.length.toNat % 6 ≠ 0 → ParseRaises s h v 6#32)

/-- R217: PushPromise strips the padding, then reads the promised id with bit 31 cleared; fewer than four bytes left is
PayloadLengthTooShort. -/
def Obligations.PushPromiseArm : Prop :=
  ∀ (h : FrameHeader) (v : View) (s : State), ArmRuns .pushPromise s h v →
    (PadFits s h v → 4 ≤ (content s h v).len →
      ParsesTo s h v
        (.pushPromise (be31 s (content s h v).off)
          { off := (content s h v).off + 4, len := (content s h v).len - 4 })) ∧
    (PadFits s h v → (content s h v).len < 4 → ParseRaises s h v 5#32) ∧
    (¬PadFits s h v → ParseRaises s h v (tooMuchPaddingWord (s.ib v.off)))

/-- R218: Ping is eight bytes exactly; any other length is InvalidPayloadLength. -/
def Obligations.PingArm : Prop :=
  ∀ (h : FrameHeader) (v : View) (s : State), ArmRuns .ping s h v →
    (h.length.toNat = 8 → ParsesTo s h v (.ping (be64 s v.off))) ∧
    (h.length.toNat ≠ 8 → ParseRaises s h v 7#32)

/-- R219: GoAway reads the last stream id with bit 31 cleared, the error code unmasked, and leaves the rest as debug data;
fewer than eight bytes is PayloadLengthTooShort. -/
def Obligations.GoAwayArm : Prop :=
  ∀ (h : FrameHeader) (v : View) (s : State), ArmRuns .goAway s h v →
    (8 ≤ h.length.toNat →
      ParsesTo s h v
        (.goAway (be31 s v.off) (be32 s (v.off + 4)) { off := v.off + 8, len := h.length.toNat - 8 })) ∧
    (h.length.toNat < 8 → ParseRaises s h v 5#32)

/-- R220: WindowUpdate is four bytes exactly; bit 31 is kept when `P_WU_MASK` is false and cleared when it is true. -/
def Obligations.WindowUpdateArm : Prop :=
  ∀ (h : FrameHeader) (v : View) (s : State), ArmRuns .windowUpdate s h v →
    (h.length.toNat = 4 → s.cfg.wuMask = false →
      ParsesTo s h v (.windowUpdate (be32 s v.off))) ∧
    (h.length.toNat = 4 → s.cfg.wuMask = true →
      ParsesTo s h v (.windowUpdate (be31 s v.off))) ∧
    (h.length.toNat ≠ 4 → ParseRaises s h v 7#32)

/-- R221 and R222: Continuation and Unregistered keep the whole payload as a view, with no check of their own. -/
def Obligations.ContinuationAndUnregisteredArms : Prop :=
  ∀ (h : FrameHeader) (v : View) (s : State),
    (ArmRuns .continuation s h v →
      ParsesTo s h v (.continuation { off := v.off, len := h.length.toNat })) ∧
    (ArmRuns .unregistered s h v →
      ParsesTo s h v (.unregistered { off := v.off, len := h.length.toNat }))

/-- R270: FRAME_PARSE delegates to the payload dispatch: it fails on its errors, and on success RES is the frame of the
header as given and that payload. -/
def Obligations.FrameParseDelegates : Prop :=
  ∀ (h : FrameHeader) (v : View) (s t : State), s.faulted = false → exec (.payloadParse h v) s = .next t →
    (∀ pl, t.res = .payload pl → Gives s (.frameParse h v) (.frame { header := h, payload := pl })) ∧
    (t.status ≠ 0#32 → exec (.frameParse h v) s = .next t) ∧
    (t.status = 0#32 → ∃ pl, t.res = .payload pl ∧ payloadTag pl = h.kind)

/-- The instruction of a frame kind (the model's choice, log entry 6) is FRAME_PARSE of the header that its fields and its
kind stand for, with the view that the macro of R123 gives it (past IBLEN, log entry 12); and each of the eleven
completes with its kind's payload. -/
def Obligations.KindInstructionsParseTheirFrames : Prop :=
  ∀ (k : Kind) (w : WireHeader) (c : Nat) (h : FrameHeader) (v : View) (s : State),
    h = wireFrameHeader k w → v = { off := c + 9, len := s.cfg.iblen - c - 9 } →
    exec (wireInstr k w c) s = exec (.frameParse h v) s ∧
    (Ready s (.frameParse h v) → ReachesArm h v →
      (k = .data → PadFits s h v → GivesFrame s (.kindData w c) h (.data (content s h v))) ∧
      (k = .headers → PadFits s h v → h.flags.getLsbD 5 = false →
        GivesFrame s (.kindHeaders w c) h (.headers none (content s h v))) ∧
      (k = .headers → PadFits s h v → h.flags.getLsbD 5 = true → 5 ≤ (content s h v).len →
        GivesFrame s (.kindHeaders w c) h
          (.headers (some (prioField s (content s h v).off))
            { off := (content s h v).off + 5, len := (content s h v).len - 5 })) ∧
      (k = .priority → 5 ≤ h.length.toNat → GivesFrame s (.kindPriority w c) h (.priority (prioField s v.off))) ∧
      (k = .reset → 4 ≤ h.length.toNat → GivesFrame s (.kindReset w c) h (.reset (be32 s v.off))) ∧
      (k = .settings → h.length.toNat % 6 = 0 →
        GivesFrame s (.kindSettings w c) h (.settings (.view { off := v.off, len := h.length.toNat }))) ∧
      (k = .pushPromise → PadFits s h v → 4 ≤ (content s h v).len →
        GivesFrame s (.kindPushPromise w c) h
          (.pushPromise (be31 s (content s h v).off)
            { off := (content s h v).off + 4, len := (content s h v).len - 4 })) ∧
      (k = .ping → h.length.toNat = 8 → GivesFrame s (.kindPing w c) h (.ping (be64 s v.off))) ∧
      (k = .goAway → 8 ≤ h.length.toNat →
        GivesFrame s (.kindGoAway w c) h
          (.goAway (be31 s v.off) (be32 s (v.off + 4)) { off := v.off + 8, len := h.length.toNat - 8 })) ∧
      (k = .windowUpdate → h.length.toNat = 4 →
        GivesFrame s (.kindWindowUpdate w c) h
          (.windowUpdate (if s.cfg.wuMask then be31 s v.off else be32 s v.off))) ∧
      (k = .continuation →
        GivesFrame s (.kindContinuation w c) h (.continuation { off := v.off, len := h.length.toNat })) ∧
      (k = .unregistered →
        GivesFrame s (.kindUnregistered w c) h (.unregistered { off := v.off, len := h.length.toNat })))

/-! ### Payload and frame encode -/

/-- R253, R255: an encode command writes every one of the `n` bytes of its range, and writes them from its operands and
the viewed bytes of IB alone: two memories that agree on those bytes, whatever else they hold in OB, hold the same `n`
bytes afterwards. -/
def Obligations.EncodeFillsItsRangeFromItsOperands : Prop :=
  ∀ (i : Instr) (obo n : Nat) (s t u : State) (m : Memory), instrOut i = some (obo, n) → CanEncode s i → m.wf →
    (∀ v ∈ instrViews s.cfg.iblen i, ∀ j, j < v.len →
      m.read (s.cfg.ibBase + v.off + j) = s.mem.read (s.cfg.ibBase + v.off + j)) →
    exec i s = .next t → exec i { s with mem := m } = .next u →
    readBytes u.ob obo n = readBytes t.ob obo n ∧ t.res = .count n ∧ u.res = .count n

/-- R252: PAYLOAD_LEN gives the byte count of each variant, and FRAME_LEN nine more (R272). -/
def Obligations.LengthCommandsCountBytes : Prop :=
  ∀ (pl : Payload) (s : State), Ready s (.payloadLen pl) →
    ∃ n, Gives s (.payloadLen pl) (.count n) ∧
      (∀ d, pl = .data d → n = d.len) ∧
      (∀ b, pl = .headers none b → n = b.len) ∧
      (∀ q b, pl = .headers (some q) b → n = 5 + b.len) ∧
      (∀ q, pl = .priority q → n = 5) ∧
      (∀ e, pl = .reset e → n = 4) ∧
      (∀ v, pl = .settings (.view v) → n = v.len) ∧
      (∀ rs, pl = .settings (.list rs) → n = 6 * rs.length) ∧
      (∀ i b, pl = .pushPromise i b → n = 4 + b.len) ∧
      (∀ x, pl = .ping x → n = 8) ∧
      (∀ l e d, pl = .goAway l e d → n = 8 + d.len) ∧
      (∀ x, pl = .windowUpdate x → n = 4) ∧
      (∀ b, pl = .continuation b → n = b.len) ∧
      (∀ b, pl = .unregistered b → n = b.len) ∧
      (∀ h, headerLegal h = true → payloadTag pl = h.kind →
        Gives s (.frameLen { header := h, payload := pl }) (.count (9 + n)))

/-- R241, R250, R251: PAYLOAD_ENCODE of Data, Continuation and Unregistered copies the viewed bytes. -/
def Obligations.ViewPayloadsAreCopied : Prop :=
  ∀ (pl : Payload) (v : View) (obo : Nat) (s : State),
    pl = .data v ∨ pl = .continuation v ∨ pl = .unregistered v → CanEncode s (.payloadEncode pl obo) →
    Encodes s (.payloadEncode pl obo) obo v.len (readBytes s.ib v.off v.len)

/-- R243, R244, R247, R249: PAYLOAD_ENCODE of Priority, Reset, Ping and WindowUpdate writes their fixed fields, big-endian;
the increment's bit 31 is kept when `P_WU_MASK` is false and written 0 when it is true. -/
def Obligations.FixedPayloadsAreWritten : Prop :=
  ∀ (obo : Nat) (s : State),
    (∀ q, CanEncode s (.payloadEncode (.priority q) obo) →
      Encodes s (.payloadEncode (.priority q) obo) obo 5 (bytesPrio q)) ∧
    (∀ e, CanEncode s (.payloadEncode (.reset e) obo) →
      Encodes s (.payloadEncode (.reset e) obo) obo 4 (bytes32 e)) ∧
    (∀ hi lo : BitVec 32, CanEncode s (.payloadEncode (.ping (hi ++ lo)) obo) →
      Encodes s (.payloadEncode (.ping (hi ++ lo)) obo) obo 8 (bytes32 hi ++ bytes32 lo)) ∧
    (∀ x, CanEncode s (.payloadEncode (.windowUpdate x) obo) → s.cfg.wuMask = false →
      Encodes s (.payloadEncode (.windowUpdate x) obo) obo 4 (bytes32 x)) ∧
    (∀ x, CanEncode s (.payloadEncode (.windowUpdate x) obo) → s.cfg.wuMask = true →
      Encodes s (.payloadEncode (.windowUpdate x) obo) obo 4 (bytes31 x))

/-- R242, R245, R246, R248: PAYLOAD_ENCODE of Headers writes the priority block, if there is one, then the block; of
Settings the records in order, six bytes each, which for a view are the viewed bytes; of PushPromise the masked id, then
the block; of GoAway the masked id, the error code unmasked, then the debug data. -/
def Obligations.CompositePayloadsAreWritten : Prop :=
  ∀ (b : View) (obo : Nat) (s : State),
    (CanEncode s (.payloadEncode (.headers none b) obo) →
      Encodes s (.payloadEncode (.headers none b) obo) obo b.len (readBytes s.ib b.off b.len)) ∧
    (∀ q, CanEncode s (.payloadEncode (.headers (some q) b) obo) →
      Encodes s (.payloadEncode (.headers (some q) b) obo) obo (5 + b.len)
        (bytesPrio q ++ readBytes s.ib b.off b.len)) ∧
    (∀ rs, CanEncode s (.payloadEncode (.settings (.list rs)) obo) →
      Encodes s (.payloadEncode (.settings (.list rs)) obo) obo (6 * rs.length) (rs.flatMap bytesSetting)) ∧
    (CanEncode s (.payloadEncode (.settings (.view b)) obo) →
      Encodes s (.payloadEncode (.settings (.view b)) obo) obo b.len (readBytes s.ib b.off b.len)) ∧
    (∀ id, CanEncode s (.payloadEncode (.pushPromise id b) obo) →
      Encodes s (.payloadEncode (.pushPromise id b) obo) obo (4 + b.len)
        (bytes31 id ++ readBytes s.ib b.off b.len)) ∧
    (∀ last e, CanEncode s (.payloadEncode (.goAway last e b) obo) →
      Encodes s (.payloadEncode (.goAway last e b) obo) obo (8 + b.len)
        (bytes31 last ++ bytes32 e ++ readBytes s.ib b.off b.len))

/-- R271: FRAME_ENCODE writes the nine bytes of the stored header, its length not recomputed, then what PAYLOAD_ENCODE
writes from `obo + 9` up, and gives COUNT(9 + encoded_len). -/
def Obligations.FrameEncodeWritesHeaderThenPayload : Prop :=
  ∀ (fr : Frame) (obo : Nat) (s : State), CanEncode s (.frameEncode fr obo) →
    ∃ u, exec (.payloadEncode fr.payload (obo + 9)) s = .next u ∧ u.status = 0#32 ∧
      Encodes s (.frameEncode fr obo) obo (9 + encodedLen fr.payload)
        (bytesHeader fr.header ++ readBytes u.ob (obo + 9) (encodedLen fr.payload))

/-- R274: a valid frame survives FRAME_ENCODE, the caller's copy into IB, HDR_PARSE and FRAME_PARSE: the header comes
back, and the payload is equal by content. -/
def Obligations.FrameRoundTrip : Prop :=
  ∀ (fr : Frame) (obo a n : Nat) (s t u : State),
    ValidFrame s.cfg.wuMask fr → CanEncode s (.frameEncode fr obo) → exec (.frameEncode fr obo) s = .next t →
    n = 9 + encodedLen fr.payload → u.cfg.wuMask = s.cfg.wuMask → u.faulted = false → a + n ≤ u.cfg.iblen →
    Copied t obo u a n →
    Gives u (.hdrParse { off := a, len := n }) (.header fr.header) ∧
    ∃ pl, Gives u (.frameParse fr.header { off := a + 9, len := n - 9 }) (.frame { header := fr.header, payload := pl }) ∧
      sameContent s.ib u.ib fr.payload pl
end

