-- ==== Sys2Proof/Laws/Memory.lean ====
section
/-! SUPPORT. The laws of the cells: a read after a write gives the value written, a write leaves every other cell alone, and
every write keeps the canonical form. -/

namespace Sys2Proof.Machine.Memory

/-- Every listed address is above `x`. -/
abbrev Above (x : Nat) (m : Memory) : Prop := ∀ p ∈ m, x < p.1

/-- A property of all listed addresses, one cell at a time. -/
theorem forall_cons {P : Nat → Prop} {y : Nat} {b : Byte} {m : Memory} :
    (∀ p ∈ ((y, b) :: m : Memory), P p.1) ↔ P y ∧ ∀ p ∈ m, P p.1 :=
  List.forall_mem_cons

theorem read_of_above {m : Memory} {x : Nat} (h : Above x m) : read m x = Config.unlistedByte := by
  induction m with
  | nil => rfl
  | cons p m ih =>
    obtain ⟨y, b⟩ := p
    obtain ⟨hy, hm⟩ := forall_cons.1 h
    rw [read, if_neg (Nat.ne_of_lt hy), ih hm]

theorem wf_cons {y : Nat} {b : Byte} {m : Memory} :
    wf ((y, b) :: m) ↔ Above y m ∧ b ≠ Config.unlistedByte ∧ wf m := by
  unfold wf
  rw [List.pairwise_cons, List.forall_mem_cons]
  tauto

theorem wf_nil : wf [] := ⟨List.Pairwise.nil, fun _ h => absurd h List.not_mem_nil⟩

/-- A write adds no address but its own. -/
theorem mem_write {m : Memory} {x : Nat} {b : Byte} {P : Nat → Prop} (hx : P x) (h : ∀ p ∈ m, P p.1) :
    ∀ p ∈ write m x b, P p.1 := by
  induction m with
  | nil =>
    unfold write
    split_ifs
    · exact h
    · exact forall_cons.2 ⟨hx, h⟩
  | cons p m ih =>
    obtain ⟨y, c⟩ := p
    obtain ⟨hy, hm⟩ := forall_cons.1 h
    unfold write
    split_ifs
    · exact h
    · exact forall_cons.2 ⟨hx, h⟩
    · exact hm
    · exact forall_cons.2 ⟨hx, hm⟩
    · exact forall_cons.2 ⟨hy, ih hm⟩

/-- A write keeps the canonical form. -/
theorem wf_write {m : Memory} (x : Nat) (b : Byte) (h : wf m) : wf (write m x b) := by
  induction m with
  | nil =>
    unfold write
    split_ifs with hb
    · exact h
    · exact wf_cons.2 ⟨fun _ h => absurd h List.not_mem_nil, hb, wf_nil⟩
  | cons p m ih =>
    obtain ⟨y, c⟩ := p
    obtain ⟨ha, hc, hm⟩ := wf_cons.1 h
    unfold write
    split_ifs with h1 hb h2 hb
    · exact h
    · exact wf_cons.2 ⟨forall_cons.2 ⟨h1, fun q hq => h1.trans (ha q hq)⟩, hb, h⟩
    · exact hm
    · exact wf_cons.2 ⟨h2 ▸ ha, hb, hm⟩
    · exact wf_cons.2 ⟨mem_write (by omega) ha, hc, ih hm⟩

/-- A read of the cell written gives the value written. -/
theorem read_write_same {m : Memory} (x : Nat) (b : Byte) (h : wf m) : read (write m x b) x = b := by
  induction m with
  | nil =>
    unfold write
    split_ifs with hb
    · exact hb.symm
    · rw [read, if_pos rfl]
  | cons p m ih =>
    obtain ⟨y, c⟩ := p
    obtain ⟨ha, -, hm⟩ := wf_cons.1 h
    unfold write
    split_ifs with h1 hb h2 hb
    · rw [read_of_above (forall_cons.2 ⟨h1, fun q hq => h1.trans (ha q hq)⟩), hb]
    · rw [read, if_pos rfl]
    · rw [h2, read_of_above ha, hb]
    · rw [read, if_pos rfl]
    · rw [read, if_neg h2, ih hm]

/-- A write leaves every other cell alone. -/
theorem read_write_other {m : Memory} {x z : Nat} (b : Byte) (hz : z ≠ x) : read (write m x b) z = read m z := by
  induction m with
  | nil =>
    unfold write
    split_ifs
    · rfl
    · exact if_neg hz
  | cons p m ih =>
    obtain ⟨y, c⟩ := p
    unfold write
    split_ifs with h1 hb h2 hb
    · rfl
    · rw [read, if_neg hz]
    · rw [read, if_neg (h2 ▸ hz)]
    · rw [read, if_neg hz, read, if_neg (h2 ▸ hz)]
    · rw [read, read, ih]

theorem wf_writeBytes {m : Memory} (x : Nat) (bs : List Byte) (h : wf m) : wf (writeBytes m x bs) := by
  induction bs generalizing m x with
  | nil => exact h
  | cons b bs ih => exact ih (x + 1) (wf_write x b h)

/-- A write of consecutive cells leaves every other cell alone. -/
theorem read_writeBytes_other {m : Memory} {x z : Nat} (bs : List Byte) (hz : ¬(x ≤ z ∧ z < x + bs.length)) :
    read (writeBytes m x bs) z = read m z := by
  induction bs generalizing m x with
  | nil => rfl
  | cons b bs ih =>
    simp only [List.length_cons] at hz
    rw [writeBytes, ih (by omega), read_write_other b (by omega)]

/-- The cell `j` places up holds byte `j`. -/
theorem read_writeBytes_at {m : Memory} {x j : Nat} {bs : List Byte} (h : wf m) (hj : j < bs.length) :
    read (writeBytes m x bs) (x + j) = bs[j] := by
  induction bs generalizing m x j with
  | nil => simp at hj
  | cons b bs ih =>
    cases j with
    | zero => rw [writeBytes, read_writeBytes_other bs (by omega)]; simpa using read_write_same x b h
    | succ j =>
      have := ih (m := write m x b) (x := x + 1) (j := j) (wf_write x b h) (by simpa using hj)
      rw [writeBytes, show x + (j + 1) = x + 1 + j by omega, this]; simp

theorem mem_writeBytes {m : Memory} {x : Nat} {bs : List Byte} {P : Nat → Prop}
    (hx : ∀ j, j < bs.length → P (x + j)) (h : ∀ p ∈ m, P p.1) : ∀ p ∈ writeBytes m x bs, P p.1 := by
  induction bs generalizing m x with
  | nil => exact h
  | cons b bs ih =>
    refine ih (m := write m x b) (x := x + 1) (fun j hj => ?_) (mem_write (by simpa using hx 0 (by simp)) h)
    have := hx (j + 1) (by simpa using hj)
    rwa [show x + 1 + j = x + (j + 1) by omega]

end Sys2Proof.Machine.Memory
end

