-- ==== Sys2Proof/Laws/State.lean ====
section
/-! SUPPORT. One lemma per field per update of the state, so that no proof unfolds a record update. -/

namespace Sys2Proof.Machine.State

@[simp] theorem raiseError_cfg (s : State) (e : ProtoError) : (s.raiseError e).cfg = s.cfg := rfl
@[simp] theorem raiseError_mem (s : State) (e : ProtoError) : (s.raiseError e).mem = s.mem := rfl
@[simp] theorem raiseError_status (s : State) (e : ProtoError) : (s.raiseError e).status = statusOfError e := rfl
@[simp] theorem raiseError_res (s : State) (e : ProtoError) : (s.raiseError e).res = .none := rfl
@[simp] theorem raiseError_port (s : State) (e : ProtoError) : (s.raiseError e).port = s.port := rfl
@[simp] theorem raiseError_fresh (s : State) (e : ProtoError) : (s.raiseError e).fresh = s.fresh := rfl

@[simp] theorem takeFault_cfg (s : State) (f : ModelFault) : (s.takeFault f).cfg = s.cfg := rfl
@[simp] theorem takeFault_mem (s : State) (f : ModelFault) : (s.takeFault f).mem = s.mem := rfl
@[simp] theorem takeFault_status (s : State) (f : ModelFault) : (s.takeFault f).status = statusOfFault f := rfl
@[simp] theorem takeFault_res (s : State) (f : ModelFault) : (s.takeFault f).res = .none := rfl
@[simp] theorem takeFault_port (s : State) (f : ModelFault) : (s.takeFault f).port = s.port := rfl
@[simp] theorem takeFault_fresh (s : State) (f : ModelFault) : (s.takeFault f).fresh = s.fresh := rfl

@[simp] theorem portReset_cfg (s : State) : s.portReset.cfg = s.cfg := rfl
@[simp] theorem portReset_mem (s : State) : s.portReset.mem = s.mem := rfl
@[simp] theorem portReset_status (s : State) : s.portReset.status = 0#32 := rfl
@[simp] theorem portReset_res (s : State) : s.portReset.res = .none := rfl
@[simp] theorem portReset_port (s : State) : s.portReset.port = s.port := rfl
@[simp] theorem portReset_fresh (s : State) : s.portReset.fresh = s.fresh := rfl

@[simp] theorem complete_cfg (s : State) (r : Res) : (s.complete r).cfg = s.cfg := rfl
@[simp] theorem complete_mem (s : State) (r : Res) : (s.complete r).mem = s.mem := rfl
@[simp] theorem complete_status (s : State) (r : Res) : (s.complete r).status = 0#32 := rfl
@[simp] theorem complete_res (s : State) (r : Res) : (s.complete r).res = r := rfl
@[simp] theorem complete_port (s : State) (r : Res) : (s.complete r).port = s.port := rfl
@[simp] theorem complete_fresh (s : State) (r : Res) : (s.complete r).fresh = s.fresh := rfl

/-! What IB, OB and the sticky fault depend on. -/

theorem ib_apply (s : State) (a : Nat) : s.ib a = s.mem.read (s.cfg.ibBase + a) := rfl
theorem ob_apply (s : State) (a : Nat) : s.ob a = s.mem.read (s.cfg.obBase + a) := rfl

theorem ib_congr {s t : State} (hm : t.mem = s.mem) (hc : t.cfg = s.cfg) : t.ib = s.ib := by
  funext a; simp [ib_apply, hm, hc]

theorem ob_congr {s t : State} (hm : t.mem = s.mem) (hc : t.cfg = s.cfg) : t.ob = s.ob := by
  funext a; simp [ob_apply, hm, hc]

theorem faulted_of_status {s : State} (h : s.status = 0#32) : s.faulted = false := by
  simp [faulted, statusFault, h]

theorem takeFault_faulted (s : State) (f : ModelFault) : (s.takeFault f).faulted = true := by
  cases f <;> simp [faulted, statusFault, statusOfFault, faultCode]

theorem takeFault_status_ne (s : State) (f : ModelFault) : (s.takeFault f).status ≠ 0#32 := by
  cases f <;> simp [statusOfFault, faultCode]

theorem status_ne_of_faulted {s : State} (h : s.faulted = true) : s.status ≠ 0#32 := by
  intro h0; simp [faulted_of_status h0] at h

theorem statusOfError_ne (e : ProtoError) : statusOfError e ≠ 0#32 := by
  intro h
  have h0 : (statusOfError e).getLsbD 0 = false := by rw [h]; rfl
  have h1 : (statusOfError e).getLsbD 1 = false := by rw [h]; rfl
  have h2 : (statusOfError e).getLsbD 2 = false := by rw [h]; rfl
  cases e <;> simp [statusOfError, errArg, errCode] at h0 h1 h2

theorem raiseError_faulted (s : State) (e : ProtoError) : (s.raiseError e).faulted = false := by
  cases e <;> simp [faulted, statusFault, statusOfError, errArg, errCode]

theorem complete_faulted (s : State) (r : Res) : (s.complete r).faulted = false :=
  faulted_of_status rfl

end Sys2Proof.Machine.State
end

