-- ==== Sys2Proof/Laws/Bytes.lean ====
section
/-! SUPPORT. The laws of byte strings: what the scalar codecs read and write, in the field terms of the statements (the
concatenations of R91 and the slices of R90), and what stands in a buffer after a store. -/

namespace Sys2Proof.Machine

/-! ### Reading consecutive bytes -/

@[simp] theorem length_readBytes (buf : Buffer) (a n : Nat) : (readBytes buf a n).length = n := by
  induction n generalizing a with
  | zero => rfl
  | succ n ih => simp [readBytes, ih]

theorem getElem_readBytes (buf : Buffer) (a n j : Nat) (hj : j < (readBytes buf a n).length) :
    (readBytes buf a n)[j] = buf (a + j) := by
  induction n generalizing a j with
  | zero => simp [readBytes] at hj
  | succ n ih =>
    cases j with
    | zero => rfl
    | succ j =>
      simp only [readBytes, List.getElem_cons_succ]
      rw [ih, show a + 1 + j = a + (j + 1) by omega]

theorem readBytes_congr {b1 b2 : Buffer} {a1 a2 n : Nat} (h : ∀ j, j < n → b1 (a1 + j) = b2 (a2 + j)) :
    readBytes b1 a1 n = readBytes b2 a2 n := by
  refine List.ext_getElem (by simp) fun j h1 h2 => ?_
  rw [getElem_readBytes, getElem_readBytes]
  exact h j (by simpa using h1)

theorem readBytes_append (buf : Buffer) (a n k : Nat) :
    readBytes buf a (n + k) = readBytes buf a n ++ readBytes buf (a + n) k := by
  induction n generalizing a with
  | zero => simp [readBytes]
  | succ n ih => rw [Nat.succ_add, readBytes, ih, readBytes, show a + 1 + n = a + (n + 1) by omega]; rfl

/-- What stands at `x`, `x + 1`, … after a store there. -/
theorem readBytes_writeBytes {m : Memory} (h : m.wf) (base a : Nat) (bs : List Byte) :
    readBytes (fun j => (m.writeBytes (base + a) bs).read (base + j)) a bs.length = bs := by
  refine List.ext_getElem (by simp) fun j h1 h2 => ?_
  rw [getElem_readBytes, ← Nat.add_assoc]
  exact Memory.read_writeBytes_at h h2

/-! ### Scalar codecs -/

@[simp] theorem length_beBytes (n v : Nat) : (beBytes n v).length = n := by
  induction n with
  | zero => rfl
  | succ n ih => simp [beBytes, ih]

theorem byte_of_div {w : Nat} (x : BitVec w) (k : Nat) : BitVec.ofNat 8 (x.toNat / 2 ^ k) = x.extractLsb' k 8 := by
  apply BitVec.eq_of_toNat_eq
  simp [BitVec.extractLsb'_toNat, Nat.shiftRight_eq_div_pow]

theorem u32Bytes_eq (x : BitVec 32) : u32Bytes x = bytes32 x := by
  have h (k : Nat) : BitVec.ofNat 8 (x.toNat / 256 ^ k) = x.extractLsb' (8 * k) 8 := by
    rw [← byte_of_div, Nat.pow_mul]
  simp only [u32Bytes, beBytes, bytes32, h]

theorem u24Bytes_eq (x : BitVec 32) :
    u24Bytes x = [x.extractLsb' 16 8, x.extractLsb' 8 8, x.extractLsb' 0 8] := by
  have h (k : Nat) : BitVec.ofNat 8 (x.toNat / 256 ^ k) = x.extractLsb' (8 * k) 8 := by
    rw [← byte_of_div, Nat.pow_mul]
  simp only [u24Bytes, beBytes, h]

theorem u16Bytes_eq (x : BitVec 16) : u16Bytes x = [x.extractLsb' 8 8, x.extractLsb' 0 8] := by
  have h (k : Nat) : BitVec.ofNat 8 (x.toNat / 256 ^ k) = x.extractLsb' (8 * k) 8 := by
    rw [← byte_of_div, Nat.pow_mul]
  simp only [u16Bytes, beBytes, h]

theorem u64Bytes_append (hi lo : BitVec 32) : u64Bytes (hi ++ lo) = bytes32 hi ++ bytes32 lo := by
  have h (k : Nat) : BitVec.ofNat 8 ((hi ++ lo).toNat / 256 ^ k) = (hi ++ lo).extractLsb' (8 * k) 8 := by
    rw [← byte_of_div, Nat.pow_mul]
  simp only [u64Bytes, beBytes, bytes32, h, List.cons_append, List.nil_append, List.cons.injEq, and_true]
  refine ⟨?_, ?_, ?_, ?_, ?_, ?_, ?_, ?_⟩ <;> apply BitVec.eq_of_getLsbD_eq <;> intro i hj <;>
    simp only [BitVec.getLsbD_extractLsb', BitVec.getLsbD_append] <;> interval_cases i <;> simp

theorem sidBytes_eq (x : BitVec 32) : sidBytes x = bytes31 x := by
  simp only [sidBytes, u32Bytes_eq, bytes32, bytes31, Config.sidMask, List.cons.injEq, and_true]
  refine ⟨?_, ?_, ?_, ?_⟩ <;> ext i hi <;> interval_cases i <;> simp

theorem prioBytes_eq (q : Priority) : prioBytes q = bytesPrio q := by
  simp only [prioBytes, u32Bytes_eq, bytes32, bytesPrio, Config.sidMask, List.cons_append, List.nil_append,
    List.cons.injEq, and_true]
  refine ⟨?_, ?_, ?_, ?_⟩ <;> ext i hi <;> cases q.exclusive <;> interval_cases i <;> simp

theorem settingBytes_eq (r : Setting) : settingBytes r = bytesSetting r := by
  simp only [settingBytes, u16Bytes_eq, u32Bytes_eq, bytesSetting]

theorem headerBytes_eq (h : FrameHeader) (hk : kindLegal h.kind = true) : headerBytes h = bytesHeader h := by
  have hb : kindEncode (kindOfTag h.kind) = kindByteOfTag h.kind := by
    generalize h.kind = k at hk
    revert hk; revert k; decide
  simp only [headerBytes, u24Bytes_eq, sidBytes_eq, bytesHeader, hb, List.cons_append, List.nil_append]

theorem toNat_append {w : Nat} (x : BitVec w) (y : Byte) : (x ++ y).toNat = x.toNat * 256 + y.toNat := by
  rw [BitVec.toNat_append, ← Nat.shiftLeft_add_eq_or_of_lt y.isLt, Nat.shiftLeft_eq]

theorem u16Decode_eq (s : State) (a : Nat) : u16Decode s.ib a = be16 s a := by
  apply BitVec.eq_of_toNat_eq
  simp only [u16Decode, be16, memRead, beNat, readBytes, List.foldl, toNat_append, BitVec.toNat_ofNat]
  have := (s.ib a).isLt; have := (s.ib (a + 1)).isLt
  omega

theorem u24Decode_eq (s : State) (a : Nat) : u24Decode s.ib a = (be24 s a).setWidth 32 := by
  apply BitVec.eq_of_toNat_eq
  simp only [u24Decode, be24, memRead, beNat, readBytes, List.foldl, toNat_append, BitVec.toNat_ofNat,
    BitVec.toNat_setWidth, Nat.add_assoc, Nat.reduceAdd]
  omega

theorem u32Decode_eq (s : State) (a : Nat) : u32Decode s.ib a = be32 s a := by
  apply BitVec.eq_of_toNat_eq
  simp only [u32Decode, be32, memRead, beNat, readBytes, List.foldl, toNat_append, BitVec.toNat_ofNat]
  have := (s.ib a).isLt; have := (s.ib (a + 1)).isLt
  have := (s.ib (a + 1 + 1)).isLt; have := (s.ib (a + 1 + 1 + 1)).isLt
  simp only [Nat.add_assoc, Nat.reduceAdd] at *
  omega

theorem u64Decode_eq (s : State) (a : Nat) : u64Decode s.ib a = be64 s a := by
  apply BitVec.eq_of_toNat_eq
  have hlt (b : Nat) : (be32 s b).toNat = (((s.ib b).toNat * 256 + (s.ib (b + 1)).toNat) * 256 +
      (s.ib (b + 2)).toNat) * 256 + (s.ib (b + 3)).toNat := by
    simp only [be32, toNat_append]
  rw [be64, BitVec.toNat_append, ← Nat.shiftLeft_add_eq_or_of_lt (be32 s (a + 4)).isLt, Nat.shiftLeft_eq, hlt, hlt]
  simp only [u64Decode, memRead, beNat, readBytes, List.foldl, BitVec.toNat_ofNat]
  have := (s.ib a).isLt; have := (s.ib (a + 1)).isLt; have := (s.ib (a + 2)).isLt; have := (s.ib (a + 3)).isLt
  have := (s.ib (a + 4)).isLt; have := (s.ib (a + 5)).isLt; have := (s.ib (a + 6)).isLt; have := (s.ib (a + 7)).isLt
  simp only [Nat.add_assoc, Nat.reduceAdd] at *
  omega

theorem append_mask (b0 b1 b2 b3 : Byte) :
    (b0 ++ b1 ++ b2 ++ b3 : BitVec 32) &&& Config.sidMask =
      (b0.extractLsb' 0 7 ++ b1 ++ b2 ++ b3 : BitVec 31).setWidth 32 := by
  apply BitVec.eq_of_getLsbD_eq
  intro i hi
  simp only [Config.sidMask, BitVec.getLsbD_and, BitVec.getLsbD_setWidth, BitVec.getLsbD_append,
    BitVec.getLsbD_extractLsb']
  interval_cases i <;> simp

theorem be32_mask (s : State) (a : Nat) : be32 s a &&& Config.sidMask = be31 s a :=
  append_mask _ _ _ _

theorem sidDecode_eq (s : State) (a : Nat) : sidDecode s.ib a = be31 s a := by
  rw [sidDecode, u32Decode_eq, be32_mask]

theorem priorityAt_eq (s : State) (a : Nat) : priorityAt s.ib a = prioField s a := by
  have h : (be32 s a).getLsbD 31 = (s.ib a).getLsbD 7 := by
    simp only [be32, BitVec.getLsbD_append]
    simp
  simp only [priorityAt, prioField, u32Decode_eq, be32_mask, h]

theorem sidLegal_be31 (s : State) (a : Nat) : sidLegal (be31 s a) := by
  simp [sidLegal, be31]

theorem sidLegal_mask (x : BitVec 32) : sidLegal (x &&& Config.sidMask) := by
  simp [sidLegal, Config.sidMask]

end Sys2Proof.Machine
end

