-- ==== Sys2Proof/Laws/Codec.lean ====
section
/-! SUPPORT. The laws of a record's fields: reading a field that was put gives it back, with what lies above it. -/

namespace Sys2Proof

theorem takeBits_putBits {w : Nat} (x : BitVec w) (r : Nat) : takeBits w (putBits x r) = (x, r) := by
  have hx : x.toNat < 2 ^ w := x.isLt
  refine Prod.ext (BitVec.eq_of_toNat_eq ?_) ?_
  · simp [takeBits, putBits, Nat.shiftLeft_eq]
  · simp only [takeBits, putBits, Nat.shiftLeft_eq, Nat.shiftRight_eq_div_pow]
    rw [Nat.add_mul_div_right _ _ (by positivity), Nat.div_eq_of_lt hx, Nat.zero_add]

theorem takeAddr_putAddr {aw n : Nat} (hn : n < 2 ^ aw) (r : Nat) : takeAddr aw (putAddr aw n r) = (n, r) := by
  refine Prod.ext ?_ ?_
  · simp [takeAddr, putAddr, Nat.shiftLeft_eq, Nat.mod_eq_of_lt hn]
  · simp only [takeAddr, putAddr, Nat.shiftLeft_eq, Nat.shiftRight_eq_div_pow]
    rw [Nat.add_mul_div_right _ _ (by positivity), Nat.div_eq_of_lt (Nat.mod_lt _ (by positivity)), Nat.zero_add]

theorem takeBool_putBool (b : Bool) (r : Nat) : takeBool (putBool b r) = (b, r) := by
  cases b <;> simp [takeBool, putBool, Nat.shiftLeft_eq, Nat.shiftRight_eq_div_pow]
  omega

theorem takeView_putView {aw : Nat} {v : View} (hv : v.fits aw = true) (r : Nat) :
    takeView aw (putView aw v r) = (v, r) := by
  simp only [View.fits, Bool.and_eq_true, decide_eq_true_eq] at hv
  simp only [takeView, putView, takeAddr_putAddr hv.1, takeAddr_putAddr hv.2]

theorem takeHeader_putHeader (h : FrameHeader) (r : Nat) : takeHeader (putHeader h r) = (h, r) := by
  simp only [takeHeader, putHeader, takeBits_putBits]

theorem takePriority_putPriority (p : Priority) (r : Nat) : takePriority (putPriority p r) = (p, r) := by
  simp only [takePriority, putPriority, takeBits_putBits, takeBool_putBool]

theorem takeOptPriority_putOptPriority (p : Option Priority) (r : Nat) :
    takeOptPriority (putOptPriority p r) = (p, r) := by
  cases p <;> simp [takeOptPriority, putOptPriority, takeBool_putBool, takePriority_putPriority]

/-- The record is at least as large a number as the list is long, so the decoder's bound is never reached. -/
theorem length_le_putSettings (rs : List Setting) (r : Nat) : rs.length ≤ putSettings rs r := by
  induction rs with
  | nil => simp
  | cons s ss ih =>
    have h1 (w x y : Nat) : y ≤ x + y <<< w := by
      rw [Nat.shiftLeft_eq]
      exact (Nat.le_mul_of_pos_right y (by positivity)).trans (Nat.le_add_left _ _)
    have h2 := h1 32 s.value.toNat (putSettings ss r)
    have h3 := h1 16 s.identifier.toNat (putBits s.value (putSettings ss r))
    simp only [putSettings, putBool, putBits, Bool.toNat_true, List.length_cons, Nat.shiftLeft_eq] at *
    omega

theorem takeSettings_putSettings (rs : List Setting) (r fuel : Nat) (h : rs.length < fuel) :
    takeSettings fuel (putSettings rs r) = (rs, r) := by
  induction rs generalizing fuel with
  | nil =>
    obtain ⟨k, rfl⟩ := Nat.exists_eq_succ_of_ne_zero (Nat.ne_of_gt h)
    simp [takeSettings, putSettings, takeBool_putBool]
  | cons s ss ih =>
    obtain ⟨k, rfl⟩ := Nat.exists_eq_succ_of_ne_zero (Nat.ne_of_gt (Nat.zero_lt_of_lt h))
    have := ih k (by simpa using h)
    simp [takeSettings, putSettings, takeBool_putBool, takeBits_putBits, this]

theorem takeSeq_putSeq {aw : Nat} {q : SettingSeq} (hq : q.fits aw = true) (r : Nat) :
    takeSeq aw (putSeq aw q r) = (q, r) := by
  cases q with
  | view v =>
    simp [takeSeq, putSeq, takeBool_putBool,
      takeView_putView (v := v) (by simpa [SettingSeq.fits, Machine.seqViews] using hq)]
  | list rs =>
    have := takeSettings_putSettings rs r (putSettings rs r + 1) (Nat.lt_succ_of_le (length_le_putSettings rs r))
    simp [takeSeq, putSeq, takeBool_putBool, this]

theorem takePayload_putPayload {aw : Nat} {pl : Payload} (hp : pl.fits aw = true) (r : Nat) :
    takePayload aw (putPayload aw pl r) = (pl, r) := by
  unfold takePayload putPayload
  rw [takeBits_putBits]
  cases pl with
  | settings q =>
    simp [Machine.payloadTag,
      takeSeq_putSeq (q := q) (by simpa [Payload.fits, SettingSeq.fits, Machine.payloadViews] using hp)]
  | illegal n =>
    obtain ⟨n, hn⟩ := n
    interval_cases n <;> simp [Machine.payloadTag]
  | priority _ => simp [Machine.payloadTag, takePriority_putPriority]
  | reset _ => simp [Machine.payloadTag, takeBits_putBits]
  | ping _ => simp [Machine.payloadTag, takeBits_putBits]
  | windowUpdate _ => simp [Machine.payloadTag, takeBits_putBits]
  | headers _ v | pushPromise _ v | goAway _ _ v | data v | continuation v | unregistered v =>
    simp [Machine.payloadTag, takeBits_putBits, takeOptPriority_putOptPriority,
      takeView_putView (v := v) (by simpa [Payload.fits, Machine.payloadViews] using hp)]

theorem takeFrame_putFrame {aw : Nat} {fr : Frame} (hf : fr.payload.fits aw = true) (r : Nat) :
    takeFrame aw (putFrame aw fr r) = (fr, r) := by
  simp only [takeFrame, putFrame, takeHeader_putHeader, takePayload_putPayload hf]

end Sys2Proof
end

