-- ==== Sys2Proof/Laws/Cycle.lean ====
section
/-! SUPPORT. What the command cycle of R50 can do, said once: the checks, the cycle of a reading command and the cycle of an
encode command. -/

namespace Sys2Proof.Machine

/-! ### The checks -/

theorem Checks.firstFault_illegal {c : Checks} (p : Params) (h : c.legal = false) :
    c.firstFault p = some .badOperand := by
  simp [firstFault, h]

theorem Checks.firstFault_outside {c : Checks} {p : Params} (hl : c.legal = true)
    (h : ∃ v ∈ c.views, p.iblen < v.off + v.len) : c.firstFault p = some .ibBounds := by
  have : c.views.all (viewInside p.iblen) = false := by
    obtain ⟨v, hv, hlt⟩ := h
    simpa [viewInside] using ⟨v, hv, hlt⟩
  simp [firstFault, hl, this]

theorem Checks.all_inside {c : Checks} {p : Params} (h : ∀ v ∈ c.views, v.off + v.len ≤ p.iblen) :
    c.views.all (viewInside p.iblen) = true := by
  simpa [viewInside] using h

theorem Checks.firstFault_mismatch {c : Checks} {p : Params} (hl : c.legal = true)
    (hv : ∀ v ∈ c.views, v.off + v.len ≤ p.iblen) (h : c.kindsMatch = false) :
    c.firstFault p = some .kindMismatch := by
  simp [firstFault, hl, all_inside hv, h]

theorem Checks.firstFault_room {c : Checks} {p : Params} {obo n : Nat} (hl : c.legal = true)
    (hv : ∀ v ∈ c.views, v.off + v.len ≤ p.iblen) (hk : c.kindsMatch = true) (ho : c.out = some (obo, n))
    (h : p.obcap < obo + n) : c.firstFault p = some .obBounds := by
  simp [firstFault, hl, all_inside hv, hk, ho, h]

/-- No check fails exactly when the operands are legal, the views inside IB, the kinds equal and the bytes inside OB. -/
theorem Checks.firstFault_eq_none {c : Checks} {p : Params} :
    c.firstFault p = none ↔ c.legal = true ∧ (∀ v ∈ c.views, v.off + v.len ≤ p.iblen) ∧ c.kindsMatch = true ∧
      ∀ obo n, c.out = some (obo, n) → obo + n ≤ p.obcap := by
  constructor
  · intro h
    unfold firstFault at h
    split_ifs at h with h1 h2 h3
    simp only [Bool.not_eq_true', Bool.not_eq_false] at h1 h2 h3
    refine ⟨h1, by simpa [viewInside] using h2, h3, ?_⟩
    intro obo n ho
    by_contra hn
    simp [ho, not_le.1 hn] at h
  · rintro ⟨h1, h2, h3, h4⟩
    unfold firstFault
    simp only [h1, all_inside h2, h3]
    cases ho : c.out with
    | none => simp
    | some q => simp [h4 q.1 q.2 (by simp [ho])]

/-! ### Reading commands -/

theorem State.readCycle_stuck {s : State} (c : Checks) (rule : Result Res) (h : s.faulted = true) :
    s.readCycle c rule = s := by
  simp [readCycle, h]

theorem State.readCycle_fault {s : State} {c : Checks} {f : ModelFault} (rule : Result Res) (h : s.faulted = false)
    (hf : c.firstFault s.cfg = some f) : s.readCycle c rule = s.takeFault f := by
  simp [readCycle, h, hf]

theorem State.readCycle_rule {s : State} {c : Checks} (rule : Result Res) (h : s.faulted = false)
    (hf : c.firstFault s.cfg = none) :
    s.readCycle c rule = match rule with | .ok r => s.complete r | .raise e => s.raiseError e := by
  cases rule <;> simp [readCycle, h, hf]

/-- Everything a reading command can come to. -/
theorem State.readCycle_cases (s : State) (c : Checks) (rule : Result Res) :
    (s.faulted = true ∧ s.readCycle c rule = s) ∨
    (s.faulted = false ∧ ∃ f, c.firstFault s.cfg = some f ∧ s.readCycle c rule = s.takeFault f) ∨
    (s.faulted = false ∧ c.firstFault s.cfg = none ∧
      ((∃ r, rule = .ok r ∧ s.readCycle c rule = s.complete r) ∨
        ∃ e, rule = .raise e ∧ s.readCycle c rule = s.raiseError e)) := by
  cases hs : s.faulted with
  | true => exact .inl ⟨rfl, readCycle_stuck c rule hs⟩
  | false =>
    refine .inr ?_
    cases hf : c.firstFault s.cfg with
    | some f => exact .inl ⟨rfl, f, rfl, readCycle_fault rule hs hf⟩
    | none =>
      refine .inr ⟨rfl, rfl, ?_⟩
      rw [readCycle_rule rule hs hf]
      cases rule with
      | ok r => exact .inl ⟨r, rfl, rfl⟩
      | raise e => exact .inr ⟨e, rfl, rfl⟩

/-! ### Encode commands -/

theorem State.encodeCycle_stuck {s : State} (c : Checks) (obo n : Nat) (bytes : List Byte) (h : s.faulted = true) :
    s.encodeCycle c obo n bytes = s := by
  simp [encodeCycle, h]

theorem State.encodeCycle_fault {s : State} {c : Checks} {obo n : Nat} {f : ModelFault} (bytes : List Byte)
    (h : s.faulted = false) (hf : { c with out := some (obo, n) }.firstFault s.cfg = some f) :
    s.encodeCycle c obo n bytes = s.takeFault f := by
  simp [encodeCycle, h, hf]

theorem State.encodeCycle_done {s : State} {c : Checks} {obo n : Nat} (bytes : List Byte)
    (h : s.faulted = false) (hf : { c with out := some (obo, n) }.firstFault s.cfg = none) :
    s.encodeCycle c obo n bytes = (s.storeOut obo c.views bytes).complete (.count n) := by
  simp [encodeCycle, h, hf]

/-- Everything an encode command can come to. -/
theorem State.encodeCycle_cases (s : State) (c : Checks) (obo n : Nat) (bytes : List Byte) :
    (s.faulted = true ∧ s.encodeCycle c obo n bytes = s) ∨
    (s.faulted = false ∧ ∃ f, { c with out := some (obo, n) }.firstFault s.cfg = some f ∧
      s.encodeCycle c obo n bytes = s.takeFault f) ∨
    (s.faulted = false ∧ { c with out := some (obo, n) }.firstFault s.cfg = none ∧
      s.encodeCycle c obo n bytes = (s.storeOut obo c.views bytes).complete (.count n)) := by
  cases hs : s.faulted with
  | true => exact .inl ⟨rfl, encodeCycle_stuck c obo n bytes hs⟩
  | false =>
    refine .inr ?_
    cases hf : { c with out := some (obo, n) }.firstFault s.cfg with
    | some f => exact .inl ⟨rfl, f, rfl, encodeCycle_fault bytes hs hf⟩
    | none => exact .inr ⟨rfl, rfl, encodeCycle_done bytes hs hf⟩

@[simp] theorem length_freeBytes (k n : Nat) : (freeBytes k n).length = n := by
  induction n generalizing k with
  | zero => rfl
  | succ n ih => simp [freeBytes, ih]

@[simp] theorem State.storeOut_cfg (s : State) (obo : Nat) (vs : List View) (bs : List Byte) :
    (s.storeOut obo vs bs).cfg = s.cfg := by
  unfold storeOut; split <;> rfl

@[simp] theorem State.storeOut_port (s : State) (obo : Nat) (vs : List View) (bs : List Byte) :
    (s.storeOut obo vs bs).port = s.port := by
  unfold storeOut; split <;> rfl

/-- A store writes as many bytes as it is given, free ones where OB overlaps a source. -/
theorem State.storeOut_mem (s : State) (obo : Nat) (vs : List View) (bs : List Byte) :
    ∃ out : List Byte, out.length = bs.length ∧
      (s.storeOut obo vs bs).mem = s.mem.writeBytes (s.cfg.obBase + obo) out := by
  unfold storeOut
  split
  · exact ⟨freeBytes s.fresh bs.length, by simp, rfl⟩
  · exact ⟨bs, rfl, rfl⟩

/-- Where OB overlaps no source, the bytes given are the bytes written. -/
theorem State.storeOut_apart {s : State} {vs : List View} (obo : Nat) (bs : List Byte)
    (h : ∀ v ∈ vs, overlapsOb s.cfg v = false) :
    s.storeOut obo vs bs = { s with mem := s.mem.writeBytes (s.cfg.obBase + obo) bs } := by
  have : vs.any (overlapsOb s.cfg) = false := by simpa using h
  simp [storeOut, this]

/-- A store leaves every cell outside its range alone. -/
theorem State.storeOut_other (s : State) (obo : Nat) (vs : List View) (bs : List Byte) {x : Nat}
    (hx : ¬(s.cfg.obBase + obo ≤ x ∧ x < s.cfg.obBase + obo + bs.length)) :
    (s.storeOut obo vs bs).mem.read x = s.mem.read x := by
  obtain ⟨out, hl, hm⟩ := s.storeOut_mem obo vs bs
  rw [hm, Memory.read_writeBytes_other out (by rwa [hl])]

/-- A store keeps the canonical form. -/
theorem State.storeOut_wf {s : State} (obo : Nat) (vs : List View) (bs : List Byte) (h : s.mem.wf) :
    (s.storeOut obo vs bs).mem.wf := by
  obtain ⟨out, -, hm⟩ := s.storeOut_mem obo vs bs
  rw [hm]
  exact Memory.wf_writeBytes _ _ h

/-- An encode command that no check stops, with no overlap, leaves its bytes in OB and nothing else changed. -/
theorem State.encodeCycle_wrote {s : State} {c : Checks} {obo n : Nat} {bytes : List Byte} (hs : s.faulted = false)
    (hf : { c with out := some (obo, n) }.firstFault s.cfg = none)
    (ha : ∀ v ∈ c.views, overlapsOb s.cfg v = false) (hw : s.mem.wf) (hn : bytes.length = n) :
    Wrote s (s.encodeCycle c obo n bytes) obo n bytes := by
  rw [encodeCycle_done bytes hs hf, storeOut_apart obo bytes ha]
  subst hn
  exact ⟨rfl, rfl, readBytes_writeBytes hw _ _ _, fun x hx => Memory.read_writeBytes_other bytes hx, rfl, rfl, rfl⟩

end Sys2Proof.Machine
end

