-- ==== Sys2Proof/Laws/Exec.lean ====
section
/-! SUPPORT. What an instruction can do, said once: every meaning is one command cycle, with the checks that R50 names. -/

namespace Sys2Proof.Machine

theorem length_seqBytes (ib : Buffer) (q : SettingSeq) : (seqBytes ib q).length = 6 * seqCount q := by
  have h (rs : List Setting) : (rs.flatMap settingBytes).length = 6 * rs.length := by
    induction rs with
    | nil => rfl
    | cons r rs ih =>
      rw [List.flatMap_cons, List.length_append, ih, settingBytes_eq, List.length_cons]
      simp only [bytesSetting, bytes32, List.cons_append, List.nil_append, List.length_cons, List.length_nil]
      omega
  rw [seqBytes, h]
  cases q with
  | view v => rw [seqRecords, List.length_map, List.length_range]; rfl
  | list rs => rfl

/-- Each arm of the encoder writes the bytes that `encoded_len` counts. -/
theorem length_payloadBytes (wu : Bool) (ib : Buffer) (pl : Payload) :
    (payloadBytes wu ib pl).length = encodedLen pl := by
  cases pl with
  | headers opt b =>
    cases opt with
    | none => simp [payloadBytes, headersBytes, encodedLen, viewBytes]
    | some pr =>
      simp [payloadBytes, headersBytes, encodedLen, viewBytes, prioBytes, u32Bytes, Config.prioLen]
      omega
  | settings q => simpa [payloadBytes, settingsBytes, encodedLen, Config.settingLen] using length_seqBytes ib q
  | goAway l e d =>
    simp [payloadBytes, encodedLen, goAwayBytes, viewBytes, u32Bytes, sidBytes]
    omega
  | _ =>
    simp [payloadBytes, encodedLen, dataBytes, priorityPayloadBytes, resetBytes, pushPromiseBytes, pingBytes,
      windowUpdateBytes, continuationBytes, unregisteredBytes, viewBytes, prioBytes, u32Bytes, u64Bytes,
      sidBytes, Config.prioLen]

theorem length_headerBytes (h : FrameHeader) : (headerBytes h).length = 9 := by
  simp [headerBytes, u24Bytes, sidBytes, u32Bytes]

theorem length_frameBytes (wu : Bool) (ib : Buffer) (fr : Frame) :
    (frameBytes wu ib fr).length = 9 + encodedLen fr.payload := by
  simp [frameBytes, length_headerBytes, length_payloadBytes]

/-- A cycle makes the checks that R50 names for the instruction. -/
structure ChecksOf (p : Params) (i : Instr) (c : Checks) : Prop where
  legal : c.legal = i.legal
  views : c.views = instrViews p.iblen i
  kinds : c.kindsMatch = instrKindsMatch i
  out : c.out = none

/-- Every instruction that stores nothing is one reading cycle. -/
theorem exec_read (i : Instr) (s : State) (h : instrOut i = none) :
    ∃ c rule, exec i s = .next (s.readCycle c rule) ∧ ChecksOf s.cfg i c := by
  cases i <;> first
    | exact ⟨_, _, rfl, rfl, rfl, rfl, rfl⟩
    | simp [instrOut] at h

/-- Every encode command is one encode cycle, and its bytes are as many as it is checked against. -/
theorem exec_encode (i : Instr) (s : State) {obo n : Nat} (h : instrOut i = some (obo, n)) :
    ∃ c bytes, exec i s = .next (s.encodeCycle c obo n bytes) ∧ ChecksOf s.cfg i c ∧ bytes.length = n := by
  cases i <;> simp only [instrOut, Option.some.injEq, Prod.mk.injEq, reduceCtorEq] at h <;> obtain ⟨rfl, rfl⟩ := h
  · exact ⟨_, _, rfl, ⟨rfl, rfl, rfl, rfl⟩, by simp [sidBytes, u32Bytes]⟩
  · exact ⟨_, _, rfl, ⟨rfl, rfl, rfl, rfl⟩, length_headerBytes _⟩
  · exact ⟨_, _, rfl, ⟨rfl, rfl, rfl, rfl⟩, by simp [prioBytes, u32Bytes]⟩
  · exact ⟨_, _, rfl, ⟨rfl, rfl, rfl, rfl⟩, length_seqBytes _ _⟩
  · exact ⟨_, _, rfl, ⟨rfl, rfl, rfl, rfl⟩, length_payloadBytes _ _ _⟩
  · exact ⟨_, _, rfl, ⟨rfl, rfl, rfl, rfl⟩, length_frameBytes _ _ _⟩

/-- A reading instruction makes the same checks and applies the same rule whatever STATUS and RES hold. -/
theorem exec_read_with (i : Instr) (s : State) (w : BitVec 32) (r : Res) (h : instrOut i = none) :
    ∃ c rule, exec i s = .next (s.readCycle c rule) ∧
      exec i { s with status := w, res := r } = .next (State.readCycle { s with status := w, res := r } c rule) ∧
      ChecksOf s.cfg i c := by
  cases i <;> first
    | exact ⟨_, _, rfl, rfl, rfl, rfl, rfl, rfl⟩
    | simp [instrOut] at h

/-- A stuck block executes nothing. -/
theorem exec_stuck (i : Instr) {s : State} (h : s.faulted = true) : exec i s = .next s := by
  cases ho : instrOut i with
  | none =>
    obtain ⟨c, rule, he, -⟩ := exec_read i s ho
    rw [he, State.readCycle_stuck c rule h]
  | some p =>
    obtain ⟨c, bytes, he, -⟩ := exec_encode i s (obo := p.1) (n := p.2) ho
    rw [he, State.encodeCycle_stuck c p.1 p.2 bytes h]

/-! ### From the premises of the statements to the cycle -/

theorem Ready.firstFault {s : State} {i : Instr} {c : Checks} (hr : Ready s i) (hc : ChecksOf s.cfg i c) :
    c.firstFault s.cfg = none :=
  Checks.firstFault_eq_none.2
    ⟨hc.legal.trans hr.legal, hc.views ▸ hr.inside, hc.kinds.trans hr.kinds, by simp [hc.out]⟩

theorem Ready.firstFault_out {s : State} {i : Instr} {c : Checks} {obo n : Nat} (hr : Ready s i)
    (hc : ChecksOf s.cfg i c) (ho : instrOut i = some (obo, n)) (hf : fitsOb s i) :
    { c with out := some (obo, n) }.firstFault s.cfg = none := by
  refine Checks.firstFault_eq_none.2
    ⟨hc.legal.trans hr.legal, (hc.views ▸ hr.inside : ∀ v ∈ c.views, _), hc.kinds.trans hr.kinds, ?_⟩
  intro a b h
  cases h
  exact hf _ _ ho

/-- A reading instruction whose rule succeeds gives its result. -/
theorem gives_of_ok {i : Instr} {s : State} {c : Checks} {rule : Result Res} {r : Res} (hr : Ready s i)
    (he : exec i s = .next (s.readCycle c rule)) (hc : ChecksOf s.cfg i c) (h : rule = .ok r) : Gives s i r := by
  rw [Gives, he, State.readCycle_rule rule hr.running (hr.firstFault hc), h]
  rfl

/-- A reading instruction whose rule raises an error is turned away. -/
theorem stops_of_raise {i : Instr} {s : State} {c : Checks} {rule : Result Res} {e : ProtoError} (hr : Ready s i)
    (he : exec i s = .next (s.readCycle c rule)) (hc : ChecksOf s.cfg i c) (h : rule = .raise e) :
    Stops s i (statusOfError e) := by
  rw [Stops, he, State.readCycle_rule rule hr.running (hr.firstFault hc), h]
  rfl

/-- An encode command that can run leaves the bytes its rule gives. -/
theorem encodes_of_bytes {i : Instr} {s : State} {c : Checks} {obo n : Nat} {bytes : List Byte} (h : CanEncode s i)
    (he : exec i s = .next (s.encodeCycle c obo n bytes)) (hc : ChecksOf s.cfg i c)
    (ho : instrOut i = some (obo, n)) (hn : bytes.length = n) : Encodes s i obo n bytes :=
  ⟨_, he, State.encodeCycle_wrote h.ready.running (h.ready.firstFault_out hc ho h.room) (hc.views ▸ h.apart) h.cells hn⟩

end Sys2Proof.Machine
end

