-- ==== Sys2Proof/Laws/Parse.lean ====
section
/-! SUPPORT. The laws of the parse path: what an `ok` or a raise of a composed rule comes from, what the prologue hands to an
arm, and the content that padding leaves (46_payload_parse.md R210 to R222). -/

namespace Sys2Proof

theorem Result.map_eq_ok {α β : Type} {r : Result α} {f : α → β} {y : β} (h : r.map f = .ok y) :
    ∃ a, r = .ok a ∧ f a = y := by
  cases r with
  | ok a => exact ⟨a, rfl, by simpa [map] using h⟩
  | raise e => simp [map] at h

theorem Result.map_eq_raise {α β : Type} {r : Result α} {f : α → β} {e : ProtoError} (h : r.map f = .raise e) :
    r = .raise e := by
  cases r with
  | ok a => simp [map] at h
  | raise e' => simpa [map] using h

theorem Result.bind_eq_ok {α β : Type} {r : Result α} {f : α → Result β} {y : β} (h : r.bind f = .ok y) :
    ∃ a, r = .ok a ∧ f a = .ok y := by
  cases r with
  | ok a => exact ⟨a, rfl, h⟩
  | raise e => simp [bind] at h

theorem Result.bind_eq_raise {α β : Type} {r : Result α} {f : α → Result β} {e : ProtoError}
    (h : r.bind f = .raise e) : r = .raise e ∨ ∃ a, r = .ok a ∧ f a = .raise e := by
  cases r with
  | ok a => exact .inr ⟨a, rfl, h⟩
  | raise e' => exact .inl (by simpa [bind] using h)

namespace Machine

theorem kindOfTag_kindTag (k : Kind) : kindOfTag (kindTag k) = k := by cases k <;> rfl

theorem kindTag_kindOfTag {k : KindTag} (h : kindLegal k = true) : kindTag (kindOfTag k) = k := by
  revert h; revert k; decide

theorem has_padded (f : Byte) : has f paddedBit = f.getLsbD 3 := by revert f; decide

theorem has_priority (f : Byte) : has f priorityBit = f.getLsbD 5 := by revert f; decide

theorem minPayloadLength_eq (f : Byte) : minPayloadLength f = minLength f := by
  simp only [minPayloadLength, minLength, has_padded, has_priority]

theorem flagsNew_legal {b : Byte} (h : flagsLegal b = true) : flagsNew b = .ok b := by
  revert h; revert b; decide

theorem flagsNew_illegal {b : Byte} (h : flagsLegal b = false) : flagsNew b = .raise (.badFlag b) := by
  revert h; revert b; decide

theorem headerLegal_wire (k : Kind) (w : WireHeader) : headerLegal (wireFrameHeader k w) = flagsLegal w.flags := by
  cases k <;> simp [headerLegal, wireFrameHeader, kindTag, kindLegal]

/-- The region that the prologue hands to an arm. -/
def regionOf (h : FrameHeader) (v : View) : Region :=
  { r := { off := v.off, len := h.length.toNat }, pad := h.flags.getLsbD 3, pri := h.flags.getLsbD 5 }

theorem payloadPrologue_eq {h : FrameHeader} {v : View} (ha : ReachesArm h v) :
    payloadPrologue h v = .ok (regionOf h v) := by
  have hl := ha.2
  unfold payloadPrologue
  rw [if_neg (Nat.not_lt.2 ha.1), minPayloadLength_eq, if_neg (Nat.not_lt.2 hl), has_padded, has_priority]
  rfl

/-- A payload parse that gets past the prologue is its kind's arm. -/
theorem payloadParse_eq {wu : Bool} {ib : Buffer} {k : Kind} {h : FrameHeader} {v : View} (hk : h.kind = kindTag k)
    (ha : ReachesArm h v) : payloadParse wu ib h v = payloadArm wu ib k (regionOf h v) := by
  unfold payloadParse
  rw [payloadPrologue_eq ha, hk, kindOfTag_kindTag]
  rfl

theorem contentOf_fits {s : State} {h : FrameHeader} {v : View} (hp : PadFits s h v) :
    contentOf s.ib (regionOf h v) = .ok (content s h v) := by
  unfold contentOf regionOf content
  unfold PadFits at hp
  cases hb : h.flags.getLsbD 3 with
  | false => simp
  | true =>
    have hlt := hp hb
    simp only [if_true, padStrip]
    rw [if_neg (Nat.not_le.2 hlt)]
    rfl

theorem contentOf_overflows {s : State} {h : FrameHeader} {v : View} (hp : ¬PadFits s h v) :
    contentOf s.ib (regionOf h v) = .raise (.tooMuchPadding (s.ib v.off)) := by
  unfold contentOf regionOf
  unfold PadFits at hp
  push Not at hp
  simp only [hp.1, if_true, padStrip]
  rw [if_pos hp.2]

/-- A successful parse gives a payload of the header's kind (R37, R211). -/
theorem payloadTag_of_parse {wu : Bool} {ib : Buffer} {h : FrameHeader} {v : View} {pl : Payload}
    (hk : kindLegal h.kind = true) (hp : payloadParse wu ib h v = .ok pl) : payloadTag pl = h.kind := by
  rw [← kindTag_kindOfTag hk]
  unfold payloadParse at hp
  generalize kindOfTag h.kind = k at *
  obtain ⟨g, -, hp⟩ := Result.bind_eq_ok hp
  cases k <;> simp only [payloadArm] at hp
  · obtain ⟨a, -, rfl⟩ := Result.map_eq_ok hp; rfl
  · obtain ⟨a, -, hp⟩ := Result.bind_eq_ok hp
    obtain ⟨b, -, rfl⟩ := Result.map_eq_ok hp; rfl
  · obtain ⟨a, -, rfl⟩ := Result.map_eq_ok hp; rfl
  · unfold parseReset at hp; split at hp <;> cases hp; rfl
  · obtain ⟨a, -, rfl⟩ := Result.map_eq_ok hp; rfl
  · obtain ⟨a, -, hp⟩ := Result.bind_eq_ok hp
    split at hp <;> cases hp; rfl
  · unfold parsePing at hp; split at hp <;> cases hp; rfl
  · unfold parseGoAway at hp; split at hp <;> cases hp; rfl
  · unfold parseWindowUpdate at hp; split at hp <;> cases hp; rfl
  · cases hp; rfl
  · cases hp; rfl

/-- What the port decodes at a header view is what HDR_PARSE reads there (R91, R123, R170). -/
theorem decode_headerBytesAt (s : State) (v : View) (aw c : Nat) :
    match hdrParse s.ib v with
    | .raise e => decode aw (.frame c (headerBytesAt s.ib v)) = .error (.badHeader e)
    | .ok h =>
      ∃ k w, h = wireFrameHeader k w ∧ decode aw (.frame c (headerBytesAt s.ib v)) = .ok (wireInstr k w c) := by
  unfold hdrParse
  split_ifs with hlt
  · simp only [decode, headerBytesAt, Config.hdrLen] at *
    rw [Nat.min_eq_left (by omega)]
    have hl : (readBytes s.ib v.off v.len).length < 9 := by simpa using hlt
    generalize readBytes s.ib v.off v.len = l at *
    unfold decodeHeader
    split
    · simp at hl; omega
    · rfl
  · simp only [decode, headerBytesAt, Config.hdrLen] at *
    rw [Nat.min_eq_right (by omega)]
    simp only [readBytes, decodeHeader, Nat.add_assoc, Nat.reduceAdd]
    cases flagsNew (s.ib (v.off + 4)) with
    | raise e => rfl
    | ok f =>
      refine ⟨kindNew (s.ib (v.off + 3)), _, ?_, rfl⟩
      simp only [wireFrameHeader, u24Decode_eq, sidDecode_eq, be24, be31, Nat.add_assoc, Nat.reduceAdd]

end Machine

end Sys2Proof
end

