-- ==== Sys2Proof/Laws/Copy.lean ====
section
/-! SUPPORT. The laws of the copy from OB into IB: what a parse reads where an encode command's bytes stand. -/

namespace Sys2Proof.Machine

/-- The bytes that an encode command leaves are the bytes its statement names. -/
theorem Encodes.bytes_eq {s t : State} {i : Instr} {obo n : Nat} {bytes : List Byte} (h : Encodes s i obo n bytes)
    (he : exec i s = .next t) : readBytes t.ob obo n = bytes := by
  obtain ⟨t', h1, h2⟩ := h
  rw [he] at h1
  cases h1
  exact h2.bytes

theorem Copied.bytes_eq {t u : State} {obo a n : Nat} (h : Copied t obo u a n) :
    readBytes u.ib a n = readBytes t.ob obo n :=
  readBytes_congr h

theorem ib_of_bytes {u : State} {a n : Nat} {bs : List Byte} (h : readBytes u.ib a n = bs) (j : Nat) (hj : j < n) :
    u.ib (a + j) = bs.getD j 0 := by
  subst h
  rw [List.getD_eq_getElem _ _ (by simpa using hj), getElem_readBytes]

/-- Bytes given as two parts stand as two parts. -/
theorem readBytes_split {u : State} {a n k : Nat} {l1 l2 : List Byte} (h : readBytes u.ib a (k + n) = l1 ++ l2)
    (hk : l1.length = k) : readBytes u.ib a k = l1 ∧ readBytes u.ib (a + k) n = l2 := by
  rw [readBytes_append] at h
  exact List.append_inj h (by simp [hk])

theorem mask_eq_iff (x : BitVec 32) : x &&& Config.sidMask = x ↔ x.toNat < 2 ^ 31 := by
  have h1 : (x &&& Config.sidMask).toNat = x.toNat % 2 ^ 31 := by
    rw [BitVec.toNat_and, show Config.sidMask.toNat = 2 ^ 31 - 1 from rfl, Nat.and_two_pow_sub_one_eq_mod]
  constructor
  · intro h
    rw [← h, h1]
    exact Nat.mod_lt _ (by norm_num)
  · intro h
    apply BitVec.eq_of_toNat_eq
    rw [h1, Nat.mod_eq_of_lt h]

theorem mask_of_sidLegal {x : BitVec 32} (h : sidLegal x) : x &&& Config.sidMask = x := by
  apply BitVec.eq_of_getLsbD_eq
  intro i hi
  by_cases h31 : i = 31
  · subst h31
    rw [BitVec.getLsbD_and, h, Bool.false_and]
  · have hb : Config.sidMask.getLsbD i = true := by
      revert hi h31; revert i; decide
    rw [BitVec.getLsbD_and, hb, Bool.and_true]

theorem be32_of_bytes {s : State} {a : Nat} {x : BitVec 32} (h : readBytes s.ib a 4 = bytes32 x) : be32 s a = x := by
  have h0 := ib_of_bytes h 0 (by omega)
  have h1 := ib_of_bytes h 1 (by omega)
  have h2 := ib_of_bytes h 2 (by omega)
  have h3 := ib_of_bytes h 3 (by omega)
  simp only [bytes32, Nat.add_zero, List.getD_cons_zero, List.getD_cons_succ] at h0 h1 h2 h3
  rw [be32, h0, h1, h2, h3]
  apply BitVec.eq_of_getLsbD_eq
  intro i hi
  simp only [BitVec.getLsbD_append, BitVec.getLsbD_extractLsb']
  interval_cases i <;> simp

theorem be31_of_bytes {s : State} {a : Nat} {x : BitVec 32} (h : readBytes s.ib a 4 = bytes31 x) :
    be31 s a = x &&& Config.sidMask := by
  have h0 := ib_of_bytes h 0 (by omega)
  have h1 := ib_of_bytes h 1 (by omega)
  have h2 := ib_of_bytes h 2 (by omega)
  have h3 := ib_of_bytes h 3 (by omega)
  simp only [bytes31, Nat.add_zero, List.getD_cons_zero, List.getD_cons_succ] at h0 h1 h2 h3
  rw [be31, h0, h1, h2, h3]
  apply BitVec.eq_of_getLsbD_eq
  intro i hi
  simp only [BitVec.getLsbD_append, BitVec.getLsbD_extractLsb', BitVec.getLsbD_setWidth, BitVec.getLsbD_and,
    Config.sidMask]
  interval_cases i <;> simp

theorem be24_of_bytes {s : State} {a : Nat} {x : BitVec 32}
    (h : readBytes s.ib a 3 = [x.extractLsb' 16 8, x.extractLsb' 8 8, x.extractLsb' 0 8]) :
    be24 s a = x.setWidth 24 := by
  have h0 := ib_of_bytes h 0 (by omega)
  have h1 := ib_of_bytes h 1 (by omega)
  have h2 := ib_of_bytes h 2 (by omega)
  simp only [Nat.add_zero, List.getD_cons_zero, List.getD_cons_succ] at h0 h1 h2
  rw [be24, h0, h1, h2]
  apply BitVec.eq_of_getLsbD_eq
  intro i hi
  simp only [BitVec.getLsbD_append, BitVec.getLsbD_extractLsb', BitVec.getLsbD_setWidth]
  interval_cases i <;> simp

theorem be16_of_bytes {s : State} {a : Nat} {x : BitVec 16}
    (h : readBytes s.ib a 2 = [x.extractLsb' 8 8, x.extractLsb' 0 8]) : be16 s a = x := by
  have h0 := ib_of_bytes h 0 (by omega)
  have h1 := ib_of_bytes h 1 (by omega)
  simp only [Nat.add_zero, List.getD_cons_zero, List.getD_cons_succ] at h0 h1
  rw [be16, h0, h1]
  apply BitVec.eq_of_getLsbD_eq
  intro i hi
  simp only [BitVec.getLsbD_append, BitVec.getLsbD_extractLsb']
  interval_cases i <;> simp

theorem be64_of_bytes {s : State} {a : Nat} {hi lo : BitVec 32}
    (h : readBytes s.ib a 8 = bytes32 hi ++ bytes32 lo) : be64 s a = hi ++ lo := by
  obtain ⟨h1, h2⟩ := readBytes_split (k := 4) (n := 4) h rfl
  rw [be64, be32_of_bytes h1, be32_of_bytes h2]

/-- A 64-bit value as its two halves. -/
theorem halves_append (x : BitVec 64) : x.extractLsb' 32 32 ++ x.extractLsb' 0 32 = x := by
  apply BitVec.eq_of_getLsbD_eq
  intro i hi
  simp only [BitVec.getLsbD_append, BitVec.getLsbD_extractLsb']
  split_ifs with h
  · simp [h]
  · rw [show 32 + (i - 32) = i by omega]
    simp
    omega

theorem prioField_of_bytes {s : State} {a : Nat} {q : Priority} (h : readBytes s.ib a 5 = bytesPrio q) :
    prioField s a = { q with dependency := q.dependency &&& Config.sidMask } := by
  have h0 := ib_of_bytes h 0 (by omega)
  have h1 := ib_of_bytes h 1 (by omega)
  have h2 := ib_of_bytes h 2 (by omega)
  have h3 := ib_of_bytes h 3 (by omega)
  have h4 := ib_of_bytes h 4 (by omega)
  simp only [bytesPrio, Nat.add_zero, List.getD_cons_zero, List.getD_cons_succ] at h0 h1 h2 h3 h4
  have hd : be31 s a = q.dependency &&& Config.sidMask := by
    rw [be31, h0, h1, h2, h3]
    apply BitVec.eq_of_getLsbD_eq
    intro i hi
    simp only [BitVec.getLsbD_append, BitVec.getLsbD_extractLsb', BitVec.getLsbD_setWidth, BitVec.getLsbD_and,
      BitVec.getLsbD_or, Config.sidMask]
    cases q.exclusive <;> interval_cases i <;> simp
  have he : ((q.dependency.extractLsb' 24 8 &&& 0x7F#8) ||| (if q.exclusive then 0x80#8 else 0#8)).getLsbD 7 =
      q.exclusive := by
    cases q.exclusive <;> simp
  simp only [prioField, hd, h4, h0, he]

/-! ### Setting records -/

theorem beNat_cons (b : Byte) (bs : List Byte) : beNat (b :: bs) = b.toNat * 256 ^ bs.length + beNat bs := by
  have h (acc : Nat) : bs.foldl (fun acc b => acc * 256 + b.toNat) acc = acc * 256 ^ bs.length + beNat bs := by
    induction bs generalizing acc with
    | nil => simp [beNat]
    | cons c cs ih =>
      have h0 := ih (0 * 256 + c.toNat)
      rw [beNat, List.foldl_cons, List.foldl_cons, ih, h0, List.length_cons]
      ring
  have h1 := h (0 * 256 + b.toNat)
  rw [beNat, List.foldl_cons, h1]
  ring

theorem beNat_lt (bs : List Byte) : beNat bs < 256 ^ bs.length := by
  induction bs with
  | nil => simp [beNat]
  | cons b bs ih =>
    have hb : b.toNat ≤ 255 := Nat.le_of_lt_succ b.isLt
    have := Nat.mul_le_mul_right (256 ^ bs.length) hb
    rw [beNat_cons, List.length_cons, pow_succ]
    omega

theorem beBytes_add (n k v : Nat) : beBytes n (k * 256 ^ n + v) = beBytes n v := by
  induction n generalizing k v with
  | zero => rfl
  | succ n ih =>
    have h : (k * 256 ^ (n + 1) + v) / 256 ^ n = v / 256 ^ n + k * 256 := by
      rw [pow_succ, show k * (256 ^ n * 256) + v = v + k * 256 * 256 ^ n by ring,
        Nat.add_mul_div_right _ _ (by positivity)]
    rw [beBytes, beBytes, h, show k * 256 ^ (n + 1) = k * 256 * 256 ^ n by ring, ih]
    congr 1
    apply BitVec.eq_of_toNat_eq
    simp

/-- Writing what was read gives the bytes that were read. -/
theorem beBytes_beNat (bs : List Byte) : beBytes bs.length (beNat bs) = bs := by
  induction bs with
  | nil => rfl
  | cons b bs ih =>
    have hlt := beNat_lt bs
    rw [List.length_cons, beBytes, beNat_cons, beBytes_add, ih, Nat.add_comm,
      Nat.add_mul_div_right _ _ (by positivity), Nat.div_eq_of_lt hlt, Nat.zero_add]
    simp

theorem memRead_lt (ib : Buffer) (a n : Nat) : memRead ib a n < 256 ^ n := by
  simpa [memRead] using beNat_lt (readBytes ib a n)

theorem beBytes_memRead (ib : Buffer) (a n : Nat) : beBytes n (memRead ib a n) = readBytes ib a n := by
  simpa [memRead] using beBytes_beNat (readBytes ib a n)

/-- The bytes of a record that was read are the bytes it was read from. -/
theorem settingBytes_settingAt (ib : Buffer) (v : View) (i : Nat) :
    settingBytes (settingAt ib v i) = readBytes ib (v.off + 6 * i) 6 := by
  have h2 := memRead_lt ib (v.off + 6 * i) 2
  have h4 := memRead_lt ib (v.off + 6 * i + 2) 4
  simp only [settingBytes, settingAt, u16Bytes, u32Bytes, u16Decode, u32Decode, BitVec.toNat_ofNat, Config.settingLen]
  rw [Nat.mod_eq_of_lt (by simpa using h2), Nat.mod_eq_of_lt (by simpa using h4), beBytes_memRead, beBytes_memRead,
    ← readBytes_append]

/-- Encoding a view of whole records copies it (R201, R245). -/
theorem seqBytes_view (ib : Buffer) {v : View} (h : v.len % 6 = 0) :
    seqBytes ib (.view v) = readBytes ib v.off v.len := by
  have hn (n : Nat) : ((List.range n).map (settingAt ib v)).flatMap settingBytes = readBytes ib v.off (6 * n) := by
    induction n with
    | zero => rfl
    | succ n ih =>
      rw [List.range_succ, List.map_append, List.flatMap_append, ih, Nat.mul_succ, readBytes_append,
        List.map_singleton, List.flatMap_singleton, settingBytes_settingAt]
  have h6 : 6 * (v.len / 6) = v.len := by omega
  rw [seqBytes, seqRecords, Config.settingLen, hn, h6]

end Sys2Proof.Machine
end

