-- ==== Sys2Proof/Laws/PerInstr.lean ====
section
/-! SUPPORT. A statement about every instruction as syntax: the opcode field of its encoding is the code that the opcode
table gives it (30_encoding.md R120 for a command, R93 for a frame kind, whose code is the kind byte). -/

namespace Sys2Proof.Laws.OpcodeField

/-- The code of an instruction: the opcode of R120, or the kind byte of R93 (255 for Unregistered, R152). -/
def code : Instr → Byte
  | .flagsNew _ => 0x01#8
  | .flagsHas _ _ => 0x02#8
  | .kindNew _ => 0x03#8
  | .kindEncode _ => 0x04#8
  | .sidParse _ => 0x05#8
  | .sidEncode _ _ => 0x06#8
  | .hdrParse _ => 0x07#8
  | .hdrEncode _ _ => 0x08#8
  | .padStrip _ => 0x09#8
  | .prioParse _ _ => 0x0A#8
  | .prioEncode _ _ => 0x0B#8
  | .settingsParse _ => 0x0C#8
  | .settingsEncode _ _ => 0x0D#8
  | .settingLookup _ => 0x0E#8
  | .payloadParse _ _ => 0x10#8
  | .payloadEncode _ _ => 0x11#8
  | .payloadLen _ => 0x12#8
  | .frameParse _ _ => 0x13#8
  | .frameEncode _ _ => 0x14#8
  | .frameLen _ => 0x15#8
  | .kindData _ _ => 0x00#8
  | .kindHeaders _ _ => 0x01#8
  | .kindPriority _ _ => 0x02#8
  | .kindReset _ _ => 0x03#8
  | .kindSettings _ _ => 0x04#8
  | .kindPushPromise _ _ => 0x05#8
  | .kindPing _ _ => 0x06#8
  | .kindGoAway _ _ => 0x07#8
  | .kindWindowUpdate _ _ => 0x08#8
  | .kindContinuation _ _ => 0x09#8
  | .kindUnregistered _ _ => 0xFF#8

/-- The opcode field of what the encoder writes: the low byte of a record, the fourth byte of a header. -/
def field : Fetched → Option Byte
  | .record bits => some (BitVec.ofNat 8 bits)
  | .frame _ header => header[3]?

/-- Whatever the operands and the width of offsets, the opcode field is the instruction's code. -/
def Statement (i : Instr) : Prop := ∀ aw : Nat, field (encode aw i) = some (code i)

theorem field_putBits (opc : Byte) (rest : Nat) : field (.record (putBits opc rest)) = some opc := by
  simp only [field, putBits, Option.some.injEq]
  apply BitVec.eq_of_toNat_eq
  simpa [Nat.shiftLeft_eq] using opc.isLt

theorem flagsNew (b : Byte) : Statement (.flagsNew b) := fun _ => field_putBits _ _
theorem flagsHas (f : Byte) (sel : BitVec 2) : Statement (.flagsHas f sel) := fun _ => field_putBits _ _
theorem kindNew (b : Byte) : Statement (.kindNew b) := fun _ => field_putBits _ _
theorem kindEncode (k : KindTag) : Statement (.kindEncode k) := fun _ => field_putBits _ _
theorem sidParse (v : View) : Statement (.sidParse v) := fun _ => field_putBits _ _
theorem sidEncode (sid : BitVec 32) (obo : Nat) : Statement (.sidEncode sid obo) := fun _ => field_putBits _ _
theorem hdrParse (v : View) : Statement (.hdrParse v) := fun _ => field_putBits _ _
theorem hdrEncode (h : FrameHeader) (obo : Nat) : Statement (.hdrEncode h obo) := fun _ => field_putBits _ _
theorem padStrip (v : View) : Statement (.padStrip v) := fun _ => field_putBits _ _
theorem prioParse (p : Bool) (v : View) : Statement (.prioParse p v) := fun _ => field_putBits _ _
theorem prioEncode (p : Priority) (obo : Nat) : Statement (.prioEncode p obo) := fun _ => field_putBits _ _
theorem settingsParse (v : View) : Statement (.settingsParse v) := fun _ => field_putBits _ _
theorem settingsEncode (q : SettingSeq) (obo : Nat) : Statement (.settingsEncode q obo) := fun _ => field_putBits _ _
theorem settingLookup (id : BitVec 16) : Statement (.settingLookup id) := fun _ => field_putBits _ _
theorem payloadParse (h : FrameHeader) (v : View) : Statement (.payloadParse h v) := fun _ => field_putBits _ _
theorem payloadEncode (pl : Payload) (obo : Nat) : Statement (.payloadEncode pl obo) := fun _ => field_putBits _ _
theorem payloadLen (pl : Payload) : Statement (.payloadLen pl) := fun _ => field_putBits _ _
theorem frameParse (h : FrameHeader) (v : View) : Statement (.frameParse h v) := fun _ => field_putBits _ _
theorem frameEncode (fr : Frame) (obo : Nat) : Statement (.frameEncode fr obo) := fun _ => field_putBits _ _
theorem frameLen (fr : Frame) : Statement (.frameLen fr) := fun _ => field_putBits _ _
theorem kindData (w : WireHeader) (c : Nat) : Statement (.kindData w c) := fun _ => rfl
theorem kindHeaders (w : WireHeader) (c : Nat) : Statement (.kindHeaders w c) := fun _ => rfl
theorem kindPriority (w : WireHeader) (c : Nat) : Statement (.kindPriority w c) := fun _ => rfl
theorem kindReset (w : WireHeader) (c : Nat) : Statement (.kindReset w c) := fun _ => rfl
theorem kindSettings (w : WireHeader) (c : Nat) : Statement (.kindSettings w c) := fun _ => rfl
theorem kindPushPromise (w : WireHeader) (c : Nat) : Statement (.kindPushPromise w c) := fun _ => rfl
theorem kindPing (w : WireHeader) (c : Nat) : Statement (.kindPing w c) := fun _ => rfl
theorem kindGoAway (w : WireHeader) (c : Nat) : Statement (.kindGoAway w c) := fun _ => rfl
theorem kindWindowUpdate (w : WireHeader) (c : Nat) : Statement (.kindWindowUpdate w c) := fun _ => rfl
theorem kindContinuation (w : WireHeader) (c : Nat) : Statement (.kindContinuation w c) := fun _ => rfl
theorem kindUnregistered (w : WireHeader) (c : Nat) : Statement (.kindUnregistered w c) := fun _ => rfl

end Sys2Proof.Laws.OpcodeField
end

