-- ==== Sys2Proof/Tests/Slice0.lean ====
section
/-! SUPPORT. The model's own tests: the words of every instruction written out from 30_encoding.md, ill-formed terms that
WellFormed refuses, vectors of 95_test_vectors.md (each expected value is the vector's), and for every statement with
hypotheses a witness that meets them. -/

namespace Sys2Proof.Tests

open Sys2Proof.Machine

/-! ### A small launch -/

/-- IB of 64 bytes at cell 0, OB of 32 bytes at cell 64. -/
def small : Params := { addrW := 32, iblen := 64, obcap := 32, wuMask := false, ibBase := 0, obBase := 64 }

/-- The small launch after reset, with bytes in IB from `a` up. -/
def loadedAt (a : Nat) (bytes : List Byte) : State :=
  { State.launched small with mem := Memory.writeBytes [] a bytes }

/-- The small launch after reset, with bytes at the start of IB. -/
abbrev loaded (bytes : List Byte) : State := loadedAt 0 bytes

/-- The same block with the given inputs to come. -/
abbrev withPort (s : State) (p : List PortInput) : State := { s with port := p }

/-- The next state, where there is one. -/
def next (o : Host.Outcome State Fault Refusal) : Option State :=
  match o with
  | .next s => some s
  | .fault _ => none
  | .refused _ => none

/-- STATUS and RES after an instruction. -/
def after (i : Instr) (s : State) : Option (BitVec 32 × Res) := (next (exec i s)).map fun t => (t.status, t.res)

/-- STATUS, RES and the first `n` bytes of OB after an instruction. -/
def wrote (n : Nat) (i : Instr) (s : State) : Option (BitVec 32 × Res × List Byte) :=
  (next (exec i s)).map fun t => (t.status, t.res, readBytes t.ob 0 n)

def headerOf (len : BitVec 32) (kind : KindTag) (flags : Byte) (sid : BitVec 32) : FrameHeader :=
  { length := len, kind := kind, flags := flags, streamId := sid }

def wireOf (len : BitVec 24) (flags : Byte) (sid : BitVec 31) : WireHeader :=
  { length := len, flags := flags, streamId := sid }

def prioOf (e : Bool) (d : BitVec 32) (w : Byte) : Priority := { exclusive := e, dependency := d, weight := w }

def frameOf (h : FrameHeader) (pl : Payload) : Frame := { header := h, payload := pl }

/-! ### WellFormed refuses an ill-formed term for each check -/

theorem test_wf_refuses_flags : (Instr.flagsHas 0x02#8 0#2).wf 32 = false := by decide
theorem test_wf_refuses_kind : (Instr.kindEncode 11#4).wf 32 = false := by decide
theorem test_wf_refuses_header_flags : (Instr.hdrEncode (headerOf 0#32 0#4 0x80#8 0#32) 0).wf 32 = false := by decide
theorem test_wf_refuses_header_kind : (Instr.payloadParse (headerOf 0#32 15#4 0#8 0#32) ⟨0, 0⟩).wf 32 = false := by
  decide
theorem test_wf_refuses_partial_settings : (Instr.settingsEncode (.view ⟨0, 7⟩) 0).wf 32 = false := by decide
theorem test_wf_refuses_payload_tag : (Instr.payloadLen (.illegal 0)).wf 32 = false := by decide
theorem test_wf_refuses_frame_part :
    (Instr.frameLen (frameOf (headerOf 0#32 4#4 0#8 0#32) (.settings (.view ⟨0, 5⟩)))).wf 32 = false := by decide
theorem test_wf_refuses_wide_offset : (Instr.sidParse ⟨2 ^ 32, 0⟩).wf 32 = false := by decide
theorem test_wf_refuses_wide_length : (Instr.payloadLen (.data ⟨0, 2 ^ 32⟩)).wf 32 = false := by decide
theorem test_wf_refuses_wide_obo : (Instr.sidEncode 0#32 (2 ^ 32)).wf 32 = false := by decide
theorem test_wf_refuses_wire_flags : (Instr.kindPing (wireOf 8#24 0x40#8 0#31) 0).wf 32 = false := by decide
theorem test_wf_accepts :
    (Instr.frameLen (frameOf (headerOf 0#32 4#4 0x2D#8 0#32) (.settings (.view ⟨0, 6⟩)))).wf 32 = true := by decide

/-! ### Words written out from R120 and R121, `ADDR_W` = 32 (fields from bit 8 up, in R120's order) -/

theorem test_word_flagsNew : decode 32 (.record 0x2501) = .ok (.flagsNew 0x25#8) := by decide
theorem test_word_flagsHas : decode 32 (.record 0x22802) = .ok (.flagsHas 0x28#8 2#2) := by decide
theorem test_word_kindNew : decode 32 (.record 0x0403) = .ok (.kindNew 4#8) := by decide
theorem test_word_kindEncode : decode 32 (.record 0xA04) = .ok (.kindEncode 10#4) := by decide
theorem test_word_sidParse : decode 32 (.record 0x00000004_00000010_05) = .ok (.sidParse ⟨16, 4⟩) := by decide
theorem test_word_sidEncode : decode 32 (.record 0x00000004_80000005_06) = .ok (.sidEncode 0x80000005#32 4) := by decide
theorem test_word_hdrParse : decode 32 (.record 0x00000009_0000000F_07) = .ok (.hdrParse ⟨15, 9⟩) := by decide
/-- obo 2, stream id 7, flags 0x01, kind 4, length 6. -/
theorem test_word_hdrEncode :
    decode 32 (.record 0x00000002_00000007_01_4_00000006_08) = .ok (.hdrEncode (headerOf 6#32 4#4 0x01#8 7#32) 2) := by
  decide
theorem test_word_padStrip : decode 32 (.record 0x00000005_00000003_09) = .ok (.padStrip ⟨3, 5⟩) := by decide
/-- present 1 in bit 8, then off 3 from bit 9 and len 7 from bit 41: 1 + 3 · 2 + 7 · 2^33. -/
theorem test_word_prioParse : decode 32 (.record 0xE_00000007_0A) = .ok (.prioParse true ⟨3, 7⟩) := by decide
/-- E 1, dependency 3, weight 15, obo 1: 1 + 3 · 2 + 15 · 2^33 + 1 · 2^41. -/
theorem test_word_prioEncode : decode 32 (.record 0x21E_00000007_0B) = .ok (.prioEncode (prioOf true 3#32 15#8) 1) := by
  decide
theorem test_word_settingsParse : decode 32 (.record 0x00000006_00000002_0C) = .ok (.settingsParse ⟨2, 6⟩) := by decide
/-- form 1, more 1, identifier 3, value 100, more 0, obo 1: 1 + 2 + 3 · 4 + 100 · 2^18 + 1 · 2^51. -/
theorem test_word_settingsEncode_list :
    decode 32 (.record 0x8_00000190_000F_0D) = .ok (.settingsEncode (.list [⟨3#16, 100#32⟩]) 1) := by decide
/-- form 0, off 2, len 6, obo 1: 2 · 2 + 6 · 2^33 + 1 · 2^65. -/
theorem test_word_settingsEncode_view :
    decode 32 (.record 0x2_0000000C_00000004_0D) = .ok (.settingsEncode (.view ⟨2, 6⟩) 1) := by decide
theorem test_word_settingLookup : decode 32 (.record 0x00030E) = .ok (.settingLookup 3#16) := by decide
theorem test_word_payloadParse :
    decode 32 (.record 0x00000004_00000009_00000001_08_0_00000002_10) =
      .ok (.payloadParse (headerOf 2#32 0#4 0x08#8 1#32) ⟨9, 4⟩) := by decide
theorem test_word_payloadEncode :
    decode 32 (.record 0x00000005_00000008_3_11) = .ok (.payloadEncode (.reset 8#32) 5) := by decide
theorem test_word_payloadLen :
    decode 32 (.record 0x00000002_00000001_00000003_00000005_7_12) =
      .ok (.payloadLen (.goAway 5#32 3#32 ⟨1, 2⟩)) := by decide
theorem test_word_frameParse :
    decode 32 (.record 0x00000017_00000009_00000000_00_4_00000006_13) =
      .ok (.frameParse (headerOf 6#32 4#4 0x00#8 0#32) ⟨9, 23⟩) := by decide
theorem test_word_frameEncode :
    decode 32 (.record 0x00000002_00000008_3_00000001_00_3_00000004_14) =
      .ok (.frameEncode (frameOf (headerOf 4#32 3#4 0x00#8 1#32) (.reset 8#32)) 2) := by decide
/-- Headers with a priority block: tag 1, present 1, E 1, dependency 3, weight 15, off 0, len 3:
1 + 2 + 3 · 4 + 15 · 2^34 + 3 · 2^74 above the tag. -/
theorem test_word_frameLen :
    decode 32 (.record 0xC_0000_0000_3C_0000_000F_1_00000003_24_1_00000008_15) =
      .ok (.frameLen (frameOf (headerOf 8#32 1#4 0x24#8 3#32) (.headers (some (prioOf true 3#32 15#8)) ⟨0, 3⟩))) := by
  decide

/-! ### Headers written out from R90: length, kind byte, flags, reserved bit and stream id -/

theorem test_word_kindData :
    decode 32 (.frame 0 [0#8, 1#8, 2#8, 0x00#8, 0x08#8, 0x80#8, 0#8, 0#8, 1#8]) =
      .ok (.kindData (wireOf 0x000102#24 0x08#8 1#31) 0) := by decide
theorem test_word_kindHeaders :
    decode 32 (.frame 3 [0#8, 0#8, 11#8, 0x01#8, 0x28#8, 0#8, 0#8, 0#8, 3#8]) =
      .ok (.kindHeaders (wireOf 11#24 0x28#8 3#31) 3) := by decide
theorem test_word_kindPriority :
    decode 32 (.frame 0 [0#8, 0#8, 5#8, 0x02#8, 0#8, 0x7F#8, 0xFF#8, 0xFF#8, 0xFF#8]) =
      .ok (.kindPriority (wireOf 5#24 0#8 0x7FFFFFFF#31) 0) := by decide
theorem test_word_kindReset :
    decode 32 (.frame 0 [0xFF#8, 0xFF#8, 0xFF#8, 0x03#8, 0#8, 0#8, 0#8, 1#8, 0#8]) =
      .ok (.kindReset (wireOf 0xFFFFFF#24 0#8 256#31) 0) := by decide
theorem test_word_kindSettings :
    decode 32 (.frame 15 [0#8, 0#8, 6#8, 0x04#8, 0x01#8, 0#8, 0#8, 0#8, 0#8]) =
      .ok (.kindSettings (wireOf 6#24 0x01#8 0#31) 15) := by decide
theorem test_word_kindPushPromise :
    decode 32 (.frame 0 [0#8, 0#8, 7#8, 0x05#8, 0x0C#8, 0#8, 0#8, 0#8, 9#8]) =
      .ok (.kindPushPromise (wireOf 7#24 0x0C#8 9#31) 0) := by decide
theorem test_word_kindPing :
    decode 32 (.frame 0 [0#8, 0#8, 8#8, 0x06#8, 0x01#8, 0#8, 0#8, 0#8, 0#8]) =
      .ok (.kindPing (wireOf 8#24 0x01#8 0#31) 0) := by decide
theorem test_word_kindGoAway :
    decode 32 (.frame 0 [0#8, 0#8, 10#8, 0x07#8, 0#8, 0#8, 0#8, 0#8, 0#8]) =
      .ok (.kindGoAway (wireOf 10#24 0#8 0#31) 0) := by decide
theorem test_word_kindWindowUpdate :
    decode 32 (.frame 0 [0#8, 0#8, 4#8, 0x08#8, 0#8, 0x81#8, 0#8, 0#8, 0#8]) =
      .ok (.kindWindowUpdate (wireOf 4#24 0#8 0x01000000#31) 0) := by decide
theorem test_word_kindContinuation :
    decode 32 (.frame 0 [0#8, 0#8, 3#8, 0x09#8, 0x2D#8, 0#8, 0#8, 0#8, 2#8]) =
      .ok (.kindContinuation (wireOf 3#24 0x2D#8 2#31) 0) := by decide
theorem test_word_kindUnregistered :
    decode 32 (.frame 0 [0#8, 0#8, 2#8, 0xC8#8, 0#8, 0x80#8, 0#8, 0#8, 7#8]) =
      .ok (.kindUnregistered (wireOf 2#24 0#8 7#31) 0) := by decide

theorem test_decode_rejects_opcode : decode 32 (.record 0xFF0F) = .error (.badOpcode 0x0F#8) := by decide
theorem test_decode_rejects_flags :
    decode 32 (.frame 0 [0#8, 0#8, 0#8, 0#8, 0x02#8, 0#8, 0#8, 0#8, 0#8]) = .error (.badHeader (.badFlag 2#8)) := by decide
/-- Short is checked before the flag byte (R170). -/
theorem test_decode_rejects_short :
    decode 32 (.frame 0 [0#8, 0#8, 0#8, 0#8, 0x02#8, 0#8, 0#8, 0#8]) = .error (.badHeader .short) := by decide

/-- The match byte of every row of the opcode table, placed where the step fetches after reset, runs as the first
instruction. -/
theorem test_tableWords_run :
    [0x00, 0x01, 0x02, 0x03, 0x04, 0x05, 0x06, 0x07, 0x08, 0x09, 0x0A, 0x0B, 0x0C, 0x0D, 0x0E, 0x10, 0x11, 0x12, 0x13,
      0x14, 0x15, 0x20, 0x40, 0x80].all (fun w =>
      (next (step (State.reset.withFetchWord 8 w))).any fun t => t.port == [] && !t.faulted) = true := by decide

theorem test_tableWord_opcode : decodeTableWord 8 0x13 = some (.frameParse (headerOf 0#32 0#4 0#8 0#32) ⟨0, 0⟩) := by
  decide
theorem test_tableWord_kind : decodeTableWord 8 0x00 = some (.kindData (wireOf 0#24 0#8 0#31) 0) := by decide

/-! ### Vectors of 95_test_vectors.md -/

theorem test_flagsNew_valid : after (.flagsNew 0x2D#8) (loaded []) = some (0#32, .flags 0x2D#8) := by decide
theorem test_flagsNew_bad : after (.flagsNew 0x2F#8) (loaded []) = some (0x00002F02#32, .none) := by decide
theorem test_flagsHas : after (.flagsHas 0x28#8 3#2) (loaded []) = some (0#32, .bool true) := by decide
theorem test_flagsHas_clear : after (.flagsHas 0x28#8 0#2) (loaded []) = some (0#32, .bool false) := by decide
theorem test_kindNew_last : after (.kindNew 9#8) (loaded []) = some (0#32, .kind .continuation) := by decide
theorem test_kindNew_first_unregistered : after (.kindNew 10#8) (loaded []) = some (0#32, .kind .unregistered) := by
  decide
theorem test_kindEncode : after (.kindEncode 8#4) (loaded []) = some (0#32, .byte 8#8) := by decide
theorem test_kindEncode_unregistered : after (.kindEncode 10#4) (loaded []) = some (0#32, .byte 0xFF#8) := by decide
theorem test_sidParse : after (.sidParse ⟨4, 4⟩) (loadedAt 4 [0xFF#8, 0xFF#8, 0xFF#8, 0xFF#8]) =
    some (0#32, .sid 0x7FFFFFFF#32) := by decide
theorem test_sidParse_short : after (.sidParse ⟨0, 3⟩) (loaded [0#8, 0#8, 1#8]) = some (1#32, .none) := by decide
theorem test_sidEncode : wrote 5 (.sidEncode 0x80000005#32 0) (loaded []) =
    some (0#32, .count 4, [0#8, 0#8, 0#8, 5#8, 0#8]) := by decide
theorem test_hdrParse : after (.hdrParse ⟨0, 9⟩)
      (loaded [0xFF#8, 0xFF#8, 0xFF#8, 9#8, 0x2D#8, 0xFF#8, 0xFF#8, 0xFF#8, 0xFF#8]) =
    some (0#32, .header (headerOf 16777215#32 9#4 0x2D#8 0x7FFFFFFF#32)) := by decide
theorem test_hdrParse_short_first : after (.hdrParse ⟨0, 8⟩)
      (loaded [0#8, 0#8, 0#8, 0#8, 2#8, 0#8, 0#8, 0#8]) = some (1#32, .none) := by decide
theorem test_hdrEncode : wrote 9 (.hdrEncode (headerOf 0x01000006#32 10#4 0#8 0x80000001#32) 0) (loaded []) =
    some (0#32, .count 9, [0#8, 0#8, 6#8, 0xFF#8, 0#8, 0#8, 0#8, 0#8, 1#8]) := by decide
theorem test_padStrip : after (.padStrip ⟨0, 5⟩) (loaded [2#8, 0x41#8, 0x42#8, 0#8, 0#8]) =
    some (0#32, .view ⟨1, 2⟩) := by decide
theorem test_padStrip_boundary : after (.padStrip ⟨0, 3⟩) (loaded [3#8, 0#8, 0#8]) = some (0x00000304#32, .none) := by
  decide
theorem test_prioParse : after (.prioParse true ⟨0, 7⟩) (loaded [0x80#8, 0#8, 0#8, 3#8, 0x0F#8, 0x68#8, 0x69#8]) =
    some (0#32, .prio ⟨5, 2⟩ (some (prioOf true 3#32 15#8))) := by decide
theorem test_prioParse_short : after (.prioParse true ⟨0, 4⟩) (loaded [0#8, 0#8, 0#8, 1#8]) = some (1#32, .none) := by
  decide
theorem test_prioEncode : wrote 5 (.prioEncode (prioOf true 3#32 15#8) 0) (loaded []) =
    some (0#32, .count 5, [0x80#8, 0#8, 0#8, 3#8, 0x0F#8]) := by decide
theorem test_prioEncode_masks : wrote 5 (.prioEncode (prioOf false 0x80000001#32 7#8) 0) (loaded []) =
    some (0#32, .count 5, [0#8, 0#8, 0#8, 1#8, 7#8]) := by decide
theorem test_settingsParse : after (.settingsParse ⟨0, 12⟩) (loaded []) = some (0#32, .settings ⟨0, 12⟩) := by decide
theorem test_settingsParse_partial : after (.settingsParse ⟨0, 7⟩) (loaded []) = some (6#32, .none) := by decide
theorem test_settingsEncode : wrote 12 (.settingsEncode (.list [⟨3#16, 100#32⟩, ⟨4#16, 65535#32⟩]) 0) (loaded []) =
    some (0#32, .count 12,
      [0#8, 3#8, 0#8, 0#8, 0#8, 0x64#8, 0#8, 4#8, 0#8, 0#8, 0xFF#8, 0xFF#8]) := by decide
theorem test_settingsEncode_empty : wrote 1 (.settingsEncode (.list []) 0) (loaded []) =
    some (0#32, .count 0, [0#8]) := by decide
theorem test_settingLookup_known : after (.settingLookup 5#16) (loaded []) = some (0#32, .name (.known 5#16)) := by
  decide
theorem test_settingLookup_other : after (.settingLookup 6#16) (loaded []) =
    some (0#32, .name (.unrecognized 6#16)) := by decide
theorem test_payloadParse_trailing : after (.payloadParse (headerOf 2#32 0#4 0#8 1#32) ⟨0, 4⟩)
      (loaded [0x68#8, 0x69#8, 0xFF#8, 0xFF#8]) = some (0#32, .payload (.data ⟨0, 2⟩)) := by decide
/-- Step 1 (Short) comes before step 3 (R312). -/
theorem test_payloadParse_order : after (.payloadParse (headerOf 3#32 3#4 0x20#8 1#32) ⟨0, 2⟩) (loaded []) =
    some (1#32, .none) := by decide
theorem test_payloadEncode_headers :
    wrote 8 (.payloadEncode (.headers (some (prioOf true 3#32 15#8)) ⟨2, 3⟩) 0)
      (loaded [0x68#8, 0x69#8, 0x41#8, 0x42#8, 0x43#8]) =
    some (0#32, .count 8, [0x80#8, 0#8, 0#8, 3#8, 0x0F#8, 0x41#8, 0x42#8, 0x43#8]) := by decide
theorem test_payloadEncode_goAway :
    wrote 8 (.payloadEncode (.goAway 0x80000005#32 0x80000000#32 ⟨0, 0⟩) 0) (loaded []) =
    some (0#32, .count 8, [0#8, 0#8, 0#8, 5#8, 0x80#8, 0#8, 0#8, 0#8]) := by decide
theorem test_payloadLen : after (.payloadLen (.goAway 1#32 0#32 ⟨0, 9⟩)) (loaded []) = some (0#32, .count 17) := by
  decide
theorem test_frameParse : after (.frameParse (headerOf 6#32 4#4 0#8 0#32) ⟨0, 6⟩) (loaded []) =
    some (0#32, .frame (frameOf (headerOf 6#32 4#4 0#8 0#32) (.settings (.view ⟨0, 6⟩)))) := by decide
/-- The stored length 0 is written, not the payload's (D13). -/
theorem test_frameEncode : wrote 13 (.frameEncode (frameOf (headerOf 0#32 3#4 0#8 1#32) (.reset 8#32)) 0) (loaded []) =
    some (0#32, .count 13, [0#8, 0#8, 0#8, 3#8, 0#8, 0#8, 0#8, 0#8, 1#8, 0#8, 0#8, 0#8, 8#8]) := by decide
theorem test_frameLen_mismatch : after (.frameLen (frameOf (headerOf 8#32 6#4 0#8 0#32) (.reset 1#32))) (loaded []) =
    some (0x00070000#32, .none) := by decide
theorem test_frameLen : after (.frameLen (frameOf (headerOf 0#32 0#4 0#8 0#32) (.data ⟨0, 0⟩))) (loaded []) =
    some (0#32, .count 9) := by decide
/-- BAD_OPERAND before OB_BOUNDS (R311). -/
theorem test_fault_order : after (.hdrEncode (headerOf 0#32 0#4 0x02#8 0#32) 32) (loaded []) =
    some (0x000B0000#32, .none) := by decide
/-- The empty view at the end of IB is inside it. -/
theorem test_empty_view_at_end : after (.hdrParse ⟨64, 0⟩) (loaded []) = some (1#32, .none) := by decide

/-! The arms, each as the frame's own instruction: the payload stands at `IB[9 ..]`, the view is `<9, 55>`. -/

theorem test_kindData : after (.kindData (wireOf 5#24 0x08#8 1#31) 0) (loadedAt 9 [2#8, 0x68#8, 0x69#8, 0#8, 0#8]) =
    some (0#32, .frame (frameOf (headerOf 5#32 0#4 0x08#8 1#32) (.data ⟨10, 2⟩))) := by decide
theorem test_kindHeaders : after (.kindHeaders (wireOf 11#24 0x28#8 1#31) 0)
      (loadedAt 9 [2#8, 0x80#8, 0#8, 0#8, 3#8, 0x0F#8, 0x41#8, 0x42#8, 0x43#8, 0#8, 0#8]) =
    some (0#32, .frame (frameOf (headerOf 11#32 1#4 0x28#8 1#32)
      (.headers (some (prioOf true 3#32 15#8)) ⟨15, 3⟩))) := by decide
theorem test_kindHeaders_short : after (.kindHeaders (wireOf 6#24 0x28#8 1#31) 0) (loadedAt 9 [1#8]) =
    some (1#32, .none) := by decide
theorem test_kindPriority : after (.kindPriority (wireOf 5#24 0x08#8 1#31) 0)
      (loadedAt 9 [5#8, 0#8, 0#8, 7#8, 1#8]) =
    some (0#32, .frame (frameOf (headerOf 5#32 2#4 0x08#8 1#32) (.priority (prioOf false 0x05000007#32 1#8)))) := by
  decide
theorem test_kindReset : after (.kindReset (wireOf 6#24 0#8 1#31) 0)
      (loadedAt 9 [0#8, 0#8, 0#8, 8#8, 0xAA#8, 0xBB#8]) =
    some (0#32, .frame (frameOf (headerOf 6#32 3#4 0#8 1#32) (.reset 8#32))) := by decide
theorem test_kindReset_short : after (.kindReset (wireOf 3#24 0#8 1#31) 0) (loaded []) = some (5#32, .none) := by decide
theorem test_kindSettings : after (.kindSettings (wireOf 0#24 0x01#8 1#31) 0) (loaded []) =
    some (0#32, .frame (frameOf (headerOf 0#32 4#4 0x01#8 1#32) (.settings (.view ⟨9, 0⟩)))) := by decide
theorem test_kindPushPromise : after (.kindPushPromise (wireOf 7#24 0x0C#8 1#31) 0)
      (loadedAt 9 [1#8, 0x80#8, 0#8, 0#8, 2#8, 0x41#8, 0#8]) =
    some (0#32, .frame (frameOf (headerOf 7#32 5#4 0x0C#8 1#32) (.pushPromise 2#32 ⟨14, 1⟩))) := by decide
theorem test_kindPing : after (.kindPing (wireOf 8#24 0x01#8 1#31) 0)
      (loadedAt 9 [1#8, 2#8, 3#8, 4#8, 5#8, 6#8, 7#8, 8#8]) =
    some (0#32, .frame (frameOf (headerOf 8#32 6#4 0x01#8 1#32) (.ping 0x0102030405060708#64))) := by decide
theorem test_kindPing_order : after (.kindPing (wireOf 0#24 0x08#8 1#31) 0) (loaded []) = some (5#32, .none) := by decide
theorem test_kindGoAway : after (.kindGoAway (wireOf 10#24 0#8 1#31) 0)
      (loadedAt 9 [0x80#8, 0#8, 0#8, 5#8, 0#8, 0#8, 0#8, 2#8, 0x64#8, 0x62#8]) =
    some (0#32, .frame (frameOf (headerOf 10#32 7#4 0#8 1#32) (.goAway 5#32 2#32 ⟨17, 2⟩))) := by decide
theorem test_kindWindowUpdate : after (.kindWindowUpdate (wireOf 4#24 0#8 1#31) 0)
      (loadedAt 9 [0x80#8, 0#8, 0x10#8, 0#8]) =
    some (0#32, .frame (frameOf (headerOf 4#32 8#4 0#8 1#32) (.windowUpdate 0x80001000#32))) := by decide
theorem test_kindWindowUpdate_masked : after (.kindWindowUpdate (wireOf 4#24 0#8 1#31) 0)
      { loadedAt 9 [0x80#8, 0#8, 0x10#8, 0#8] with cfg := { small with wuMask := true } } =
    some (0#32, .frame (frameOf (headerOf 4#32 8#4 0#8 1#32) (.windowUpdate 0x00001000#32))) := by decide
theorem test_kindContinuation : after (.kindContinuation (wireOf 3#24 0x0D#8 1#31) 0) (loaded []) =
    some (0#32, .frame (frameOf (headerOf 3#32 9#4 0x0D#8 1#32) (.continuation ⟨9, 3⟩))) := by decide
theorem test_kindUnregistered : after (.kindUnregistered (wireOf 2#24 0x08#8 1#31) 0) (loaded []) =
    some (0#32, .frame (frameOf (headerOf 2#32 10#4 0x08#8 1#32) (.unregistered ⟨9, 2⟩))) := by decide

/-! The port. -/

/-- The second FRAME_DECODE of program P1. -/
theorem test_step_frame :
    (next (step (withPort (loadedAt 15
        [0#8, 0#8, 8#8, 6#8, 1#8, 0#8, 0#8, 0#8, 0#8, 1#8, 2#8, 3#8, 4#8, 5#8, 6#8, 7#8, 8#8])
        [.frame 15]))).map (fun t => (t.status, t.res, t.port)) =
      some (0#32, .frame (frameOf (headerOf 8#32 6#4 1#8 0#32) (.ping 0x0102030405060708#64)), []) := by decide
/-- The end of the stream in program P1: `HDR_PARSE <IBLEN, 0>` is Short. -/
theorem test_step_frame_end :
    (next (step (withPort (loaded []) [.frame 64]))).map (fun t => (t.status, t.res)) = some (1#32, .none) := by decide
theorem test_step_bad_opcode :
    (next (step (withPort (loaded []) [.cmd 0x0F, .reset]))).map (fun t => (t.status, t.port)) =
      some (0x00090000#32, [.reset]) := by decide
/-- Bytes past the end of IB are not bytes of IB (log entry 5). -/
theorem test_step_ibWrite :
    (next (step (withPort (loaded []) [.ibWrite 63 [1#8, 2#8]]))).map (fun t => t.mem) = some [(63, 1#8)] := by decide

/-! ### Witnesses: for every statement with hypotheses, a state and operands that meet them, each clause at a boundary -/

/-- A ready instruction, from checks that can be decided. -/
theorem ready_of {s : State} {i : Instr}
    (h : s.faulted = false ∧ i.legal = true ∧ (∀ v ∈ instrViews s.cfg.iblen i, v.off + v.len ≤ s.cfg.iblen) ∧
      instrKindsMatch i = true) : Ready s i :=
  ⟨h.1, h.2.1, h.2.2.1, h.2.2.2⟩

theorem fitsOb_of {s : State} {i : Instr} (obo n : Nat) (ho : instrOut i = some (obo, n)) (h : obo + n ≤ s.cfg.obcap) :
    fitsOb s i := by
  intro a b hab
  rw [ho] at hab
  cases hab
  exact h

/-- An encode command that can run, from checks that can be decided. -/
theorem canEncode_of {s : State} {i : Instr} (obo n : Nat) (ho : instrOut i = some (obo, n))
    (h : s.faulted = false ∧ i.legal = true ∧ (∀ v ∈ instrViews s.cfg.iblen i, v.off + v.len ≤ s.cfg.iblen) ∧
      instrKindsMatch i = true ∧ obo + n ≤ s.cfg.obcap ∧
      (∀ v ∈ instrViews s.cfg.iblen i, overlapsOb s.cfg v = false) ∧ s.mem.wf) : CanEncode s i :=
  ⟨⟨h.1, h.2.1, h.2.2.1, h.2.2.2.1⟩, fitsOb_of obo n ho h.2.2.2.2.1, h.2.2.2.2.2.1, h.2.2.2.2.2.2⟩

theorem armRuns_of {k : Kind} {s : State} {h : FrameHeader} {v : View}
    (hd : s.faulted = false ∧ headerLegal h = true ∧ v.off + v.len ≤ s.cfg.iblen ∧ h.kind = kindTag k ∧
      ReachesArm h v) : ArmRuns k s h v :=
  ⟨⟨hd.1, hd.2.1, by simpa [instrViews] using hd.2.2.1, rfl⟩, hd.2.2.2.1, hd.2.2.2.2⟩

/-- A state that a step can reach, with a byte in IB, a byte in OB and a command to come. -/
abbrev running : State :=
  { State.launched small with mem := [(63, 1#8), (95, 2#8)], port := [.cmd 0x2501], res := .count 3 }

/-- The small launch with OB over the IB bytes: a broken caller obligation (R351). -/
abbrev overlapping : State := { loaded [1#8, 2#8] with cfg := { small with obBase := 0 } }

/-- A stuck block. -/
abbrev stuck : State := { loaded [] with status := 0x00090000#32 }

/-- The header `{len, kind, flags, stream id 1}`. -/
abbrev hd (len : BitVec 32) (kind : KindTag) (flags : Byte) : FrameHeader := headerOf len kind flags 1#32

theorem witness_StepRunsDecodedRecord :
    running.port = .cmd 0x2501 :: [] ∧ decode running.cfg.addrW (.record 0x2501) = .ok (.flagsNew 0x25#8) := by decide

theorem witness_StepRunsDecodedFrame :
    let s := withPort (loadedAt 55 [0#8, 0#8, 0#8, 6#8]) [.frame 55]
    s.port = .frame 55 :: [] ∧ s.faulted = false ∧ 55 + 9 ≤ s.cfg.iblen ∧
      decode s.cfg.addrW (.frame 55 (readBytes s.ib 55 9)) = .ok (.kindPing (wireOf 0#24 0#8 0#31) 55) := by decide

/-- The last cursor with a whole header, the first without, and the last and first about IBLEN = 64 (log entry 12). -/
theorem witness_FrameDecodeIsHdrParseThenFrameParse :
    (withPort (loaded []) [.frame 55]).port = .frame 55 :: [] ∧
    (after (.hdrParse ⟨55, 9⟩) (loaded [])).map Prod.fst = some 0#32 ∧
    (after (.hdrParse ⟨56, 8⟩) (loaded [])).map Prod.fst = some 1#32 ∧
    (after (.hdrParse ⟨64, 64 - 64⟩) (loaded [])).map Prod.fst = some 1#32 ∧
    (after (.hdrParse ⟨65, 64 - 65⟩) (loaded [])).map Prod.fst = some 0x00050000#32 := by decide

theorem witness_DecodeOfEncodeIsIdentity :
    (Instr.hdrParse ⟨2 ^ 32 - 1, 2 ^ 32 - 1⟩).fits 32 = true ∧
    (Instr.payloadEncode (.settings (.list [⟨0xFFFF#16, 0xFFFFFFFF#32⟩])) (2 ^ 32 - 1)).fits 32 = true ∧
    (Instr.payloadLen (.illegal 4)).fits 32 = true ∧
    (Instr.kindUnregistered (wireOf 0xFFFFFF#24 0x2D#8 0x7FFFFFFF#31) 70).fits 32 = true := by decide

theorem witness_UnassignedOpcodeFaults :
    (loaded []).faulted = false ∧ 0x100 % 256 = 0x00 ∧ 0x0F % 256 = 0x0F ∧ 0x16 ≤ 0x16 % 256 ∧ 0x16 ≤ 0xFF % 256 := by
  decide

theorem witness_IdleStepChangesNothing : (loaded [1#8]).port = [] := by decide

theorem witness_ResetClearsStatusAndResult : (withPort stuck [.reset]).port = .reset :: [] := by decide

theorem witness_CallerWritesReachTheBuffers :
    (loaded []).mem.wf ∧ (withPort (loaded []) [.ibWrite 62 [1#8, 2#8]]).port = .ibWrite 62 [1#8, 2#8] :: [] ∧
    62 + [1#8, 2#8].length ≤ (loaded []).cfg.iblen ∧
    (withPort (loaded []) [.obWrite 31 [3#8]]).port = .obWrite 31 [3#8] :: [] ∧
    31 + [3#8].length ≤ (loaded []).cfg.obcap := by decide

theorem witness_ResetMeetsTheInvariant :
    small.wf ∧ Params.wf { small with addrW := 25, iblen := 2 ^ 25 - 1, obcap := 0 } := by decide

theorem witness_StepKeepsTheInvariant : running.Inv ∧ ∃ t, step running = .next t :=
  ⟨⟨by decide, by decide, by decide, ⟨by decide, by decide, by decide, by decide, by decide, by decide, by decide⟩,
    trivial, by decide⟩, _, rfl⟩

/-- A legal command whose frame names one kind in its header and carries another (R50). -/
def mismatched : Instr := .frameLen (frameOf (hd 8#32 6#4 0#8) (.data ⟨0, 64⟩))

theorem witness_FaultsComeFirstInOrder :
    (loaded []).faulted = false ∧
    (Instr.flagsHas 0x02#8 0#2).legal = false ∧
    ((Instr.hdrParse ⟨60, 5⟩).legal = true ∧
      ∃ v ∈ instrViews (loaded []).cfg.iblen (.hdrParse ⟨60, 5⟩), (loaded []).cfg.iblen < v.off + v.len) ∧
    (mismatched.legal = true ∧
      (∀ v ∈ instrViews (loaded []).cfg.iblen mismatched, v.off + v.len ≤ (loaded []).cfg.iblen) ∧
      instrKindsMatch mismatched = false) ∧
    (Ready (loaded []) (.sidEncode 1#32 29) ∧
      ∃ obo n, instrOut (.sidEncode 1#32 29) = some (obo, n) ∧ (loaded []).cfg.obcap < obo + n) :=
  ⟨by decide, by decide, by decide, by decide, ready_of (by decide), 29, 4, rfl, by decide⟩

theorem witness_NoFaultForLegalCommands :
    Ready (loaded []) (.sidEncode 1#32 28) ∧ fitsOb (loaded []) (.sidEncode 1#32 28) :=
  ⟨ready_of (by decide), fitsOb_of 28 4 rfl (by decide)⟩

theorem witness_FaultIsStickyUntilReset :
    stuck.faulted = true ∧ (withPort stuck [.cmd 0x2501]).port = .cmd 0x2501 :: [] ∧
    (withPort stuck [.frame 0]).port = .frame 0 :: [] ∧ PortInput.ibWrite 0 [1#8] ≠ .reset := by decide

theorem witness_ErrorsAndFaultsArePrecise :
    (loaded []).faulted = false ∧
    (∃ t, exec (.flagsNew 0x02#8) (loaded []) = .next t ∧ t.status ≠ 0#32) ∧
    ∃ t, exec (.sidEncode 1#32 29) (loaded []) = .next t ∧ t.status ≠ 0#32 :=
  ⟨by decide, ⟨_, rfl, by decide⟩, _, rfl, by decide⟩

theorem witness_ReadInstructionsStoreNothing :
    instrOut (.kindNew 1#8) = none ∧ ∃ t, exec (.kindNew 1#8) (loaded []) = .next t :=
  ⟨rfl, _, rfl⟩

theorem witness_EncodeCommandsStoreOnlyTheirRange :
    instrOut (.sidEncode 1#32 28) = some (28, 4) ∧ ∃ t, exec (.sidEncode 1#32 28) (loaded []) = .next t :=
  ⟨rfl, _, rfl⟩

theorem witness_EncodeCommandsComplete :
    instrOut (.payloadEncode (.data ⟨0, 2⟩) 30) = some (30, 2) ∧
    (Ready (loaded [1#8, 2#8]) (.payloadEncode (.data ⟨0, 2⟩) 30) ∧
      fitsOb (loaded [1#8, 2#8]) (.payloadEncode (.data ⟨0, 2⟩) 30)) ∧
    (Ready overlapping (.payloadEncode (.data ⟨0, 2⟩) 30) ∧ fitsOb overlapping (.payloadEncode (.data ⟨0, 2⟩) 30) ∧
      overlapsOb overlapping.cfg ⟨0, 2⟩ = true) :=
  ⟨rfl, ⟨ready_of (by decide), fitsOb_of 30 2 rfl (by decide)⟩, ready_of (by decide), fitsOb_of 30 2 rfl (by decide),
    by decide⟩

/-- Two memories that agree on the first bytes of a view and differ past them. -/
theorem witness_ParsesReadOnlyTheirFootprint :
    (∀ n ∈ [4, 9, 5, 1, 0, (hd 3#32 0#4 0x08#8).length.toNat], ∀ j, j < n → j < 12 →
      Memory.read [(9, 7#8)] (small.ibBase + 0 + j) = (loadedAt 10 [9#8]).mem.read (small.ibBase + 0 + j)) ∧
    Memory.read [(9, 7#8)] 9 ≠ (loadedAt 10 [9#8]).mem.read 9 ∧
    (∃ t, exec (.hdrParse ⟨0, 12⟩) (loadedAt 10 [9#8]) = .next t) ∧
    ∃ t, exec (.payloadParse (hd 3#32 0#4 0x08#8) ⟨0, 12⟩) (loadedAt 10 [9#8]) = .next t :=
  ⟨by decide, by decide, ⟨_, rfl⟩, _, rfl⟩

theorem witness_ReadInstructionsAreIdempotent :
    instrOut (.flagsNew 0x02#8) = none ∧ ∃ t, exec (.flagsNew 0x02#8) (loaded []) = .next t :=
  ⟨rfl, _, rfl⟩

theorem witness_EncodeCommandsAreIdempotent :
    instrOut (.payloadEncode (.data ⟨62, 2⟩) 30) ≠ none ∧
    CanEncode (loadedAt 62 [1#8, 2#8]) (.payloadEncode (.data ⟨62, 2⟩) 30) ∧
    ∃ t u, exec (.payloadEncode (.data ⟨62, 2⟩) 30) (loadedAt 62 [1#8, 2#8]) = .next t ∧
      exec (.payloadEncode (.data ⟨62, 2⟩) 30) t = .next u :=
  ⟨by decide, canEncode_of 30 2 rfl (by decide), _, _, rfl, rfl⟩

theorem witness_ResultsDoNotDependOnHistory :
    (loaded []).faulted = false ∧ statusFault 0x0000FF02#32 = false := by decide

theorem witness_FlagsNewAcceptsValidBytes :
    (loaded []).faulted = false ∧ 0x2D#8 &&& 0xD2#8 = 0#8 ∧ 0x02#8 &&& 0xD2#8 ≠ 0#8 := by decide

theorem witness_FlagsHasTestsTheSelectedBit :
    (loaded []).faulted = false ∧ 0x2D#8 &&& 0xD2#8 = 0#8 ∧ 0x10#8 &&& 0xD2#8 ≠ 0#8 := by decide

theorem witness_KindNewIsTotal : (loaded []).faulted = false ∧ (9#8).toNat ≤ 9 ∧ 10 ≤ (10#8).toNat := by decide

theorem witness_KindEncodeGivesTheWireCode :
    (loaded []).faulted = false ∧ (9#4).toNat ≤ 9 ∧ 11 ≤ (11#4).toNat ∧ kindTag .unregistered = 10#4 ∧
    after (.kindEncode 10#4) (loaded []) = some (0#32, .byte 255#8) := by decide

theorem witness_SidParseMasksTheTopBit :
    Ready (loaded []) (.sidParse ⟨60, 4⟩) ∧ 4 ≤ 4 ∧ Ready (loaded []) (.sidParse ⟨61, 3⟩) ∧ 3 < 4 :=
  ⟨ready_of (by decide), by decide, ready_of (by decide), by decide⟩

theorem witness_SidEncodeWritesFourBytes :
    CanEncode (loaded []) (.sidEncode 1#32 28) ∧ (loaded []).faulted = false ∧ (loaded []).cfg.obcap < 29 + 4 :=
  ⟨canEncode_of 28 4 rfl (by decide), by decide, by decide⟩

theorem witness_HdrParseReadsTheHeader :
    Ready (loadedAt 59 [0x02#8]) (.hdrParse ⟨55, 9⟩) ∧ (loadedAt 59 [0x02#8]).ib (55 + 4) &&& 0xD2#8 ≠ 0#8 ∧
    Ready (loaded []) (.hdrParse ⟨55, 9⟩) ∧ (loaded []).ib (55 + 4) &&& 0xD2#8 = 0#8 ∧
    Ready (loaded []) (.hdrParse ⟨56, 8⟩) :=
  ⟨ready_of (by decide), by decide, ready_of (by decide), by decide, ready_of (by decide)⟩

theorem witness_HdrEncodeWritesNineBytes :
    CanEncode (loaded []) (.hdrEncode (hd 0xFFFFFFFF#32 10#4 0x2D#8) 23) ∧
    (Ready (loaded []) (.hdrEncode (hd 0#32 0#4 0#8) 24) ∧ (loaded []).cfg.obcap < 24 + 9) ∧
    (hd 0#32 0#4 0x02#8).flags &&& 0xD2#8 ≠ 0#8 ∧ 10 < (hd 0#32 11#4 0#8).kind.toNat :=
  ⟨canEncode_of 23 9 rfl (by decide), ⟨ready_of (by decide), by decide⟩, by decide, by decide⟩

/-- The header of length 2^24 - 1, stream id 2^31 - 1, and its bytes. -/
theorem witness_HeaderRoundTrip :
    let h := headerOf 0xFFFFFF#32 9#4 0x2D#8 0x7FFFFFFF#32
    let u := loadedAt 55 [0xFF#8, 0xFF#8, 0xFF#8, 9#8, 0x2D#8, 0x7F#8, 0xFF#8, 0xFF#8, 0xFF#8]
    (∃ t, CanEncode (loaded []) (.hdrEncode h 23) ∧ exec (.hdrEncode h 23) (loaded []) = .next t ∧
      Ready u (.hdrParse { off := 55, len := 9 }) ∧ Copied t 23 u 55 9) ∧
    Ready u (.hdrParse ⟨55, 9⟩) ∧ Gives u (.hdrParse ⟨55, 9⟩) (.header h) :=
  ⟨⟨_, canEncode_of 23 9 rfl (by decide), rfl, ready_of (by decide), by decide⟩, ready_of (by decide), rfl⟩

theorem witness_HeaderBytesRoundTrip :
    let s := loaded [0#8, 0#8, 0#8, 0xC8#8, 0#8, 0x80#8]
    Ready s (.hdrParse ⟨0, 9⟩) ∧ Gives s (.hdrParse ⟨0, 9⟩) (.header (headerOf 0#32 10#4 0#8 0#32)) ∧
    CanEncode s (.hdrEncode (headerOf 0#32 10#4 0#8 0#32) 23) :=
  ⟨ready_of (by decide), rfl, canEncode_of 23 9 rfl (by decide)⟩

/-- Pad length 4 and 5 in a view of 5 bytes, and the empty view. -/
theorem witness_PadStripRemovesThePadding :
    (Ready (loaded [4#8]) (.padStrip ⟨0, 5⟩) ∧ ((loaded [4#8]).ib 0).toNat < 5) ∧
    (Ready (loaded [5#8]) (.padStrip ⟨0, 5⟩) ∧ 5 ≤ ((loaded [5#8]).ib 0).toNat) ∧
    Ready (loaded []) (.padStrip ⟨64, 0⟩) :=
  ⟨⟨ready_of (by decide), by decide⟩, ⟨ready_of (by decide), by decide⟩, ready_of (by decide)⟩

theorem witness_PrioParseReadsTheBlock :
    Ready (loaded []) (.prioParse true ⟨59, 5⟩) ∧ Ready (loaded []) (.prioParse true ⟨60, 4⟩) :=
  ⟨ready_of (by decide), ready_of (by decide)⟩

theorem witness_PrioEncodeWritesFiveBytes :
    CanEncode (loaded []) (.prioEncode (prioOf true 0x80000003#32 15#8) 27) ∧ (loaded []).faulted = false ∧
    (loaded []).cfg.obcap < 28 + 5 :=
  ⟨canEncode_of 27 5 rfl (by decide), by decide, by decide⟩

theorem witness_PriorityRoundTrip :
    let q := prioOf true 0x7FFFFFFF#32 15#8
    let u := loadedAt 59 [0xFF#8, 0xFF#8, 0xFF#8, 0xFF#8, 15#8]
    (∃ t, CanEncode (loaded []) (.prioEncode q 27) ∧ exec (.prioEncode q 27) (loaded []) = .next t ∧
      Ready u (.prioParse true { off := 59, len := 5 }) ∧ Copied t 27 u 59 5) ∧ q.dependency.toNat < 2 ^ 31 :=
  ⟨⟨_, canEncode_of 27 5 rfl (by decide), rfl, ready_of (by decide), by decide⟩, by decide⟩

theorem witness_SettingsParseAcceptsWholeRecords :
    Ready (loaded []) (.settingsParse ⟨58, 6⟩) ∧ 6 % 6 = 0 ∧ Ready (loaded []) (.settingsParse ⟨57, 7⟩) ∧ 7 % 6 ≠ 0 :=
  ⟨ready_of (by decide), by decide, ready_of (by decide), by decide⟩

theorem witness_SettingsEncodeWritesTheRecords :
    CanEncode (loaded []) (.settingsEncode (.list [⟨3#16, 100#32⟩]) 26) ∧
    CanEncode (loaded []) (.settingsEncode (.view ⟨58, 6⟩) 26) ∧
    (Ready (loaded []) (.settingsEncode (.list [⟨3#16, 100#32⟩]) 27) ∧ (loaded []).cfg.obcap < 27 + 6 * 1) ∧
    (loaded []).faulted = false ∧ (View.mk 0 5).len % 6 ≠ 0 :=
  ⟨canEncode_of 26 6 rfl (by decide), canEncode_of 26 6 rfl (by decide), ⟨ready_of (by decide), by decide⟩, by decide,
    by decide⟩

theorem witness_SettingsRoundTrip :
    let q := SettingSeq.list [⟨3#16, 100#32⟩]
    let u := loadedAt 58 [0#8, 3#8, 0#8, 0#8, 0#8, 0x64#8]
    (∃ t, CanEncode (loaded []) (.settingsEncode q 26) ∧ exec (.settingsEncode q 26) (loaded []) = .next t ∧
      6 = 6 * seqCount q ∧ Ready u (.settingsParse { off := 58, len := 6 }) ∧ Copied t 26 u 58 6) ∧
    (Ready u (.settingsParse ⟨58, 6⟩) ∧ Gives u (.settingsParse ⟨58, 6⟩) (.settings ⟨58, 6⟩) ∧
      26 + 6 ≤ u.cfg.obcap ∧ overlapsOb u.cfg ⟨58, 6⟩ = false ∧ u.mem.wf) :=
  ⟨⟨_, canEncode_of 26 6 rfl (by decide), rfl, by decide, ready_of (by decide), by decide⟩, ready_of (by decide), rfl,
    by decide, by decide, by decide⟩

theorem witness_SettingLookupClassifies :
    (loaded []).faulted = false ∧ 1 ≤ (1#16).toNat ∧ (5#16).toNat ≤ 5 ∧ (0#16).toNat = 0 ∧ 6 ≤ (6#16).toNat := by decide

/-- Ping with a view one byte short; PADDED and PRIORITY with length 5 of the minimum 6; and with length 6. -/
theorem witness_PayloadPrologueChecksLengths :
    (Ready (loaded []) (.payloadParse (hd 8#32 6#4 0#8) ⟨57, 7⟩) ∧ 7 < (hd 8#32 6#4 0#8).length.toNat) ∧
    (Ready (loaded []) (.payloadParse (hd 5#32 6#4 0x28#8) ⟨59, 5⟩) ∧ (hd 5#32 6#4 0x28#8).length.toNat ≤ 5 ∧
      (hd 5#32 6#4 0x28#8).length.toNat < minLength 0x28#8) ∧
    (Ready (loaded []) (.payloadParse (hd 6#32 6#4 0x28#8) ⟨57, 7⟩) ∧ ReachesArm (hd 6#32 6#4 0x28#8) ⟨57, 7⟩) :=
  ⟨⟨ready_of (by decide), by decide⟩, ⟨ready_of (by decide), by decide, by decide⟩, ready_of (by decide),
    by decide⟩

/-- Pad length 2 and 3 in a payload of 3 bytes. -/
theorem witness_DataArm :
    (ArmRuns .data (loaded [2#8]) (hd 3#32 0#4 0x08#8) ⟨0, 3⟩ ∧ PadFits (loaded [2#8]) (hd 3#32 0#4 0x08#8) ⟨0, 3⟩) ∧
    ArmRuns .data (loaded [3#8]) (hd 3#32 0#4 0x08#8) ⟨0, 3⟩ ∧
      ¬PadFits (loaded [3#8]) (hd 3#32 0#4 0x08#8) ⟨0, 3⟩ :=
  ⟨⟨armRuns_of (by decide), by decide⟩, armRuns_of (by decide), by decide⟩

theorem witness_HeadersArm :
    (ArmRuns .headers (loaded []) (hd 0#32 1#4 0#8) ⟨64, 0⟩ ∧ PadFits (loaded []) (hd 0#32 1#4 0#8) ⟨64, 0⟩ ∧
      (hd 0#32 1#4 0#8).flags.getLsbD 5 = false) ∧
    (ArmRuns .headers (loaded [0#8]) (hd 6#32 1#4 0x28#8) ⟨0, 6⟩ ∧ PadFits (loaded [0#8]) (hd 6#32 1#4 0x28#8) ⟨0, 6⟩ ∧
      (hd 6#32 1#4 0x28#8).flags.getLsbD 5 = true ∧ 5 ≤ (content (loaded [0#8]) (hd 6#32 1#4 0x28#8) ⟨0, 6⟩).len) ∧
    (ArmRuns .headers (loaded [1#8]) (hd 6#32 1#4 0x28#8) ⟨0, 6⟩ ∧ PadFits (loaded [1#8]) (hd 6#32 1#4 0x28#8) ⟨0, 6⟩ ∧
      (content (loaded [1#8]) (hd 6#32 1#4 0x28#8) ⟨0, 6⟩).len < 5) ∧
    (ArmRuns .headers (loaded [6#8]) (hd 6#32 1#4 0x28#8) ⟨0, 6⟩ ∧
      ¬PadFits (loaded [6#8]) (hd 6#32 1#4 0x28#8) ⟨0, 6⟩) :=
  ⟨⟨armRuns_of (by decide), by decide, by decide⟩, ⟨armRuns_of (by decide), by decide, by decide, by decide⟩,
    ⟨armRuns_of (by decide), by decide, by decide⟩, armRuns_of (by decide), by decide⟩

theorem witness_PriorityArm :
    (ArmRuns .priority (loaded []) (hd 5#32 2#4 0#8) ⟨59, 5⟩ ∧ 5 ≤ (hd 5#32 2#4 0#8).length.toNat) ∧
    ArmRuns .priority (loaded []) (hd 4#32 2#4 0#8) ⟨60, 4⟩ ∧ (hd 4#32 2#4 0#8).length.toNat < 5 :=
  ⟨⟨armRuns_of (by decide), by decide⟩, armRuns_of (by decide), by decide⟩

theorem witness_ResetArm :
    (ArmRuns .reset (loaded []) (hd 4#32 3#4 0#8) ⟨60, 4⟩ ∧ 4 ≤ (hd 4#32 3#4 0#8).length.toNat) ∧
    ArmRuns .reset (loaded []) (hd 3#32 3#4 0#8) ⟨61, 3⟩ ∧ (hd 3#32 3#4 0#8).length.toNat < 4 :=
  ⟨⟨armRuns_of (by decide), by decide⟩, armRuns_of (by decide), by decide⟩

theorem witness_SettingsArm :
    (ArmRuns .settings (loaded []) (hd 6#32 4#4 0#8) ⟨58, 6⟩ ∧ (hd 6#32 4#4 0#8).length.toNat % 6 = 0) ∧
    ArmRuns .settings (loaded []) (hd 7#32 4#4 0#8) ⟨57, 7⟩ ∧ (hd 7#32 4#4 0#8).length.toNat % 6 ≠ 0 :=
  ⟨⟨armRuns_of (by decide), by decide⟩, armRuns_of (by decide), by decide⟩

/-- Six bytes of payload with pad length 1 (4 left), 2 (3 left) and 6 (too much). -/
theorem witness_PushPromiseArm :
    (ArmRuns .pushPromise (loaded [1#8]) (hd 6#32 5#4 0x08#8) ⟨0, 6⟩ ∧
      PadFits (loaded [1#8]) (hd 6#32 5#4 0x08#8) ⟨0, 6⟩ ∧
      4 ≤ (content (loaded [1#8]) (hd 6#32 5#4 0x08#8) ⟨0, 6⟩).len) ∧
    (ArmRuns .pushPromise (loaded [2#8]) (hd 6#32 5#4 0x08#8) ⟨0, 6⟩ ∧
      PadFits (loaded [2#8]) (hd 6#32 5#4 0x08#8) ⟨0, 6⟩ ∧
      (content (loaded [2#8]) (hd 6#32 5#4 0x08#8) ⟨0, 6⟩).len < 4) ∧
    (ArmRuns .pushPromise (loaded [6#8]) (hd 6#32 5#4 0x08#8) ⟨0, 6⟩ ∧
      ¬PadFits (loaded [6#8]) (hd 6#32 5#4 0x08#8) ⟨0, 6⟩) :=
  ⟨⟨armRuns_of (by decide), by decide, by decide⟩, ⟨armRuns_of (by decide), by decide, by decide⟩,
    armRuns_of (by decide), by decide⟩

theorem witness_PingArm :
    (ArmRuns .ping (loaded []) (hd 8#32 6#4 0#8) ⟨56, 8⟩ ∧ (hd 8#32 6#4 0#8).length.toNat = 8) ∧
    ArmRuns .ping (loaded []) (hd 9#32 6#4 0#8) ⟨55, 9⟩ ∧ (hd 9#32 6#4 0#8).length.toNat ≠ 8 :=
  ⟨⟨armRuns_of (by decide), by decide⟩, armRuns_of (by decide), by decide⟩

theorem witness_GoAwayArm :
    (ArmRuns .goAway (loaded []) (hd 8#32 7#4 0#8) ⟨56, 8⟩ ∧ 8 ≤ (hd 8#32 7#4 0#8).length.toNat) ∧
    ArmRuns .goAway (loaded []) (hd 7#32 7#4 0#8) ⟨57, 7⟩ ∧ (hd 7#32 7#4 0#8).length.toNat < 8 :=
  ⟨⟨armRuns_of (by decide), by decide⟩, armRuns_of (by decide), by decide⟩

theorem witness_WindowUpdateArm :
    (ArmRuns .windowUpdate (loaded []) (hd 4#32 8#4 0#8) ⟨60, 4⟩ ∧ (hd 4#32 8#4 0#8).length.toNat = 4 ∧
      (loaded []).cfg.wuMask = false) ∧
    (ArmRuns .windowUpdate { loaded [] with cfg := { small with wuMask := true } } (hd 4#32 8#4 0#8) ⟨60, 4⟩) ∧
    ArmRuns .windowUpdate (loaded []) (hd 5#32 8#4 0#8) ⟨59, 5⟩ ∧ (hd 5#32 8#4 0#8).length.toNat ≠ 4 :=
  ⟨⟨armRuns_of (by decide), by decide, by decide⟩, armRuns_of (by decide), armRuns_of (by decide), by decide⟩

theorem witness_ContinuationAndUnregisteredArms :
    ArmRuns .continuation (loaded []) (hd 64#32 9#4 0x2D#8) ⟨0, 64⟩ ∧
    ArmRuns .unregistered (loaded []) (hd 0#32 10#4 0#8) ⟨64, 0⟩ :=
  ⟨armRuns_of (by decide), armRuns_of (by decide)⟩

theorem witness_FrameParseDelegates :
    (loaded []).faulted = false ∧
    (∃ t, exec (.payloadParse (hd 0#32 0#4 0#8) ⟨64, 0⟩) (loaded []) = .next t ∧ t.res = .payload (.data ⟨64, 0⟩) ∧
      t.status = 0#32) ∧
    ∃ t, exec (.payloadParse (hd 1#32 0#4 0#8) ⟨64, 0⟩) (loaded []) = .next t ∧ t.status ≠ 0#32 :=
  ⟨by decide, ⟨_, rfl, by decide, by decide⟩, _, rfl, by decide⟩

/-- The header and the view of the frame of kind `k` at cursor `c`, and that its parse runs past the prologue. -/
structure FrameAt (k : Kind) (w : WireHeader) (c : Nat) (h : FrameHeader) (v : View) (s : State) : Prop where
  header : h = wireFrameHeader k w
  view : v = { off := c + 9, len := s.cfg.iblen - c - 9 }
  ready : Ready s (.frameParse h v)
  reaches : ReachesArm h v

theorem frameAt_of {k : Kind} {w : WireHeader} {c : Nat} {h : FrameHeader} {v : View} {s : State}
    (hd : h = wireFrameHeader k w ∧ v = { off := c + 9, len := s.cfg.iblen - c - 9 } ∧ s.faulted = false ∧
      headerLegal h = true ∧ v.off + v.len ≤ s.cfg.iblen ∧ ReachesArm h v) : FrameAt k w c h v s :=
  ⟨hd.1, hd.2.1, ⟨hd.2.2.1, hd.2.2.2.1, by simpa [instrViews] using hd.2.2.2.2.1, rfl⟩, hd.2.2.2.2.2⟩

/-- Each frame ends where IB ends. -/
theorem witness_KindInstructionsParseTheirFrames :
    (FrameAt .data (wireOf 3#24 0x08#8 1#31) 52 (hd 3#32 0#4 0x08#8) ⟨61, 3⟩ (loadedAt 61 [2#8]) ∧
      PadFits (loadedAt 61 [2#8]) (hd 3#32 0#4 0x08#8) ⟨61, 3⟩) ∧
    (FrameAt .headers (wireOf 0#24 0#8 1#31) 55 (hd 0#32 1#4 0#8) ⟨64, 0⟩ (loaded []) ∧
      PadFits (loaded []) (hd 0#32 1#4 0#8) ⟨64, 0⟩ ∧ (hd 0#32 1#4 0#8).flags.getLsbD 5 = false) ∧
    (FrameAt .headers (wireOf 7#24 0x28#8 1#31) 48 (hd 7#32 1#4 0x28#8) ⟨57, 7⟩ (loadedAt 57 [1#8]) ∧
      PadFits (loadedAt 57 [1#8]) (hd 7#32 1#4 0x28#8) ⟨57, 7⟩ ∧ (hd 7#32 1#4 0x28#8).flags.getLsbD 5 = true ∧
      5 ≤ (content (loadedAt 57 [1#8]) (hd 7#32 1#4 0x28#8) ⟨57, 7⟩).len) ∧
    FrameAt .priority (wireOf 5#24 0#8 1#31) 50 (hd 5#32 2#4 0#8) ⟨59, 5⟩ (loaded []) ∧
    FrameAt .reset (wireOf 4#24 0#8 1#31) 51 (hd 4#32 3#4 0#8) ⟨60, 4⟩ (loaded []) ∧
    FrameAt .settings (wireOf 6#24 0#8 1#31) 49 (hd 6#32 4#4 0#8) ⟨58, 6⟩ (loaded []) ∧
    (FrameAt .pushPromise (wireOf 5#24 0x08#8 1#31) 50 (hd 5#32 5#4 0x08#8) ⟨59, 5⟩ (loaded []) ∧
      PadFits (loaded []) (hd 5#32 5#4 0x08#8) ⟨59, 5⟩ ∧
      4 ≤ (content (loaded []) (hd 5#32 5#4 0x08#8) ⟨59, 5⟩).len) ∧
    FrameAt .ping (wireOf 8#24 0#8 1#31) 47 (hd 8#32 6#4 0#8) ⟨56, 8⟩ (loaded []) ∧
    FrameAt .goAway (wireOf 8#24 0#8 1#31) 47 (hd 8#32 7#4 0#8) ⟨56, 8⟩ (loaded []) ∧
    FrameAt .windowUpdate (wireOf 4#24 0#8 1#31) 51 (hd 4#32 8#4 0#8) ⟨60, 4⟩ (loaded []) ∧
    FrameAt .continuation (wireOf 55#24 0#8 1#31) 0 (hd 55#32 9#4 0#8) ⟨9, 55⟩ (loaded []) ∧
    FrameAt .unregistered (wireOf 0#24 0#8 1#31) 55 (hd 0#32 10#4 0#8) ⟨64, 0⟩ (loaded []) :=
  ⟨⟨frameAt_of (by decide), by decide⟩, ⟨frameAt_of (by decide), by decide, by decide⟩,
    ⟨frameAt_of (by decide), by decide, by decide, by decide⟩, frameAt_of (by decide), frameAt_of (by decide),
    frameAt_of (by decide), ⟨frameAt_of (by decide), by decide, by decide⟩, frameAt_of (by decide),
    frameAt_of (by decide), frameAt_of (by decide), frameAt_of (by decide), frameAt_of (by decide)⟩

theorem witness_EncodeFillsItsRangeFromItsOperands :
    let i := Instr.payloadEncode (.data ⟨62, 2⟩) 30
    let s := loadedAt 62 [1#8, 2#8]
    let m : Memory := [(61, 5#8), (62, 1#8), (63, 2#8), (94, 6#8)]
    instrOut i = some (30, 2) ∧ CanEncode s i ∧ m.wf ∧
    (∀ v ∈ instrViews s.cfg.iblen i, ∀ j, j < v.len →
      m.read (s.cfg.ibBase + v.off + j) = s.mem.read (s.cfg.ibBase + v.off + j)) ∧
    ∃ t u, exec i s = .next t ∧ exec i { s with mem := m } = .next u :=
  ⟨rfl, canEncode_of 30 2 rfl (by decide), by decide, by decide, _, _, rfl, rfl⟩

theorem witness_LengthCommandsCountBytes :
    Ready (loaded []) (.payloadLen (.settings (.view ⟨58, 6⟩))) ∧ headerLegal (hd 7#32 4#4 0x2D#8) = true ∧
    payloadTag (.settings (.view ⟨58, 6⟩)) = (hd 7#32 4#4 0x2D#8).kind :=
  ⟨ready_of (by decide), by decide, by decide⟩

theorem witness_ViewPayloadsAreCopied :
    CanEncode (loaded []) (.payloadEncode (.data ⟨62, 2⟩) 30) ∧
    CanEncode (loaded []) (.payloadEncode (.continuation ⟨0, 32⟩) 0) ∧
    CanEncode (loaded []) (.payloadEncode (.unregistered ⟨64, 0⟩) 32) :=
  ⟨canEncode_of 30 2 rfl (by decide), canEncode_of 0 32 rfl (by decide), canEncode_of 32 0 rfl (by decide)⟩

theorem witness_FixedPayloadsAreWritten :
    CanEncode (loaded []) (.payloadEncode (.priority (prioOf true 7#32 255#8)) 27) ∧
    CanEncode (loaded []) (.payloadEncode (.reset 0xFFFFFFFF#32) 28) ∧
    CanEncode (loaded []) (.payloadEncode (.ping (1#32 ++ 2#32)) 24) ∧
    (CanEncode (loaded []) (.payloadEncode (.windowUpdate 0x80001000#32) 28) ∧ (loaded []).cfg.wuMask = false) ∧
    CanEncode { loaded [] with cfg := { small with wuMask := true } } (.payloadEncode (.windowUpdate 0x80001000#32) 28) :=
  ⟨canEncode_of 27 5 rfl (by decide), canEncode_of 28 4 rfl (by decide), canEncode_of 24 8 rfl (by decide),
    ⟨canEncode_of 28 4 rfl (by decide), by decide⟩, canEncode_of 28 4 rfl (by decide)⟩

theorem witness_CompositePayloadsAreWritten :
    CanEncode (loaded []) (.payloadEncode (.headers none ⟨62, 2⟩) 30) ∧
    CanEncode (loaded []) (.payloadEncode (.headers (some (prioOf true 3#32 15#8)) ⟨62, 2⟩) 25) ∧
    CanEncode (loaded []) (.payloadEncode (.settings (.list [⟨3#16, 100#32⟩])) 26) ∧
    CanEncode (loaded []) (.payloadEncode (.settings (.view ⟨58, 6⟩)) 26) ∧
    CanEncode (loaded []) (.payloadEncode (.pushPromise 0x80000002#32 ⟨62, 2⟩) 26) ∧
    CanEncode (loaded []) (.payloadEncode (.goAway 5#32 2#32 ⟨62, 2⟩) 22) :=
  ⟨canEncode_of 30 2 rfl (by decide), canEncode_of 25 7 rfl (by decide), canEncode_of 26 6 rfl (by decide),
    canEncode_of 26 6 rfl (by decide), canEncode_of 26 6 rfl (by decide), canEncode_of 22 10 rfl (by decide)⟩

theorem witness_FrameEncodeWritesHeaderThenPayload :
    CanEncode (loaded []) (.frameEncode (frameOf (hd 0#32 3#4 0#8) (.reset 8#32)) 19) :=
  canEncode_of 19 13 rfl (by decide)

/-- The Headers frame of program P2, encoded at 0 and copied to the start of IB. -/
theorem witness_FrameRoundTrip :
    let fr := frameOf (headerOf 8#32 1#4 0x24#8 3#32) (.headers (some (prioOf true 1#32 15#8)) ⟨0, 3⟩)
    let s := loaded [0x41#8, 0x42#8, 0x43#8]
    let u := loaded [0#8, 0#8, 8#8, 1#8, 0x24#8, 0#8, 0#8, 0#8, 3#8, 0x80#8, 0#8, 0#8, 1#8, 0x0F#8, 0x41#8, 0x42#8,
      0x43#8]
    ∃ t, ValidFrame s.cfg.wuMask fr ∧ CanEncode s (.frameEncode fr 0) ∧ exec (.frameEncode fr 0) s = .next t ∧
      17 = 9 + encodedLen fr.payload ∧ u.cfg.wuMask = s.cfg.wuMask ∧ u.faulted = false ∧ 0 + 17 ≤ u.cfg.iblen ∧
      Copied t 0 u 0 17 := by
  refine ⟨_, ⟨by decide, by decide, by decide, fun _ => by decide, ?_, ?_, by decide⟩,
    canEncode_of 0 17 rfl (by decide), rfl, by decide, by decide, by decide, by decide, by decide⟩
  · intro o v h
    cases h
    decide
  · change (prioOf true 1#32 15#8).dependency.getLsbD 31 = false
    decide

end Sys2Proof.Tests
end

section
/-! The invariant right after power-on or RESET (00_scope.md R6, 70_reset_and_hazards.md R340). -/

namespace Sys2Proof.Machine

/-- The STATUS that reset and a completed command leave (R340, R50) is a legal one. -/
theorem statusLegal_zero : StatusLegal 0#32 where
  reserved := by decide
  errRange := by decide
  noBadKind := by decide
  argOnly := by decide
  badFlagArg := by decide
  faultCoded := by decide
  noFault := by decide

namespace State

/-- While STATUS is 0, the invariant asks only for the parameters, the cells and RES. -/
theorem inv_of_status_zero {s : State} (hparams : s.cfg.wf) (hcells : s.mem.wf)
    (hin : ∀ cell ∈ s.mem, s.cfg.inBuffers cell.1) (hstatus : s.status = 0#32) (hres : ResLegal s.cfg s.res) :
    s.Inv where
  params := hparams
  cells := hcells
  inBuffers := hin
  status := hstatus ▸ statusLegal_zero
  res := hres
  noneAfterStop := fun h => absurd hstatus h

theorem launched_inv {p : Params} (h : p.wf) : (launched p).Inv :=
  inv_of_status_zero h Memory.wf_nil (fun _ hmem => absurd hmem List.not_mem_nil) rfl trivial

end State

/-- The parameters chosen for `State.reset` (log entry 1) are within the bounds of R6. -/
theorem launch_wf : Config.launch.wf := by decide

/-- Settles O10: a launch has no cells, STATUS 0 and RES NONE, so the bounds of R6 are all the invariant needs;
`State.reset` is the launch under the parameters of log entry 1. -/
theorem resetMeetsTheInvariant : Obligations.ResetMeetsTheInvariant :=
  ⟨State.launched_inv launch_wf, fun _ => State.launched_inv⟩

end Sys2Proof.Machine
end

section
/-! One step by the head of the port (00_scope.md R5, 10_state.md R50), and the caller's writes into its buffers (R43,
R44). -/

namespace Sys2Proof.Machine

theorem step_of_port_nil {s : State} (hp : s.port = []) : step s = .next s := by
  unfold step
  rw [hp]

theorem step_of_issue_run {s : State} {input : PortInput} {rest : List PortInput} {i : Instr}
    (hp : s.port = input :: rest) (hi : State.issue { s with port := rest } input = .run i) :
    step s = exec i { s with port := rest } := by
  unfold step
  rw [hp]
  simp only [hi]

theorem step_of_issue_done {s t : State} {input : PortInput} {rest : List PortInput}
    (hp : s.port = input :: rest) (hi : State.issue { s with port := rest } input = .done t) :
    step s = .next t := by
  unfold step
  rw [hp]
  simp only [hi]

theorem State.issueFetched_of_decode {s : State} {f : Fetched} {i : Instr} (hd : decode s.cfg.addrW f = .ok i) :
    s.issueFetched f = .run i := by
  unfold issueFetched
  rw [hd]

theorem State.issueFetched_of_reject {s : State} {f : Fetched} {r : Reject} (hd : decode s.cfg.addrW f = .error r) :
    s.issueFetched f = .done (s.reject r) := by
  unfold issueFetched
  rw [hd]

/-- Settles O1: the port issues the instruction that the record decodes to. -/
theorem stepRunsDecodedRecord : Obligations.StepRunsDecodedRecord := by
  intro s bits rest i hp hd
  exact step_of_issue_run hp (State.issueFetched_of_decode hd)

theorem State.callerWritesIb_of_fits {s : State} {a : Nat} {bytes : List Byte} (h : a + bytes.length ≤ s.cfg.iblen) :
    s.callerWritesIb a bytes = { s with mem := s.mem.writeBytes (s.cfg.ibBase + a) bytes } := by
  unfold callerWritesIb
  rw [List.take_of_length_le (by omega)]

theorem State.callerWritesOb_of_fits {s : State} {a : Nat} {bytes : List Byte} (h : a + bytes.length ≤ s.cfg.obcap) :
    s.callerWritesOb a bytes = { s with mem := s.mem.writeBytes (s.cfg.obBase + a) bytes } := by
  unfold callerWritesOb
  rw [List.take_of_length_le (by omega)]

/-- Settles O9: a write that fits is stored whole, with no byte dropped, so the laws of the cells say what stands in the
window after it and that every other cell is as before. -/
theorem callerWritesReachTheBuffers : Obligations.CallerWritesReachTheBuffers := by
  intro s a bytes rest hwf
  constructor
  · intro hp hfits
    exact ⟨_, step_of_issue_done hp (congrArg Issue.done (State.callerWritesIb_of_fits hfits)),
      readBytes_writeBytes hwf s.cfg.ibBase a bytes, fun _ hx => Memory.read_writeBytes_other bytes hx⟩
  · intro hp hfits
    exact ⟨_, step_of_issue_done hp (congrArg Issue.done (State.callerWritesOb_of_fits hfits)),
      readBytes_writeBytes hwf s.cfg.obBase a bytes, fun _ hx => Memory.read_writeBytes_other bytes hx⟩

end Sys2Proof.Machine
end

section
/-! The STATUS words that the block writes are legal ones (10_state.md R45, 60_exceptions.md R300, R310). -/

namespace Sys2Proof.Machine

/-- An error that a command can raise (R300): BadFlag names an invalid flag byte, and BadKind is never raised (R3). -/
def ErrorLegal : ProtoError → Prop
  | .badFlag b => flagsLegal b = false
  | .badKind _ => False
  | _ => True

theorem getElem_errCode {e : ProtoError} {i : Nat} (h32 : i < 32) (hi : 4 ≤ i) : (errCode e)[i] = false := by
  have hcode : (errCode e).toNat < 2 ^ 4 := by cases e <;> simp [errCode]
  exact Nat.testBit_lt_two_pow (hcode.trans_le (Nat.pow_le_pow_right (by decide) hi))

@[simp] theorem statusErr_statusOfError (e : ProtoError) : statusErr (statusOfError e) = (errCode e).setWidth 4 := by
  unfold statusErr statusOfError
  ext i hi
  interval_cases i <;> simp

@[simp] theorem statusArg_statusOfError (e : ProtoError) : statusArg (statusOfError e) = errArg e := by
  unfold statusArg statusOfError
  ext i hi
  interval_cases i <;> simp [getElem_errCode]

@[simp] theorem statusFault_statusOfError (e : ProtoError) : statusFault (statusOfError e) = false :=
  State.raiseError_faulted (State.launched Config.launch) e

@[simp] theorem statusFcode_statusOfError (e : ProtoError) : statusFcode (statusOfError e) = 0#3 := by
  unfold statusFcode statusOfError
  ext i hi
  interval_cases i <;> simp [getElem_errCode]

theorem statusOfError_reserved (e : ProtoError) : statusOfError e &&& 0xFFF000F0#32 = 0#32 := by
  unfold statusOfError
  ext i hi
  interval_cases i <;> simp [getElem_errCode]

theorem statusLegal_statusOfError {e : ProtoError} (he : ErrorLegal e) : StatusLegal (statusOfError e) where
  reserved := statusOfError_reserved e
  errRange := by cases e <;> simp [errCode]
  noBadKind := by cases e <;> simp_all [errCode, ErrorLegal]
  argOnly := by cases e <;> simp [errCode, errArg]
  badFlagArg := by cases e <;> simp_all [errCode, errArg, ErrorLegal]
  faultCoded := by simp
  noFault := by simp

theorem statusLegal_statusOfFault (f : ModelFault) : StatusLegal (statusOfFault f) := by
  cases f <;> exact ⟨by decide, by decide, by decide, by decide, by decide, by decide, by decide⟩

end Sys2Proof.Machine
end

section
/-! What the rules of the reading commands give (41 to 46 of the spec): a legal value of RES (10_state.md R46), or a
legal error (R300). -/

namespace Sys2Proof

/-- The `ok` value of an outcome has the property `P`, and the error of one that raises is a legal one. -/
def Result.Meets {α : Type} (P : α → Prop) : Result α → Prop
  | .ok a => P a
  | .raise e => Machine.ErrorLegal e

theorem Result.Meets.map {α β : Type} {P : α → Prop} {Q : β → Prop} {r : Result α} {f : α → β}
    (hr : r.Meets P) (hf : ∀ a, P a → Q (f a)) : (r.map f).Meets Q := by
  cases r with
  | ok a => exact hf a hr
  | raise e => exact hr

theorem Result.Meets.bind {α β : Type} {P : α → Prop} {Q : β → Prop} {r : Result α} {f : α → Result β}
    (hr : r.Meets P) (hf : ∀ a, P a → (f a).Meets Q) : (r.bind f).Meets Q := by
  cases r with
  | ok a => exact hf a hr
  | raise e => exact hr

namespace Machine

/-! ### Scalars, flags, kinds and headers -/

theorem kindLegal_kindTag (k : Kind) : kindLegal (kindTag k) = true := by cases k <;> rfl

theorem flagsNew_meets (b : Byte) : (flagsNew b).Meets (flagsLegal · = true) := by
  cases hb : flagsLegal b with
  | true => rw [flagsNew_legal hb]; exact hb
  | false => rw [flagsNew_illegal hb]; exact hb

theorem toNat_u24Decode_lt (s : State) (a : Nat) : (u24Decode s.ib a).toNat < 2 ^ 24 := by
  have hlt := (be24 s a).isLt
  rw [u24Decode_eq, BitVec.toNat_setWidth]
  omega

theorem sidParse_meets (p : Params) (ib : Buffer) (v : View) : (sidParse ib v).Meets (ResLegal p) := by
  unfold sidParse
  split_ifs
  · trivial
  · exact sidLegal_mask _

theorem hdrParse_meets (p : Params) (s : State) (v : View) :
    (hdrParse s.ib v).Meets fun h => ResLegal p (.header h) := by
  unfold hdrParse
  split_ifs
  · trivial
  · refine (flagsNew_meets _).map fun f hf => ⟨?_, toNat_u24Decode_lt s v.off, sidLegal_mask _⟩
    simp only [headerLegal, hf, kindLegal_kindTag, Bool.and_self]

theorem settingName_legal (p : Params) (id : BitVec 16) : ResLegal p (.name (settingName id)) := by
  unfold settingName
  split_ifs with hid
  · exact hid
  · simp only [ResLegal]
    omega

/-! ### Views, padding, priority blocks and setting records -/

theorem viewInside_viewSlice {n : Nat} {v : View} {a b : Nat} (hv : viewInside n v = true) (hab : a ≤ b)
    (hb : b ≤ v.len) : viewInside n (viewSlice v a b) = true := by
  have hle : v.off + v.len ≤ n := of_decide_eq_true hv
  exact decide_eq_true (show v.off + a + (b - a) ≤ n by omega)

theorem viewInside_viewFrom {n : Nat} {v : View} {a : Nat} (hv : viewInside n v = true) (ha : a ≤ v.len) :
    viewInside n (viewFrom v a) = true :=
  viewInside_viewSlice hv ha le_rfl

theorem padStrip_meets {n : Nat} (ib : Buffer) {r : View} (hr : viewInside n r = true) :
    (padStrip ib r).Meets (viewInside n · = true) := by
  simp only [padStrip]
  split_ifs with hp
  · trivial
  · exact viewInside_viewSlice hr (by omega) (Nat.sub_le _ _)

theorem padStripCommand_meets {n : Nat} (ib : Buffer) {v : View} (hv : viewInside n v = true) :
    (padStripCommand ib v).Meets (viewInside n · = true) := by
  unfold padStripCommand
  split_ifs
  · trivial
  · exact padStrip_meets ib hv

theorem prioBlock_meets {n : Nat} (ib : Buffer) {r : View} (hr : viewInside n r = true) :
    (prioBlock ib r).Meets fun q => viewInside n q.1 = true ∧ prioLegal q.2 := by
  unfold prioBlock
  split_ifs with hlen
  · trivial
  · exact ⟨viewInside_viewFrom hr (Nat.not_lt.1 hlen), sidLegal_mask _⟩

theorem prioParse_meets {n : Nat} (ib : Buffer) (present : Bool) {r : View} (hr : viewInside n r = true) :
    (prioParse ib present r).Meets fun q => viewInside n q.1 = true ∧ ∀ pr, q.2 = some pr → prioLegal pr := by
  cases present with
  | false => exact ⟨hr, fun _ h => nomatch h⟩
  | true =>
    refine (prioBlock_meets ib hr).map fun q hq => ⟨hq.1, fun pr hpr => ?_⟩
    obtain rfl := Option.some.inj hpr
    exact hq.2

theorem settingsParse_meets {n : Nat} {r : View} (hr : viewInside n r = true) :
    (settingsParse r).Meets fun v => viewInside n v = true ∧ v.len % 6 = 0 := by
  unfold settingsParse
  split_ifs with hlen
  · trivial
  · exact ⟨hr, not_not.1 hlen⟩

/-! ### The payload dispatcher -/

theorem payloadPrologue_meets {n : Nat} (h : FrameHeader) {v : View} (hv : viewInside n v = true) :
    (payloadPrologue h v).Meets (viewInside n ·.r = true) := by
  unfold payloadPrologue
  split_ifs with hshort
  · trivial
  · trivial
  · exact viewInside_viewSlice hv (Nat.zero_le _) (Nat.not_lt.1 hshort)

theorem contentOf_meets {n : Nat} (ib : Buffer) {g : Region} (hg : viewInside n g.r = true) :
    (contentOf ib g).Meets (viewInside n · = true) := by
  unfold contentOf
  split_ifs
  · exact padStrip_meets ib hg
  · exact hg

theorem sidLegal_wuIncrement {wuMask : Bool} (x : BitVec 32) (h : wuMask = true) :
    sidLegal (wuIncrement wuMask x) := by
  unfold wuIncrement
  rw [if_pos h]
  exact sidLegal_mask x

/-- Each arm of the dispatcher gives a payload that R36 allows a parse, from a region inside IB. -/
theorem payloadArm_meets (p : Params) (ib : Buffer) (k : Kind) {g : Region} (hg : viewInside p.iblen g.r = true) :
    (payloadArm p.wuMask ib k g).Meets (PayloadParsed p) := by
  have hcontent := contentOf_meets ib hg
  cases k with
  | data => exact hcontent.map fun _ hc => hc
  | headers => exact hcontent.bind fun _ hc => (prioParse_meets ib g.pri hc).map fun _ hq => hq.symm
  | priority => exact (prioBlock_meets ib hg).map fun _ hq => hq.2
  | reset =>
    simp only [payloadArm, parseReset]
    split_ifs <;> trivial
  | settings => exact (settingsParse_meets hg).map fun _ hv => hv
  | pushPromise =>
    refine hcontent.bind fun c hc => ?_
    split_ifs with hlen
    · trivial
    · exact ⟨sidLegal_mask _, viewInside_viewFrom hc (Nat.not_lt.1 hlen)⟩
  | ping =>
    simp only [payloadArm, parsePing]
    split_ifs <;> trivial
  | goAway =>
    simp only [payloadArm, parseGoAway]
    split_ifs with hlen
    · trivial
    · exact ⟨sidLegal_mask _, viewInside_viewFrom hg (Nat.not_lt.1 hlen)⟩
  | windowUpdate =>
    simp only [payloadArm, parseWindowUpdate]
    split_ifs
    · trivial
    · exact sidLegal_wuIncrement _
  | continuation => exact hg
  | unregistered => exact hg

theorem payloadParse_meets (p : Params) (ib : Buffer) (h : FrameHeader) {v : View} (hv : viewInside p.iblen v = true) :
    (payloadParse p.wuMask ib h v).Meets (PayloadParsed p) :=
  (payloadPrologue_meets h hv).bind fun _ hg => payloadArm_meets p ib _ hg

/-- A frame that a parse makes is legal: its header is the operand, and its payload is of the header's kind (R37). -/
theorem frameOfParse_meets (p : Params) (ib : Buffer) {h : FrameHeader} {v : View} (hh : headerLegal h = true)
    (hv : viewInside p.iblen v = true) :
    ((payloadParse p.wuMask ib h v).map fun pl => Res.frame { header := h, payload := pl }).Meets (ResLegal p) := by
  have hpl := payloadParse_meets p ib h hv
  have hkind : kindLegal h.kind = true := (Bool.and_eq_true_iff.1 hh).2
  cases hr : payloadParse p.wuMask ib h v with
  | ok pl =>
    rw [hr] at hpl
    exact ⟨hh, hpl, payloadTag_of_parse hkind hr⟩
  | raise e =>
    rw [hr] at hpl
    exact hpl

end Machine

end Sys2Proof
end

section
/-! Every step keeps the invariant: the state changes of the command cycle (10_state.md R50), then the instructions,
then the inputs of the port. -/

namespace Sys2Proof.Machine

/-! ### The state changes -/

theorem inBuffers_ib {p : Params} {a j : Nat} (h : a + j < p.iblen) : p.inBuffers (p.ibBase + a + j) :=
  .inl ⟨by omega, by omega⟩

theorem inBuffers_ob {p : Params} {a j : Nat} (h : a + j < p.obcap) : p.inBuffers (p.obBase + a + j) :=
  .inr ⟨by omega, by omega⟩

namespace State

theorem raiseError_inv {s : State} {e : ProtoError} (h : s.Inv) (he : ErrorLegal e) : (s.raiseError e).Inv where
  params := h.params
  cells := h.cells
  inBuffers := h.inBuffers
  status := statusLegal_statusOfError he
  res := trivial
  noneAfterStop := fun _ => rfl

theorem takeFault_inv {s : State} (f : ModelFault) (h : s.Inv) : (s.takeFault f).Inv where
  params := h.params
  cells := h.cells
  inBuffers := h.inBuffers
  status := statusLegal_statusOfFault f
  res := trivial
  noneAfterStop := fun _ => rfl

theorem complete_inv {s : State} {r : Res} (h : s.Inv) (hr : ResLegal s.cfg r) : (s.complete r).Inv :=
  inv_of_status_zero h.params h.cells h.inBuffers rfl hr

theorem portReset_inv {s : State} (h : s.Inv) : s.portReset.Inv :=
  complete_inv (r := .none) h trivial

/-- The inputs to come play no part in the invariant (log entry 5). -/
theorem withPort_inv {s : State} (rest : List PortInput) (h : s.Inv) : State.Inv { s with port := rest } :=
  ⟨h.params, h.cells, h.inBuffers, h.status, h.res, h.noneAfterStop⟩

/-- A store of consecutive cells inside the buffers keeps the invariant. -/
theorem writeBytes_inv {s t : State} {x : Nat} {bytes : List Byte} (h : s.Inv) (hcfg : t.cfg = s.cfg)
    (hstatus : t.status = s.status) (hres : t.res = s.res) (hmem : t.mem = s.mem.writeBytes x bytes)
    (hx : ∀ j, j < bytes.length → s.cfg.inBuffers (x + j)) : t.Inv where
  params := hcfg ▸ h.params
  cells := hmem ▸ Memory.wf_writeBytes x bytes h.cells
  inBuffers := by rw [hcfg, hmem]; exact Memory.mem_writeBytes hx h.inBuffers
  status := hstatus ▸ h.status
  res := by rw [hcfg, hres]; exact h.res
  noneAfterStop := by rw [hstatus, hres]; exact h.noneAfterStop

@[simp] theorem storeOut_status (s : State) (obo : Nat) (vs : List View) (bs : List Byte) :
    (s.storeOut obo vs bs).status = s.status := by
  unfold storeOut; split <;> rfl

@[simp] theorem storeOut_res (s : State) (obo : Nat) (vs : List View) (bs : List Byte) :
    (s.storeOut obo vs bs).res = s.res := by
  unfold storeOut; split <;> rfl

theorem storeOut_inv {s : State} {obo : Nat} (vs : List View) {bytes : List Byte} (h : s.Inv)
    (hfits : obo + bytes.length ≤ s.cfg.obcap) : (s.storeOut obo vs bytes).Inv := by
  obtain ⟨out, hlen, hmem⟩ := s.storeOut_mem obo vs bytes
  exact writeBytes_inv h (storeOut_cfg ..) (storeOut_status ..) (storeOut_res ..) hmem
    fun j hj => inBuffers_ob (by omega)

theorem callerWritesIb_inv {s : State} (a : Nat) (bytes : List Byte) (h : s.Inv) : (s.callerWritesIb a bytes).Inv := by
  refine writeBytes_inv h rfl rfl rfl rfl fun j hj => inBuffers_ib ?_
  rw [List.length_take] at hj
  omega

theorem callerWritesOb_inv {s : State} (a : Nat) (bytes : List Byte) (h : s.Inv) : (s.callerWritesOb a bytes).Inv := by
  refine writeBytes_inv h rfl rfl rfl rfl fun j hj => inBuffers_ob ?_
  rw [List.length_take] at hj
  omega

/-- A reading command keeps the invariant when its rule, once the checks have passed, gives a legal result or error. -/
theorem readCycle_inv {s : State} {c : Checks} {rule : Result Res} (h : s.Inv)
    (hrule : c.firstFault s.cfg = none → rule.Meets (ResLegal s.cfg)) : (s.readCycle c rule).Inv := by
  obtain ⟨-, heq⟩ | ⟨-, f, -, heq⟩ | ⟨-, hnone, ⟨r, hok, heq⟩ | ⟨e, herr, heq⟩⟩ := s.readCycle_cases c rule <;>
    rw [heq]
  · exact h
  · exact takeFault_inv f h
  · exact complete_inv h (by simpa [hok, Result.Meets] using hrule hnone)
  · exact raiseError_inv h (by simpa [herr, Result.Meets] using hrule hnone)

/-- An encode command keeps the invariant when it writes as many bytes as it is checked against. -/
theorem encodeCycle_inv {s : State} {c : Checks} {obo n : Nat} {bytes : List Byte} (h : s.Inv)
    (hn : bytes.length = n) : (s.encodeCycle c obo n bytes).Inv := by
  obtain ⟨-, heq⟩ | ⟨-, f, -, heq⟩ | ⟨-, hnone, heq⟩ := s.encodeCycle_cases c obo n bytes <;> rw [heq]
  · exact h
  · exact takeFault_inv f h
  · obtain ⟨-, -, -, hroom⟩ := Checks.firstFault_eq_none.1 hnone
    exact complete_inv (storeOut_inv c.views h (hn ▸ hroom obo n rfl)) trivial

end State

/-! ### The instructions -/

/-- The checks of a command with one view pass only if its operands are legal and the view is inside IB. -/
theorem Checks.of_firstFault_none {p : Params} {legal : Bool} {v : View}
    (h : Checks.firstFault { legal := legal, views := [v] } p = none) :
    legal = true ∧ viewInside p.iblen v = true := by
  obtain ⟨hl, hv, -⟩ := Checks.firstFault_eq_none.1 h
  exact ⟨hl, decide_eq_true (hv v (List.mem_singleton_self v))⟩

/-- A reading command with one view keeps the invariant when its rule gives a legal result from a view inside IB. -/
theorem State.readView_inv {s : State} {v : View} {rule : Result Res} (h : s.Inv)
    (hrule : viewInside s.cfg.iblen v = true → rule.Meets (ResLegal s.cfg)) :
    (s.readCycle { views := [v] } rule).Inv :=
  readCycle_inv h fun hnone => hrule (Checks.of_firstFault_none hnone).2

/-- A frame kind is FRAME_PARSE of its frame's header, with the view that R123 gives. -/
theorem exec_wireInstr (k : Kind) (w : WireHeader) (c : Nat) (s : State) :
    exec (wireInstr k w c) s = exec (.frameParse (wireFrameHeader k w) (payloadViewAt s.cfg.iblen c)) s := by
  have hlegal := headerLegal_wire k w
  cases k <;> simp only [exec, execFrameParse, hlegal] <;> rfl

theorem exec_frameParse_inv {s : State} (fh : FrameHeader) (v : View) (h : s.Inv) :
    ∃ t, exec (.frameParse fh v) s = .next t ∧ t.Inv := by
  refine ⟨_, rfl, State.readCycle_inv h fun hnone => ?_⟩
  obtain ⟨hlegal, hv⟩ := Checks.of_firstFault_none hnone
  exact frameOfParse_meets s.cfg s.ib hlegal hv

theorem exec_wireInstr_inv {s : State} (k : Kind) (w : WireHeader) (c : Nat) (h : s.Inv) :
    ∃ t, exec (wireInstr k w c) s = .next t ∧ t.Inv :=
  exec_wireInstr k w c s ▸ exec_frameParse_inv _ _ h

theorem exec_encode_inv {s : State} {i : Instr} {obo n : Nat} (h : s.Inv) (ho : instrOut i = some (obo, n)) :
    ∃ t, exec i s = .next t ∧ t.Inv := by
  obtain ⟨c, bytes, he, -, hn⟩ := exec_encode i s ho
  exact ⟨_, he, State.encodeCycle_inv h hn⟩

/-- Every instruction keeps the invariant. -/
theorem exec_inv {s : State} (i : Instr) (h : s.Inv) : ∃ t, exec i s = .next t ∧ t.Inv := by
  cases i with
  | flagsNew b => exact ⟨_, rfl, State.readCycle_inv h fun _ => (flagsNew_meets b).map fun _ hf => hf⟩
  | flagsHas f sel => exact ⟨_, rfl, State.readCycle_inv h fun _ => trivial⟩
  | kindNew b => exact ⟨_, rfl, State.readCycle_inv h fun _ => trivial⟩
  | kindEncode k => exact ⟨_, rfl, State.readCycle_inv h fun _ => trivial⟩
  | sidParse v => exact ⟨_, rfl, State.readCycle_inv h fun _ => sidParse_meets s.cfg s.ib v⟩
  | sidEncode sid obo => exact exec_encode_inv h rfl
  | hdrParse v => exact ⟨_, rfl, State.readCycle_inv h fun _ => (hdrParse_meets s.cfg s v).map fun _ hh => hh⟩
  | hdrEncode fh obo => exact exec_encode_inv h rfl
  | padStrip v => exact ⟨_, rfl, State.readView_inv h fun hv => (padStripCommand_meets s.ib hv).map fun _ hc => hc⟩
  | prioParse present v =>
    exact ⟨_, rfl, State.readView_inv h fun hv => (prioParse_meets s.ib present hv).map fun _ hq => hq⟩
  | prioEncode pr obo => exact exec_encode_inv h rfl
  | settingsParse v => exact ⟨_, rfl, State.readView_inv h fun hv => (settingsParse_meets hv).map fun _ hq => hq⟩
  | settingsEncode q obo => exact exec_encode_inv h rfl
  | settingLookup id => exact ⟨_, rfl, State.readCycle_inv h fun _ => settingName_legal s.cfg id⟩
  | payloadParse fh v =>
    refine ⟨_, rfl, State.readCycle_inv h fun hnone => ?_⟩
    exact (payloadParse_meets s.cfg s.ib fh (Checks.of_firstFault_none hnone).2).map fun _ hpl => hpl
  | payloadEncode pl obo => exact exec_encode_inv h rfl
  | payloadLen pl => exact ⟨_, rfl, State.readCycle_inv h fun _ => trivial⟩
  | frameParse fh v => exact exec_frameParse_inv fh v h
  | frameEncode fr obo => exact exec_encode_inv h rfl
  | frameLen fr => exact ⟨_, rfl, State.readCycle_inv h fun _ => trivial⟩
  | kindData w c => exact exec_wireInstr_inv .data w c h
  | kindHeaders w c => exact exec_wireInstr_inv .headers w c h
  | kindPriority w c => exact exec_wireInstr_inv .priority w c h
  | kindReset w c => exact exec_wireInstr_inv .reset w c h
  | kindSettings w c => exact exec_wireInstr_inv .settings w c h
  | kindPushPromise w c => exact exec_wireInstr_inv .pushPromise w c h
  | kindPing w c => exact exec_wireInstr_inv .ping w c h
  | kindGoAway w c => exact exec_wireInstr_inv .goAway w c h
  | kindWindowUpdate w c => exact exec_wireInstr_inv .windowUpdate w c h
  | kindContinuation w c => exact exec_wireInstr_inv .continuation w c h
  | kindUnregistered w c => exact exec_wireInstr_inv .unregistered w c h

/-! ### The inputs of the port -/

/-- The decoder rejects a record only for its opcode (R120). -/
theorem decodeRecord_ne_badHeader {aw bits : Nat} {e : ProtoError} :
    decodeRecord aw bits ≠ .error (.badHeader e) := by
  intro hd
  unfold decodeRecord at hd
  simp only at hd
  split at hd <;> cases hd

/-- The decoder rejects a header for its length or for an invalid flag byte (R170). -/
theorem errorLegal_of_decodeHeader {c : Nat} {bytes : List Byte} {e : ProtoError}
    (hd : decodeHeader c bytes = .error (.badHeader e)) : ErrorLegal e := by
  unfold decodeHeader at hd
  split at hd
  next h0 h1 h2 h3 h4 h5 h6 h7 h8 rest =>
    have hflags := flagsNew_meets h4
    split at hd
    next e' he' =>
      cases hd
      rwa [he'] at hflags
    next => cases hd
  next =>
    cases hd
    trivial

theorem errorLegal_of_decode {aw : Nat} {f : Fetched} {e : ProtoError}
    (hd : decode aw f = .error (.badHeader e)) : ErrorLegal e := by
  cases f with
  | record bits => exact absurd hd decodeRecord_ne_badHeader
  | frame c header => exact errorLegal_of_decodeHeader hd

namespace State

theorem reject_inv {s : State} {r : Reject} (h : s.Inv) (hr : ∀ e, r = .badHeader e → ErrorLegal e) :
    (s.reject r).Inv := by
  cases r with
  | badOpcode opc =>
    simp only [reject, badOpcode]
    split_ifs
    · exact h
    · exact takeFault_inv _ h
  | badHeader e =>
    simp only [reject]
    split_ifs
    · exact h
    · exact raiseError_inv h (hr e rfl)

/-- What is fetched comes to an instruction, or to a rejection that keeps the invariant. -/
theorem issueFetched_inv {s t : State} {f : Fetched} (h : s.Inv) (ht : s.issueFetched f = .done t) : t.Inv := by
  cases hd : decode s.cfg.addrW f with
  | ok i =>
    rw [issueFetched_of_decode hd] at ht
    cases ht
  | error r =>
    rw [issueFetched_of_reject hd] at ht
    cases ht
    refine reject_inv h fun e he => ?_
    subst he
    exact errorLegal_of_decode hd

theorem issueFrame_inv {s t : State} {c : Nat} (h : s.Inv) (ht : s.issueFrame c = .done t) : t.Inv := by
  simp only [issueFrame] at ht
  split_ifs at ht
  · cases ht
    exact h
  · cases ht
    exact takeFault_inv _ h
  · exact issueFetched_inv h ht

theorem issue_inv {s t : State} (input : PortInput) (h : s.Inv) (ht : s.issue input = .done t) : t.Inv := by
  cases input with
  | cmd bits => exact issueFetched_inv h ht
  | frame c => exact issueFrame_inv h ht
  | reset =>
    cases ht
    exact portReset_inv h
  | ibWrite a bytes =>
    cases ht
    exact callerWritesIb_inv a bytes h
  | obWrite a bytes =>
    cases ht
    exact callerWritesOb_inv a bytes h

end State

/-- A step answers a next state, and from a state that meets the invariant one that meets it. -/
theorem step_inv {s : State} (h : s.Inv) : ∃ t, step s = .next t ∧ t.Inv := by
  cases hp : s.port with
  | nil => exact ⟨s, step_of_port_nil hp, h⟩
  | cons input rest =>
    have hrest := State.withPort_inv rest h
    cases hi : State.issue { s with port := rest } input with
    | run i => exact step_of_issue_run hp hi ▸ exec_inv i hrest
    | done t => exact ⟨t, step_of_issue_done hp hi, State.issue_inv input hrest hi⟩

/-- Settles O11: the head of the port is an instruction, which one command cycle executes with a rule that gives legal
results and errors, or an input that ends the step by itself; each keeps the invariant. -/
theorem stepKeepsTheInvariant : Obligations.StepKeepsTheInvariant := by
  intro s s' h hstep
  obtain ⟨t, ht, hinv⟩ := step_inv h
  rw [ht] at hstep
  cases hstep
  exact hinv

end Sys2Proof.Machine
end

section
/-! What an instruction leaves unchanged, and what executing it again leaves (20_memory.md R60, R61, R66, R68). -/

namespace Sys2Proof.Machine

/-! ### Instructions that store nothing -/

namespace State

/-- A reading cycle touches STATUS and RES alone. -/
theorem readCycle_eq_with (s : State) (c : Checks) (rule : Result Res) :
    s.readCycle c rule =
      { s with status := (s.readCycle c rule).status, res := (s.readCycle c rule).res } := by
  obtain ⟨-, heq⟩ | ⟨-, f, -, heq⟩ | ⟨-, -, ⟨r, -, heq⟩ | ⟨e, -, heq⟩⟩ := s.readCycle_cases c rule <;>
    rw [heq] <;> rfl

/-- A second reading cycle with the same checks and rule meets the fault, the result or the error of the first. -/
theorem readCycle_readCycle (s : State) (c : Checks) (rule : Result Res) :
    (s.readCycle c rule).readCycle c rule = s.readCycle c rule := by
  obtain ⟨-, heq⟩ | ⟨-, f, -, heq⟩ | ⟨-, hnone, ⟨r, rfl, heq⟩ | ⟨e, rfl, heq⟩⟩ := s.readCycle_cases c rule <;>
    rw [heq]
  · exact heq
  · exact readCycle_stuck c rule (takeFault_faulted s f)
  · exact readCycle_rule _ (complete_faulted s r) hnone
  · exact readCycle_rule _ (raiseError_faulted s e) hnone

/-- The cells play no part in a reading cycle but through its rule. -/
theorem readCycle_withMem (s : State) (c : Checks) (rule : Result Res) (m : Memory) :
    State.readCycle { s with mem := m } c rule = { s.readCycle c rule with mem := m } := by
  obtain ⟨hs, heq⟩ | ⟨hs, f, hf, heq⟩ | ⟨hs, hf, ⟨r, rfl, heq⟩ | ⟨e, rfl, heq⟩⟩ := s.readCycle_cases c rule <;>
    rw [heq]
  · exact readCycle_stuck c rule hs
  · exact readCycle_fault rule hs hf
  · exact readCycle_rule _ hs hf
  · exact readCycle_rule _ hs hf

end State

/-- Settles O16: such an instruction is one reading cycle, which touches STATUS and RES alone. -/
theorem readInstructionsStoreNothing : Obligations.ReadInstructionsStoreNothing := by
  intro i s t ho ht
  obtain ⟨c, rule, he, -⟩ := exec_read i s ho
  obtain rfl := Host.Outcome.next.inj (he.symm.trans ht)
  have heq := s.readCycle_eq_with c rule
  exact ⟨heq, fun x => by rw [heq]⟩

/-- Settles O20: the state answered differs from the first in STATUS and RES alone, so the second cycle has the checks
and the rule of the first. -/
theorem readInstructionsAreIdempotent : Obligations.ReadInstructionsAreIdempotent := by
  intro i s t ho ht
  obtain ⟨c, rule, he, he', -⟩ := exec_read_with i s t.status t.res ho
  obtain rfl := Host.Outcome.next.inj (he.symm.trans ht)
  rwa [← s.readCycle_eq_with c rule, s.readCycle_readCycle c rule] at he'

/-! ### Encode commands -/

/-- Whatever an encode cycle comes to, it leaves the parameters, the inputs and every cell outside its range alone. -/
theorem State.encodeCycle_frame (s : State) (c : Checks) {obo n : Nat} {bytes : List Byte} (hn : bytes.length = n) :
    (s.encodeCycle c obo n bytes).cfg = s.cfg ∧ (s.encodeCycle c obo n bytes).port = s.port ∧
      ∀ x, ¬(s.cfg.obBase + obo ≤ x ∧ x < s.cfg.obBase + obo + n) →
        (s.encodeCycle c obo n bytes).mem.read x = s.mem.read x := by
  obtain ⟨-, heq⟩ | ⟨-, f, -, heq⟩ | ⟨-, -, heq⟩ := s.encodeCycle_cases c obo n bytes <;> rw [heq]
  · exact ⟨rfl, rfl, fun _ _ => rfl⟩
  · exact ⟨rfl, rfl, fun _ _ => rfl⟩
  · exact ⟨storeOut_cfg .., storeOut_port .., fun x hx => s.storeOut_other obo c.views bytes (hn ▸ hx)⟩

/-- Settles O17: an encode command is one encode cycle, which stores as many bytes as its count says. -/
theorem encodeCommandsStoreOnlyTheirRange : Obligations.EncodeCommandsStoreOnlyTheirRange := by
  intro i obo n s t ho ht
  obtain ⟨c, bytes, he, -, hn⟩ := exec_encode i s ho
  obtain rfl := Host.Outcome.next.inj (he.symm.trans ht)
  exact s.encodeCycle_frame c hn

/-- An encode command that no check stops stores its bytes and completes with their count. -/
theorem exec_encode_done {i : Instr} {s : State} {obo n : Nat} (ho : instrOut i = some (obo, n)) (hr : Ready s i)
    (hroom : fitsOb s i) :
    ∃ views bytes, exec i s = .next ((s.storeOut obo views bytes).complete (.count n)) := by
  obtain ⟨c, bytes, he, hc, -⟩ := exec_encode i s ho
  rw [State.encodeCycle_done bytes hr.running (hr.firstFault_out hc ho hroom)] at he
  exact ⟨c.views, bytes, he⟩

/-- Settles O18: no check stops the cycle, and neither STATUS nor RES depends on the bytes stored. -/
theorem encodeCommandsComplete : Obligations.EncodeCommandsComplete := by
  intro i obo n s ho hr hroom
  obtain ⟨views, bytes, he⟩ := exec_encode_done ho hr hroom
  exact ⟨_, he, State.complete_status _ _, State.complete_res _ _⟩

end Sys2Proof.Machine
end

section
/-! What the rules read of a buffer: two buffers that agree on the bytes of a view give the same outcome of a parse
(20_memory.md R67, 43_padding.md R182) and the same bytes of an encode command (R255). -/

namespace Sys2Proof

theorem Result.bind_congr {α β : Type} {r : Result α} {f g : α → Result β} (h : ∀ a, r = .ok a → f a = g a) :
    r.bind f = r.bind g := by
  cases r with
  | ok a => exact h a rfl
  | raise e => rfl

namespace Machine

/-- Two buffers hold the same `n` bytes from offset `a` up. -/
def AgreeOn (ib ib' : Buffer) (a n : Nat) : Prop := ∀ j, j < n → ib (a + j) = ib' (a + j)

theorem AgreeOn.sub {ib ib' : Buffer} {a n x k : Nat} (h : AgreeOn ib ib' a n) (hx : a ≤ x) (hk : x + k ≤ a + n) :
    AgreeOn ib ib' x k := by
  intro j hj
  have hat := h (x - a + j) (by omega)
  rwa [show a + (x - a + j) = x + j by omega] at hat

theorem AgreeOn.byte {ib ib' : Buffer} {a n x : Nat} (h : AgreeOn ib ib' a n) (hx : a ≤ x) (hlt : x < a + n) :
    ib x = ib' x :=
  h.sub hx (Nat.succ_le_of_lt hlt) 0 Nat.one_pos

/-- Two memories that agree on cells of IB agree as buffers. -/
theorem agreeOn_of_read {s : State} {m : Memory} {a n : Nat}
    (h : ∀ j, j < n → m.read (s.cfg.ibBase + a + j) = s.mem.read (s.cfg.ibBase + a + j)) :
    AgreeOn (State.ib { s with mem := m }) s.ib a n := by
  intro j hj
  simpa only [State.ib_apply, Nat.add_assoc] using h j hj

/-! ### Decoders, padding and priority blocks -/

section
variable {ib ib' : Buffer} {a n x : Nat}

theorem memRead_congr {k : Nat} (h : AgreeOn ib ib' a n) (hx : a ≤ x) (hk : x + k ≤ a + n) :
    memRead ib x k = memRead ib' x k :=
  congrArg beNat (readBytes_congr (h.sub hx hk))

theorem u16Decode_congr (h : AgreeOn ib ib' a n) (hx : a ≤ x) (hk : x + 2 ≤ a + n) :
    u16Decode ib x = u16Decode ib' x :=
  congrArg (BitVec.ofNat 16) (memRead_congr h hx hk)

theorem u24Decode_congr (h : AgreeOn ib ib' a n) (hx : a ≤ x) (hk : x + 3 ≤ a + n) :
    u24Decode ib x = u24Decode ib' x :=
  congrArg (BitVec.ofNat 32) (memRead_congr h hx hk)

theorem u32Decode_congr (h : AgreeOn ib ib' a n) (hx : a ≤ x) (hk : x + 4 ≤ a + n) :
    u32Decode ib x = u32Decode ib' x :=
  congrArg (BitVec.ofNat 32) (memRead_congr h hx hk)

theorem u64Decode_congr (h : AgreeOn ib ib' a n) (hx : a ≤ x) (hk : x + 8 ≤ a + n) :
    u64Decode ib x = u64Decode ib' x :=
  congrArg (BitVec.ofNat 64) (memRead_congr h hx hk)

theorem sidDecode_congr (h : AgreeOn ib ib' a n) (hx : a ≤ x) (hk : x + 4 ≤ a + n) :
    sidDecode ib x = sidDecode ib' x :=
  congrArg (· &&& Config.sidMask) (u32Decode_congr h hx hk)

theorem priorityAt_congr (h : AgreeOn ib ib' a n) (hx : a ≤ x) (hk : x + 5 ≤ a + n) :
    priorityAt ib x = priorityAt ib' x := by
  simp only [priorityAt, u32Decode_congr h hx (by omega), h.byte (x := x + 4) (by omega) (by omega)]

end

section
variable {ib ib' : Buffer} {v : View}

/-- SID_PARSE reads the first four bytes of its view. -/
theorem sidParse_congr (h : AgreeOn ib ib' v.off (min 4 v.len)) : sidParse ib v = sidParse ib' v := by
  unfold sidParse
  split_ifs
  · rfl
  · rw [sidDecode_congr h le_rfl (by omega)]

/-- HDR_PARSE reads the first nine bytes of its view. -/
theorem hdrParse_congr (h : AgreeOn ib ib' v.off (min 9 v.len)) : hdrParse ib v = hdrParse ib' v := by
  unfold hdrParse Config.hdrLen
  split_ifs
  · rfl
  · rw [h.byte (x := v.off + 4) (by omega) (by omega), h.byte (x := v.off + 3) (by omega) (by omega),
      u24Decode_congr h le_rfl (by omega), sidDecode_congr h (x := v.off + 5) (by omega) (by omega)]

theorem padStrip_congr (h : ib v.off = ib' v.off) : padStrip ib v = padStrip ib' v := by
  simp only [padStrip, h]

/-- PAD_STRIP reads the first byte of its view (R182). -/
theorem padStripCommand_congr (h : AgreeOn ib ib' v.off (min 1 v.len)) :
    padStripCommand ib v = padStripCommand ib' v := by
  unfold padStripCommand
  split_ifs
  · rfl
  · exact padStrip_congr (h.byte le_rfl (by omega))

/-- A priority block is the first five bytes of its view. -/
theorem prioBlock_congr (h : AgreeOn ib ib' v.off (min 5 v.len)) : prioBlock ib v = prioBlock ib' v := by
  unfold prioBlock Config.prioLen
  split_ifs
  · rfl
  · rw [priorityAt_congr h le_rfl (by omega)]

theorem prioParse_congr (present : Bool) (h : AgreeOn ib ib' v.off (min 5 v.len)) :
    prioParse ib present v = prioParse ib' present v := by
  unfold prioParse
  rw [prioBlock_congr h]

end

/-! ### The payload dispatcher -/

/-- The content of a region lies inside the region. -/
theorem contentOf_within {ib : Buffer} {g : Region} {c : View} (h : contentOf ib g = .ok c) :
    g.r.off ≤ c.off ∧ c.off + c.len ≤ g.r.off + g.r.len := by
  unfold contentOf at h
  split_ifs at h
  · simp only [padStrip] at h
    split_ifs at h
    cases h
    simp only [viewSlice]
    omega
  · cases h
    exact ⟨le_rfl, le_rfl⟩

section
variable {ib ib' : Buffer} {g : Region}

theorem contentOf_congr (h : AgreeOn ib ib' g.r.off g.r.len) (hpad : g.pad = true → 0 < g.r.len) :
    contentOf ib g = contentOf ib' g := by
  unfold contentOf
  split_ifs with hp
  · exact padStrip_congr (h.byte le_rfl (Nat.lt_add_of_pos_right (hpad hp)))
  · rfl

/-- Each arm of the dispatcher reads no byte outside its region. -/
theorem payloadArm_congr (wuMask : Bool) (k : Kind) (h : AgreeOn ib ib' g.r.off g.r.len)
    (hpad : g.pad = true → 0 < g.r.len) : payloadArm wuMask ib k g = payloadArm wuMask ib' k g := by
  have hcontent := contentOf_congr h hpad
  cases k with
  | data => exact congrArg (Result.map _) hcontent
  | headers =>
    simp only [payloadArm, parseHeaders, ← hcontent]
    refine Result.bind_congr fun c hc => ?_
    obtain ⟨hlo, hhi⟩ := contentOf_within hc
    rw [prioParse_congr g.pri (h.sub hlo (by omega))]
  | priority => exact congrArg (Result.map _) (prioBlock_congr (h.sub le_rfl (by omega)))
  | reset =>
    simp only [payloadArm, parseReset]
    split_ifs
    · rfl
    · rw [u32Decode_congr h le_rfl (by omega)]
  | settings => rfl
  | pushPromise =>
    simp only [payloadArm, parsePushPromise, ← hcontent]
    refine Result.bind_congr fun c hc => ?_
    obtain ⟨hlo, hhi⟩ := contentOf_within hc
    split_ifs
    · rfl
    · rw [sidDecode_congr h hlo (by omega)]
  | ping =>
    simp only [payloadArm, parsePing]
    split_ifs
    · rfl
    · rw [u64Decode_congr h le_rfl (by omega)]
  | goAway =>
    simp only [payloadArm, parseGoAway]
    split_ifs
    · rfl
    · rw [sidDecode_congr h le_rfl (by omega), u32Decode_congr h (x := g.r.off + 4) (by omega) (by omega)]
  | windowUpdate =>
    simp only [payloadArm, parseWindowUpdate]
    split_ifs
    · rfl
    · rw [u32Decode_congr h le_rfl (by omega)]
  | continuation => rfl
  | unregistered => rfl

end

/-- Where the length checks of R210 do not pass, the prologue raises an error. -/
theorem payloadPrologue_raises {h : FrameHeader} {v : View} (ha : ¬ReachesArm h v) :
    ∃ e, payloadPrologue h v = .raise e := by
  unfold payloadPrologue
  rw [minPayloadLength_eq]
  split_ifs with hshort hmin
  · exact ⟨_, rfl⟩
  · exact ⟨_, rfl⟩
  · exact absurd ⟨not_lt.1 hshort, not_lt.1 hmin⟩ ha

/-- A padded payload that passes the length checks has a pad length byte (R210). -/
theorem length_pos_of_padded {h : FrameHeader} {v : View} (ha : ReachesArm h v) (hp : h.flags.getLsbD 3 = true) :
    0 < h.length.toNat := by
  have hmin := ha.2
  simp only [minLength, hp, if_true] at hmin
  omega

/-- A payload parse reads the first `header.length` bytes of its view. -/
theorem payloadParse_congr {ib ib' : Buffer} (wuMask : Bool) {h : FrameHeader} {v : View}
    (hag : AgreeOn ib ib' v.off (min h.length.toNat v.len)) :
    payloadParse wuMask ib h v = payloadParse wuMask ib' h v := by
  unfold payloadParse
  by_cases ha : ReachesArm h v
  · rw [payloadPrologue_eq ha]
    exact payloadArm_congr wuMask _ (by simpa only [regionOf, Nat.min_eq_left ha.1] using hag)
      (length_pos_of_padded ha)
  · obtain ⟨e, he⟩ := payloadPrologue_raises ha
    rw [he]
    rfl

/-- A reading command whose rule gives the same at two memories gives the same STATUS and RES at both. -/
theorem exec_withMem {i : Instr} {s t : State} {m : Memory} {c : Checks} {rule rule' : Result Res}
    (hm : exec i { s with mem := m } = .next (State.readCycle { s with mem := m } c rule'))
    (hs : exec i s = .next (s.readCycle c rule)) (hrule : rule' = rule) (ht : exec i s = .next t) :
    exec i { s with mem := m } = .next { t with mem := m } := by
  obtain rfl := Host.Outcome.next.inj (hs.symm.trans ht)
  rw [hm, hrule, State.readCycle_withMem]

/-- Settles O19: the rule of each parse is a function of the bytes of its footprint that its view holds. -/
theorem parsesReadOnlyTheirFootprint : Obligations.ParsesReadOnlyTheirFootprint := by
  intro i v n s t m hi hread ht
  have hag : AgreeOn (State.ib { s with mem := m }) s.ib v.off (min n v.len) :=
    agreeOn_of_read fun j hj => hread j (by omega) (by omega)
  obtain ⟨rfl, rfl⟩ | ⟨rfl, rfl⟩ | ⟨present, rfl, rfl⟩ | ⟨rfl, rfl⟩ | ⟨rfl, rfl⟩ | ⟨h, rfl | rfl, rfl⟩ := hi
  · exact exec_withMem rfl rfl (sidParse_congr hag) ht
  · exact exec_withMem rfl rfl (congrArg (Result.map _) (hdrParse_congr hag)) ht
  · exact exec_withMem rfl rfl (congrArg (Result.map _) (prioParse_congr present hag)) ht
  · exact exec_withMem rfl rfl (congrArg (Result.map _) (padStripCommand_congr hag)) ht
  · exact exec_withMem rfl rfl rfl ht
  · exact exec_withMem rfl rfl (congrArg (Result.map _) (payloadParse_congr s.cfg.wuMask hag)) ht
  · exact exec_withMem rfl rfl (congrArg (Result.map _) (payloadParse_congr s.cfg.wuMask hag)) ht

end Machine

end Sys2Proof
end

section
/-! Executing an encode command again (20_memory.md R66): its bytes are a function of its operands and of the IB bytes
its views denote (R255), and a store into OB apart from those bytes leaves them as they were. -/

namespace Sys2Proof.Machine

/-! ### The bytes of an encode command -/

section
variable {ib ib' : Buffer}

theorem viewBytes_congr {v : View} (h : AgreeOn ib ib' v.off v.len) : viewBytes ib v = viewBytes ib' v :=
  readBytes_congr h

theorem settingAt_congr {v : View} {i : Nat} (h : AgreeOn ib ib' v.off v.len) (hi : i < v.len / 6) :
    settingAt ib v i = settingAt ib' v i := by
  simp only [settingAt, Config.settingLen]
  rw [u16Decode_congr h (by omega) (by omega), u32Decode_congr h (by omega) (by omega)]

theorem seqBytes_congr {q : SettingSeq} (h : ∀ v ∈ seqViews q, AgreeOn ib ib' v.off v.len) :
    seqBytes ib q = seqBytes ib' q := by
  cases q with
  | list rs => rfl
  | view v =>
    have hv := h v (List.mem_singleton_self v)
    have hrecords : seqRecords ib (.view v) = seqRecords ib' (.view v) :=
      List.map_congr_left fun i hi => settingAt_congr hv (List.mem_range.1 hi)
    simp only [seqBytes, hrecords]

theorem payloadBytes_congr (wuMask : Bool) {pl : Payload} (h : ∀ v ∈ payloadViews pl, AgreeOn ib ib' v.off v.len) :
    payloadBytes wuMask ib pl = payloadBytes wuMask ib' pl := by
  cases pl with
  | settings q => exact seqBytes_congr h
  | headers opt v =>
    cases opt with
    | none => exact viewBytes_congr (h v (List.mem_singleton_self v))
    | some pr => exact congrArg (prioBytes pr ++ ·) (viewBytes_congr (h v (List.mem_singleton_self v)))
  | pushPromise id v => exact congrArg (sidBytes id ++ ·) (viewBytes_congr (h v (List.mem_singleton_self v)))
  | goAway l e v =>
    exact congrArg (sidBytes l ++ u32Bytes e ++ ·) (viewBytes_congr (h v (List.mem_singleton_self v)))
  | data v | continuation v | unregistered v => exact viewBytes_congr (h v (List.mem_singleton_self v))
  | priority _ | reset _ | ping _ | windowUpdate _ | illegal _ => rfl

end

/-- The bytes that an encode command writes from `OB[obo]` up (R68); none for every other instruction. -/
def instrBytes (wuMask : Bool) (ib : Buffer) : Instr → List Byte
  | .sidEncode sid _ => sidBytes sid
  | .hdrEncode h _ => headerBytes h
  | .prioEncode pr _ => prioBytes pr
  | .settingsEncode q _ => seqBytes ib q
  | .payloadEncode pl _ => payloadBytes wuMask ib pl
  | .frameEncode fr _ => frameBytes wuMask ib fr
  | _ => []

theorem length_instrBytes (wuMask : Bool) (ib : Buffer) {i : Instr} {obo n : Nat} (ho : instrOut i = some (obo, n)) :
    (instrBytes wuMask ib i).length = n := by
  cases i <;> simp only [instrOut, Option.some.injEq, Prod.mk.injEq, reduceCtorEq] at ho <;> obtain ⟨-, rfl⟩ := ho
  case sidEncode => simp [instrBytes, sidBytes, u32Bytes]
  case hdrEncode => exact length_headerBytes _
  case prioEncode => simp [instrBytes, prioBytes, u32Bytes]
  case settingsEncode => exact length_seqBytes _ _
  case payloadEncode => exact length_payloadBytes _ _ _
  case frameEncode => exact length_frameBytes _ _ _

/-- An instruction's bytes depend on no byte of IB outside its views (R255). -/
theorem instrBytes_congr {ib ib' : Buffer} (wuMask : Bool) {i : Instr} {iblen : Nat}
    (h : ∀ v ∈ instrViews iblen i, AgreeOn ib ib' v.off v.len) : instrBytes wuMask ib i = instrBytes wuMask ib' i := by
  cases i with
  | settingsEncode q obo => exact seqBytes_congr h
  | payloadEncode pl obo => exact payloadBytes_congr wuMask h
  | frameEncode fr obo => exact congrArg (headerBytes fr.header ++ ·) (payloadBytes_congr wuMask h)
  | _ => rfl

/-- An encode command is the encode cycle of its bytes. -/
theorem exec_encode_bytes (i : Instr) (s : State) {obo n : Nat} (ho : instrOut i = some (obo, n)) :
    ∃ c, exec i s = .next (s.encodeCycle c obo n (instrBytes s.cfg.wuMask s.ib i)) ∧ ChecksOf s.cfg i c := by
  cases i <;> simp only [instrOut, Option.some.injEq, Prod.mk.injEq, reduceCtorEq] at ho <;>
    obtain ⟨rfl, rfl⟩ := ho <;> exact ⟨_, rfl, rfl, rfl, rfl, rfl⟩

/-- An encode command that can run leaves its bytes at `OB[obo ..]`. -/
theorem exec_encode_wrote {i : Instr} {s t : State} {obo n : Nat} (ho : instrOut i = some (obo, n))
    (h : CanEncode s i) (ht : exec i s = .next t) : Wrote s t obo n (instrBytes s.cfg.wuMask s.ib i) := by
  obtain ⟨c, he, hc⟩ := exec_encode_bytes i s ho
  obtain ⟨t', ht', hw⟩ := encodes_of_bytes h he hc ho (length_instrBytes _ _ ho)
  obtain rfl := Host.Outcome.next.inj (ht'.symm.trans ht)
  exact hw

/-! ### Executing it again -/

/-- An encode command keeps the canonical form of the cells. -/
theorem exec_encode_wf {i : Instr} {s t : State} {obo n : Nat} (ho : instrOut i = some (obo, n)) (h : s.mem.wf)
    (ht : exec i s = .next t) : t.mem.wf := by
  obtain ⟨c, bytes, he, -⟩ := exec_encode i s ho
  obtain rfl := Host.Outcome.next.inj (he.symm.trans ht)
  obtain ⟨-, heq⟩ | ⟨-, f, -, heq⟩ | ⟨-, -, heq⟩ := s.encodeCycle_cases c obo n bytes <;> rw [heq]
  · exact h
  · exact h
  · exact State.storeOut_wf obo c.views bytes h

/-- After an encode command that could run, an instruction that could run can run still: the parameters are as they were
and STATUS is 0. -/
theorem CanEncode.after {i : Instr} {s t : State} {obo n : Nat} {bytes : List Byte} (h : CanEncode s i)
    (hw : Wrote s t obo n bytes) (hwf : t.mem.wf) : CanEncode t i where
  ready :=
    { running := State.faulted_of_status hw.status
      legal := h.ready.legal
      inside := hw.cfg ▸ h.ready.inside
      kinds := h.ready.kinds }
  room := by simpa only [fitsOb, hw.cfg] using h.room
  apart := by simpa only [noOverlap, hw.cfg] using h.apart
  cells := hwf

/-- A cell of a view that OB does not overlap is no cell of OB (R351). -/
theorem not_mem_ob_of_apart {p : Params} {v : View} {obo n j : Nat} (ha : overlapsOb p v = false)
    (hroom : obo + n ≤ p.obcap) (hj : j < v.len) :
    ¬(p.obBase + obo ≤ p.ibBase + (v.off + j) ∧ p.ibBase + (v.off + j) < p.obBase + obo + n) := by
  simp only [overlapsOb, Bool.and_eq_false_iff, decide_eq_false_iff_not] at ha
  omega

/-- A store into OB leaves the bytes of a view that OB does not overlap as they were. -/
theorem Wrote.agreeOn {s t : State} {obo n : Nat} {bytes : List Byte} {v : View} (hw : Wrote s t obo n bytes)
    (ha : overlapsOb s.cfg v = false) (hroom : obo + n ≤ s.cfg.obcap) : AgreeOn t.ib s.ib v.off v.len := by
  intro j hj
  rw [State.ib_apply, State.ib_apply, hw.cfg]
  exact hw.others _ (not_mem_ob_of_apart ha hroom hj)

/-- Storing the bytes that already stand in a range changes no cell. -/
theorem Wrote.read_eq_of_same {s t u : State} {obo n : Nat} {bytes : List Byte} (ht : Wrote s t obo n bytes)
    (hu : Wrote t u obo n bytes) (x : Nat) : u.mem.read x = t.mem.read x := by
  by_cases hx : t.cfg.obBase + obo ≤ x ∧ x < t.cfg.obBase + obo + n
  · obtain ⟨j, rfl⟩ := Nat.exists_eq_add_of_le hx.1
    have hj : j < n := by omega
    have hbytes : readBytes u.ob obo n = readBytes t.ob obo n := hu.bytes.trans ht.bytes.symm
    have hob := List.getElem_of_eq hbytes (i := j) (by simpa using hj)
    simpa only [getElem_readBytes, State.ob_apply, hu.cfg, Nat.add_assoc] using hob
  · exact hu.others x hx

/-- Settles O21: the second execution reads in its views the bytes that the first read, since OB is apart from them, so
it stores the bytes that already stand there. -/
theorem encodeCommandsAreIdempotent : Obligations.EncodeCommandsAreIdempotent := by
  intro i s t u ho h ht hu
  obtain ⟨⟨obo, n⟩, ho⟩ := Option.ne_none_iff_exists'.1 ho
  have hwt := exec_encode_wrote ho h ht
  have hwu := exec_encode_wrote ho (h.after hwt (exec_encode_wf ho h.cells ht)) hu
  have hbytes : instrBytes t.cfg.wuMask t.ib i = instrBytes s.cfg.wuMask s.ib i := by
    rw [hwt.cfg]
    exact instrBytes_congr _ fun v hv => hwt.agreeOn (h.apart v hv) (h.room obo n ho)
  rw [hbytes] at hwu
  exact ⟨hwu.status.trans hwt.status.symm, hwu.res.trans hwt.res.symm, hwt.read_eq_of_same hwu⟩

end Sys2Proof.Machine
end

section
/-! Decoding what the encoder writes (30_encoding.md R120, R121 for a record, R90, R91 for a frame header). -/

namespace Sys2Proof

open Machine

/-! ### Frame headers -/

/-- Reading the kind byte that a kind is written as gives the kind back (R93, R152). -/
theorem kindNew_kindEncode (k : Kind) : kindNew (kindEncode k) = k := by
  cases k <;> rfl

/-- The three bytes of a length are its 24 bits (R90, R91). -/
theorem append_bytes24 (x : BitVec 24) :
    (x.extractLsb' 16 8 ++ x.extractLsb' 8 8 ++ x.extractLsb' 0 8 : BitVec 24) = x := by
  apply BitVec.eq_of_getLsbD_eq
  intro i hi
  simp only [BitVec.getLsbD_append, BitVec.getLsbD_extractLsb']
  interval_cases i <;> simp

/-- The four bytes of a stream identifier, without the reserved bit of the first, are its 31 bits (R90, R91). -/
theorem append_bytes31 (x : BitVec 31) :
    (((x.extractLsb' 24 7).setWidth 8).extractLsb' 0 7 ++ x.extractLsb' 16 8 ++ x.extractLsb' 8 8 ++
      x.extractLsb' 0 8 : BitVec 31) = x := by
  apply BitVec.eq_of_getLsbD_eq
  intro i hi
  simp only [BitVec.getLsbD_append, BitVec.getLsbD_extractLsb', BitVec.getLsbD_setWidth]
  interval_cases i <;> simp

/-- Every field of a frame header with a legal flag byte is read back. -/
theorem decodeHeader_encodeHeaderBytes (k : Kind) {w : WireHeader} (c : Nat) (hw : flagsLegal w.flags = true) :
    decodeHeader c (encodeHeaderBytes k w) = .ok (wireInstr k w c) := by
  simp only [decodeHeader, encodeHeaderBytes, flagsNew_legal hw, kindNew_kindEncode, append_bytes24, append_bytes31]

/-! ### All instructions -/

/-- A record whose opcode is put below its operands is decoded by the arm of that opcode; each operand that fits its
field is read back, whatever lies above it. -/
theorem decode_encode {aw : Nat} {i : Instr} (h : i.fits aw = true) : decode aw (encode aw i) = .ok i := by
  cases i with
  | flagsNew _ | flagsHas _ _ | kindNew _ | kindEncode _ | settingLookup _ =>
    simp [decode, encode, decodeRecord, takeBits_putBits]
  | sidParse v | hdrParse v | padStrip v | settingsParse v =>
    simp [decode, encode, decodeRecord, takeBits_putBits, takeView_putView (v := v) h]
  | prioParse p v =>
    simp [decode, encode, decodeRecord, takeBits_putBits, takeBool_putBool, takeView_putView (v := v) h]
  | payloadParse fh v | frameParse fh v =>
    simp [decode, encode, decodeRecord, takeBits_putBits, takeHeader_putHeader, takeView_putView (v := v) h]
  | sidEncode sid obo | hdrEncode fh obo | prioEncode pr obo =>
    have hobo : obo < 2 ^ aw := of_decide_eq_true h
    simp [decode, encode, decodeRecord, takeBits_putBits, takeHeader_putHeader, takePriority_putPriority,
      takeAddr_putAddr hobo]
  | settingsEncode q obo =>
    obtain ⟨hq, hobo⟩ := Bool.and_eq_true_iff.1 h
    simp [decode, encode, decodeRecord, takeBits_putBits, takeSeq_putSeq hq,
      takeAddr_putAddr (of_decide_eq_true hobo)]
  | payloadEncode pl obo =>
    obtain ⟨hpl, hobo⟩ := Bool.and_eq_true_iff.1 h
    simp [decode, encode, decodeRecord, takeBits_putBits, takePayload_putPayload hpl,
      takeAddr_putAddr (of_decide_eq_true hobo)]
  | payloadLen pl => simp [decode, encode, decodeRecord, takeBits_putBits, takePayload_putPayload (pl := pl) h]
  | frameEncode fr obo =>
    obtain ⟨hfr, hobo⟩ := Bool.and_eq_true_iff.1 h
    simp [decode, encode, decodeRecord, takeBits_putBits, takeFrame_putFrame hfr,
      takeAddr_putAddr (of_decide_eq_true hobo)]
  | frameLen fr => simp [decode, encode, decodeRecord, takeBits_putBits, takeFrame_putFrame (fr := fr) h]
  | kindData w c => exact decodeHeader_encodeHeaderBytes .data c h
  | kindHeaders w c => exact decodeHeader_encodeHeaderBytes .headers c h
  | kindPriority w c => exact decodeHeader_encodeHeaderBytes .priority c h
  | kindReset w c => exact decodeHeader_encodeHeaderBytes .reset c h
  | kindSettings w c => exact decodeHeader_encodeHeaderBytes .settings c h
  | kindPushPromise w c => exact decodeHeader_encodeHeaderBytes .pushPromise c h
  | kindPing w c => exact decodeHeader_encodeHeaderBytes .ping c h
  | kindGoAway w c => exact decodeHeader_encodeHeaderBytes .goAway c h
  | kindWindowUpdate w c => exact decodeHeader_encodeHeaderBytes .windowUpdate c h
  | kindContinuation w c => exact decodeHeader_encodeHeaderBytes .continuation c h
  | kindUnregistered w c => exact decodeHeader_encodeHeaderBytes .unregistered c h

/-- Settles O4: a command's operands are read back field by field, a frame kind's header byte by byte. -/
theorem decodeOfEncodeIsIdentity : Obligations.DecodeOfEncodeIsIdentity :=
  fun _ _ => decode_encode

/-- Settles O5: the decoder is evaluated at each word. -/
theorem sampleWordsDecode : Obligations.SampleWordsDecode := by
  refine ⟨?_, ?_, ?_, ?_, ?_, ?_⟩ <;> decide

/-! ### Unassigned opcodes -/

/-- A low byte that R120 assigns no command is rejected as an opcode. -/
theorem decodeRecord_unassigned (aw : Nat) {bits : Nat}
    (h : bits % 256 = 0x00 ∨ bits % 256 = 0x0F ∨ 0x16 ≤ bits % 256) :
    decodeRecord aw bits = .error (.badOpcode (BitVec.ofNat 8 bits)) := by
  have hopc : (takeBits 8 bits).1.toNat = bits % 256 := BitVec.toNat_ofNat bits 8
  unfold decodeRecord
  simp only [hopc]
  split
  case h_21 => rfl
  all_goals omega

end Sys2Proof
end

section
/-! What the port does with a record of an unassigned opcode (30_encoding.md R120, 10_state.md R50) and with the frame
at a cursor (30_encoding.md R123). -/

namespace Sys2Proof.Machine

namespace State

theorem reject_badOpcode {s : State} (opc : Byte) (hs : s.faulted = false) :
    s.reject (.badOpcode opc) = s.takeFault .badOpcode := by
  simp [reject, badOpcode, hs]

/-- A record whose low byte is no assigned opcode faults BAD_OPCODE. -/
theorem issueFetched_unassigned {s : State} {bits : Nat} (hs : s.faulted = false)
    (h : bits % 256 = 0x00 ∨ bits % 256 = 0x0F ∨ 0x16 ≤ bits % 256) :
    s.issueFetched (.record bits) = .done (s.takeFault .badOpcode) := by
  rw [issueFetched_of_reject (f := .record bits) (decodeRecord_unassigned s.cfg.addrW h), reject_badOpcode _ hs]

theorem reject_badHeader {s : State} (e : ProtoError) (hs : s.faulted = false) :
    s.reject (.badHeader e) = s.raiseError e := by
  simp [reject, hs]

theorem issueFrame_stuck {s : State} (c : Nat) (hs : s.faulted = true) : s.issueFrame c = .done s := by
  simp [issueFrame, hs]

/-- A cursor past IBLEN has no header view inside IB (log entry 12). -/
theorem issueFrame_outside {s : State} {c : Nat} (hs : s.faulted = false) (hc : s.cfg.iblen < c) :
    s.issueFrame c = .done (s.takeFault .ibBounds) := by
  have hout : viewInside s.cfg.iblen (headerViewAt s.cfg.iblen c) = false :=
    decide_eq_false (show ¬c + (s.cfg.iblen - c) ≤ s.cfg.iblen by omega)
  simp [issueFrame, hs, hout]

/-- At a cursor in IB the port decodes the bytes of the header view. -/
theorem issueFrame_inside {s : State} {c : Nat} (hs : s.faulted = false) (hc : c ≤ s.cfg.iblen) :
    s.issueFrame c = s.issueFetched (.frame c (headerBytesAt s.ib (headerViewAt s.cfg.iblen c))) := by
  have hin : viewInside s.cfg.iblen (headerViewAt s.cfg.iblen c) = true :=
    decide_eq_true (show c + (s.cfg.iblen - c) ≤ s.cfg.iblen by omega)
  simp [issueFrame, hs, hin]

/-- While the block is not stuck, a reading cycle does not depend on the STATUS and RES it starts from (R341). -/
theorem readCycle_with {s : State} (c : Checks) (rule : Result Res) {w : BitVec 32} (r : Res)
    (hs : s.faulted = false) (hw : statusFault w = false) :
    State.readCycle { s with status := w, res := r } c rule = s.readCycle c rule := by
  obtain ⟨hstuck, -⟩ | ⟨-, f, hf, heq⟩ | ⟨-, hf, ⟨r', rfl, heq⟩ | ⟨e, rfl, heq⟩⟩ := s.readCycle_cases c rule
  · simp [hs] at hstuck
  · exact heq ▸ readCycle_fault rule hw hf
  · exact heq ▸ readCycle_rule _ hw hf
  · exact heq ▸ readCycle_rule _ hw hf

end State

/-- Settles O6: the decoder rejects the record for its opcode, which the block faults. -/
theorem unassignedOpcodeFaults : Obligations.UnassignedOpcodeFaults := by
  intro s bits rest hp hs hopc
  exact step_of_issue_done hp (State.issueFetched_unassigned (s := { s with port := rest }) hs hopc)

/-- Settles O2: the header view at the cursor is inside IB and holds the nine bytes, so the port issues what they decode
to. -/
theorem stepRunsDecodedFrame : Obligations.StepRunsDecodedFrame := by
  intro s c rest i hp hs hc hd
  have hbytes : headerBytesAt s.ib (headerViewAt s.cfg.iblen c) = readBytes s.ib c 9 := by
    simp only [headerBytesAt, headerViewAt, Config.hdrLen]
    rw [Nat.min_eq_right (by omega)]
  rw [← hbytes] at hd
  exact step_of_issue_run hp
    ((State.issueFrame_inside (s := { s with port := rest }) hs (Nat.le_of_add_right_le hc)).trans
      (State.issueFetched_of_decode hd))

/-! ### FRAME_DECODE is two commands -/

/-- HDR_PARSE of a view outside IB faults, whatever the view holds. -/
theorem exec_hdrParse_outside {s : State} {v : View} (hs : s.faulted = false) (hv : s.cfg.iblen < v.off + v.len) :
    exec (.hdrParse v) s = .next (s.takeFault .ibBounds) :=
  congrArg Host.Outcome.next
    (State.readCycle_fault _ hs (Checks.firstFault_outside rfl ⟨v, List.mem_singleton_self v, hv⟩))

/-- HDR_PARSE of a view inside IB applies its rule. -/
theorem exec_hdrParse_inside {s : State} {v : View} (hs : s.faulted = false) (hv : v.off + v.len ≤ s.cfg.iblen) :
    (∀ h, hdrParse s.ib v = .ok h → exec (.hdrParse v) s = .next (s.complete (.header h))) ∧
      ∀ e, hdrParse s.ib v = .raise e → exec (.hdrParse v) s = .next (s.raiseError e) := by
  have hready : Ready s (.hdrParse v) := ⟨hs, rfl, List.forall_mem_singleton.2 hv, rfl⟩
  exact ⟨fun h hok => gives_of_ok hready rfl ⟨rfl, rfl, rfl, rfl⟩ (congrArg (Result.map _) hok),
    fun e herr => stops_of_raise hready rfl ⟨rfl, rfl, rfl, rfl⟩ (congrArg (Result.map _) herr)⟩

/-- FRAME_PARSE after a completed command answers what it answers before it: it reads neither STATUS nor RES. -/
theorem exec_frameParse_complete {s : State} (h : FrameHeader) (v : View) (r : Res) (hs : s.faulted = false) :
    exec (.frameParse h v) (s.complete r) = exec (.frameParse h v) s :=
  congrArg Host.Outcome.next (State.readCycle_with _ _ r hs rfl)

/-- Everything FRAME_DECODE can come to, beside HDR_PARSE of its header view: HDR_PARSE completes with the header of the
kind that the port then issues, or both end in the same state, whose STATUS is not 0. -/
theorem issueFrame_cases (s : State) (c : Nat) :
    (∃ k w, s.faulted = false ∧ s.issueFrame c = .run (wireInstr k w c) ∧
      exec (.hdrParse (headerViewAt s.cfg.iblen c)) s = .next (s.complete (.header (wireFrameHeader k w)))) ∨
    ∃ t, t.status ≠ 0#32 ∧ s.issueFrame c = .done t ∧ exec (.hdrParse (headerViewAt s.cfg.iblen c)) s = .next t := by
  cases hs : s.faulted with
  | true => exact .inr ⟨s, State.status_ne_of_faulted hs, State.issueFrame_stuck c hs, exec_stuck _ hs⟩
  | false =>
    rcases Nat.lt_or_ge s.cfg.iblen c with hc | hc
    · exact .inr ⟨_, State.takeFault_status_ne s .ibBounds, State.issueFrame_outside hs hc,
        exec_hdrParse_outside hs (Nat.lt_add_right _ hc)⟩
    · obtain ⟨hok, herr⟩ := exec_hdrParse_inside (v := headerViewAt s.cfg.iblen c) hs (Nat.add_sub_of_le hc).le
      have hdecode := decode_headerBytesAt s (headerViewAt s.cfg.iblen c) s.cfg.addrW c
      rw [State.issueFrame_inside hs hc]
      cases hparse : hdrParse s.ib (headerViewAt s.cfg.iblen c) with
      | ok h =>
        rw [hparse] at hdecode
        obtain ⟨k, w, rfl, hd⟩ := hdecode
        exact .inl ⟨k, w, rfl, State.issueFetched_of_decode hd, hok _ hparse⟩
      | raise e =>
        rw [hparse] at hdecode
        refine .inr ⟨s.raiseError e, State.statusOfError_ne e, ?_, herr e hparse⟩
        rw [State.issueFetched_of_reject hdecode, State.reject_badHeader e hs]

/-- Settles O3: where HDR_PARSE completes, the step executes the frame kind of its header, which is FRAME_PARSE of it;
where it does not, the step ends in its state. -/
theorem frameDecodeIsHdrParseThenFrameParse : Obligations.FrameDecodeIsHdrParseThenFrameParse := by
  intro s c rest hp
  obtain ⟨k, w, hs, hi, he⟩ | ⟨t, hne, hi, he⟩ := issueFrame_cases { s with port := rest } c
  · refine ⟨_, he, fun _ => ⟨_, rfl, ?_⟩, fun h => absurd rfl h⟩
    calc
      step s = exec (wireInstr k w c) { s with port := rest } := step_of_issue_run hp hi
      _ = exec (.frameParse (wireFrameHeader k w) (payloadViewAt s.cfg.iblen c)) { s with port := rest } :=
        exec_wireInstr k w c _
      _ = _ := (exec_frameParse_complete _ _ _ hs).symm
  · exact ⟨t, he, fun h => absurd h hne, fun _ => step_of_issue_done hp hi⟩

end Sys2Proof.Machine
end

section
/-! Where each arm of the payload dispatcher succeeds (46_payload_parse.md R212 to R222), in the field terms of the
statements, and the frame kinds as FRAME_PARSE of their frames (30_encoding.md R93, R123). -/

namespace Sys2Proof.Machine

section
variable {s : State} {h : FrameHeader} {v : View}

@[simp] theorem regionOf_r (h : FrameHeader) (v : View) :
    (regionOf h v).r = { off := v.off, len := h.length.toNat } := rfl
@[simp] theorem regionOf_pri (h : FrameHeader) (v : View) : (regionOf h v).pri = h.flags.getLsbD 5 := rfl

/-- A priority block that its view holds is read, and the rest of the view left (R190). -/
theorem prioBlock_eq_ok {r : View} (hr : 5 ≤ r.len) :
    prioBlock s.ib r = .ok ({ off := r.off + 5, len := r.len - 5 }, prioField s r.off) := by
  rw [prioBlock, if_neg (Nat.not_lt.2 hr), priorityAt_eq]
  rfl

theorem prioParse_absent (r : View) : prioParse s.ib false r = .ok (r, none) := rfl

theorem prioParse_present {r : View} (hr : 5 ≤ r.len) :
    prioParse s.ib true r = .ok ({ off := r.off + 5, len := r.len - 5 }, some (prioField s r.off)) :=
  congrArg (Result.map _) (prioBlock_eq_ok hr)

/-! ### The arms -/

theorem parseData_eq_ok (hp : PadFits s h v) :
    parseData s.ib (regionOf h v) = .ok (.data (content s h v)) := by
  rw [parseData, contentOf_fits hp]
  rfl

theorem parseHeaders_eq_ok_none (hp : PadFits s h v) (hpri : h.flags.getLsbD 5 = false) :
    parseHeaders s.ib (regionOf h v) = .ok (.headers none (content s h v)) := by
  rw [parseHeaders, contentOf_fits hp, Result.bind, regionOf_pri, hpri, prioParse_absent]
  rfl

theorem parseHeaders_eq_ok_some (hp : PadFits s h v) (hpri : h.flags.getLsbD 5 = true)
    (hlen : 5 ≤ (content s h v).len) :
    parseHeaders s.ib (regionOf h v) = .ok (.headers (some (prioField s (content s h v).off))
      { off := (content s h v).off + 5, len := (content s h v).len - 5 }) := by
  rw [parseHeaders, contentOf_fits hp, Result.bind, regionOf_pri, hpri, prioParse_present hlen]
  rfl

theorem parsePriority_eq_ok (hlen : 5 ≤ h.length.toNat) :
    parsePriority s.ib (regionOf h v) = .ok (.priority (prioField s v.off)) := by
  rw [parsePriority, regionOf_r, prioBlock_eq_ok hlen]
  rfl

theorem parseReset_eq_ok (hlen : 4 ≤ h.length.toNat) :
    parseReset s.ib (regionOf h v) = .ok (.reset (be32 s v.off)) := by
  rw [parseReset, regionOf_r, if_neg (Nat.not_lt.2 hlen), u32Decode_eq]

theorem parseSettings_eq_ok (hlen : h.length.toNat % 6 = 0) :
    parseSettings (regionOf h v) = .ok (.settings (.view { off := v.off, len := h.length.toNat })) := by
  rw [parseSettings, regionOf_r, settingsParse, if_neg (not_not.2 hlen)]
  rfl

theorem parsePushPromise_eq_ok (hp : PadFits s h v) (hlen : 4 ≤ (content s h v).len) :
    parsePushPromise s.ib (regionOf h v) = .ok (.pushPromise (be31 s (content s h v).off)
      { off := (content s h v).off + 4, len := (content s h v).len - 4 }) := by
  rw [parsePushPromise, contentOf_fits hp, Result.bind, if_neg (Nat.not_lt.2 hlen), sidDecode_eq]
  rfl

theorem parsePing_eq_ok (hlen : h.length.toNat = 8) :
    parsePing s.ib (regionOf h v) = .ok (.ping (be64 s v.off)) := by
  rw [parsePing, regionOf_r, if_neg (not_not.2 hlen), u64Decode_eq]

theorem parseGoAway_eq_ok (hlen : 8 ≤ h.length.toNat) :
    parseGoAway s.ib (regionOf h v) = .ok (.goAway (be31 s v.off) (be32 s (v.off + 4))
      { off := v.off + 8, len := h.length.toNat - 8 }) := by
  rw [parseGoAway, regionOf_r, if_neg (Nat.not_lt.2 hlen), sidDecode_eq, u32Decode_eq]
  rfl

/-- The increment's top bit is cleared exactly under `P_WU_MASK` (R220). -/
theorem wuIncrement_eq (wuMask : Bool) (a : Nat) :
    wuIncrement wuMask (u32Decode s.ib a) = if wuMask then be31 s a else be32 s a := by
  rw [wuIncrement, u32Decode_eq, be32_mask]

theorem parseWindowUpdate_eq_ok (wuMask : Bool) (hlen : h.length.toNat = 4) :
    parseWindowUpdate wuMask s.ib (regionOf h v) =
      .ok (.windowUpdate (if wuMask then be31 s v.off else be32 s v.off)) := by
  rw [parseWindowUpdate, regionOf_r, if_neg (not_not.2 hlen), wuIncrement_eq]

/-- FRAME_PARSE gives the frame of the payload that its kind's arm gives, once it gets past the prologue (R270). -/
theorem frameParse_gives {k : Kind} {pl : Payload} (hr : Ready s (.frameParse h v)) (hk : h.kind = kindTag k)
    (ha : ReachesArm h v) (harm : payloadArm s.cfg.wuMask s.ib k (regionOf h v) = .ok pl) :
    GivesFrame s (.frameParse h v) h pl :=
  gives_of_ok hr rfl ⟨rfl, rfl, rfl, rfl⟩ (congrArg (Result.map _) ((payloadParse_eq hk ha).trans harm))

end

/-- Settles O53: a frame kind is FRAME_PARSE of its frame's header, which gives what the kind's arm gives. -/
theorem kindInstructionsParseTheirFrames : Obligations.KindInstructionsParseTheirFrames := by
  rintro k w c h v s rfl rfl
  have hexec := exec_wireInstr k w c s
  refine ⟨hexec, fun hr ha => ?_⟩
  have gives {pl : Payload} (harm : payloadArm s.cfg.wuMask s.ib k _ = .ok pl) :
      GivesFrame s (wireInstr k w c) (wireFrameHeader k w) pl :=
    hexec.trans (frameParse_gives hr rfl ha harm)
  refine ⟨?_, ?_, ?_, ?_, ?_, ?_, ?_, ?_, ?_, ?_, ?_, ?_⟩ <;> rintro rfl
  · exact fun hp => gives (parseData_eq_ok hp)
  · exact fun hp hpri => gives (parseHeaders_eq_ok_none hp hpri)
  · exact fun hp hpri hlen => gives (parseHeaders_eq_ok_some hp hpri hlen)
  · exact fun hlen => gives (parsePriority_eq_ok hlen)
  · exact fun hlen => gives (parseReset_eq_ok hlen)
  · exact fun hlen => gives (parseSettings_eq_ok hlen)
  · exact fun hp hlen => gives (parsePushPromise_eq_ok hp hlen)
  · exact fun hlen => gives (parsePing_eq_ok hlen)
  · exact fun hlen => gives (parseGoAway_eq_ok hlen)
  · exact fun hlen => gives (parseWindowUpdate_eq_ok _ hlen)
  · exact gives rfl
  · exact gives rfl

end Sys2Proof.Machine
end

section
/-! The scalar, flag and kind commands (41_scalar_flag_kind.md R146 to R152), and the two faults among their outcomes
(10_state.md R50, 60_exceptions.md R310). -/

namespace Sys2Proof.Machine

/-! ### Faults of any instruction -/

/-- An illegal operand is BAD_OPERAND, whatever the instruction. -/
theorem stops_of_illegal {s : State} {i : Instr} (hs : s.faulted = false) (hl : i.legal = false) :
    Stops s i (statusOfFault .badOperand) := by
  cases ho : instrOut i with
  | none =>
    obtain ⟨c, rule, he, hc⟩ := exec_read i s ho
    rw [Stops, he, State.readCycle_fault rule hs (Checks.firstFault_illegal s.cfg (hc.legal.trans hl))]
    rfl
  | some out =>
    obtain ⟨c, bytes, he, hc, -⟩ := exec_encode i s (obo := out.1) (n := out.2) ho
    rw [Stops, he, State.encodeCycle_fault bytes hs (Checks.firstFault_illegal s.cfg (hc.legal.trans hl))]
    rfl

/-- An encode command whose bytes do not fit in OB is OB_BOUNDS, when no earlier check fails. -/
theorem stops_of_noRoom {s : State} {i : Instr} {obo n : Nat} (hr : Ready s i) (ho : instrOut i = some (obo, n))
    (hroom : s.cfg.obcap < obo + n) : Stops s i (statusOfFault .obBounds) := by
  obtain ⟨c, bytes, he, hc, -⟩ := exec_encode i s ho
  have hfault : { c with out := some (obo, n) }.firstFault s.cfg = some .obBounds :=
    Checks.firstFault_room (hc.legal.trans hr.legal) (hc.views ▸ hr.inside) (hc.kinds.trans hr.kinds) rfl hroom
  rw [Stops, he, State.encodeCycle_fault bytes hr.running hfault]
  rfl

/-- An instruction gives one result. -/
theorem res_eq_of_gives {s : State} {i : Instr} {r r' : Res} (h : Gives s i r) (h' : Gives s i r') : r = r' :=
  congrArg State.res (Host.Outcome.next.inj (h.symm.trans h'))

/-! ### Flags -/

theorem flagsLegal_eq_true_iff {f : Byte} : flagsLegal f = true ↔ f &&& 0xD2#8 = 0#8 := beq_iff_eq

theorem flagsLegal_eq_false_iff {f : Byte} : flagsLegal f = false ↔ f &&& 0xD2#8 ≠ 0#8 := beq_eq_false_iff_ne

theorem has_endStream (f : Byte) : has f endStreamBit = f.getLsbD 0 := by revert f; decide

theorem has_endHeaders (f : Byte) : has f endHeadersBit = f.getLsbD 2 := by revert f; decide

/-- Settles O23: the operand is legal as it is, and the rule succeeds exactly on a legal flag byte. -/
theorem flagsNewAcceptsValidBytes : Obligations.FlagsNewAcceptsValidBytes := by
  intro b s hs
  have hready : Ready s (.flagsNew b) := ⟨hs, rfl, List.forall_mem_nil _, rfl⟩
  refine ⟨fun hb => ?_, fun hb => ?_⟩
  · exact gives_of_ok hready rfl ⟨rfl, rfl, rfl, rfl⟩
      (congrArg (Result.map _) (flagsNew_legal (flagsLegal_eq_true_iff.2 hb)))
  · exact stops_of_raise (e := .badFlag b) hready rfl ⟨rfl, rfl, rfl, rfl⟩
      (congrArg (Result.map _) (flagsNew_illegal (flagsLegal_eq_false_iff.2 hb)))

/-- FLAGS_HAS of a legal flag byte gives the test of the selected bit (R149). -/
theorem flagsHas_gives {s : State} {f : Byte} (sel : BitVec 2) (hs : s.faulted = false) (hf : flagsLegal f = true) :
    Gives s (.flagsHas f sel) (.bool (has f (selectedBit sel))) :=
  gives_of_ok ⟨hs, hf, List.forall_mem_nil _, rfl⟩ rfl ⟨rfl, rfl, rfl, rfl⟩ rfl

/-- Settles O24: each selector names the mask of one bit, and an illegal flag byte is an illegal operand. -/
theorem flagsHasTestsTheSelectedBit : Obligations.FlagsHasTestsTheSelectedBit := by
  intro f s hs
  refine ⟨fun hf => ?_, fun hf sel => stops_of_illegal hs (flagsLegal_eq_false_iff.2 hf)⟩
  have gives (sel : BitVec 2) := flagsHas_gives sel hs (flagsLegal_eq_true_iff.2 hf)
  exact ⟨has_endStream f ▸ gives 0#2, has_endHeaders f ▸ gives 1#2, has_padded f ▸ gives 2#2,
    has_priority f ▸ gives 3#2⟩

/-! ### Kinds -/

theorem toNat_kindTag_kindNew {b : Byte} (h : b.toNat ≤ 9) : (kindTag (kindNew b)).toNat = b.toNat := by
  revert b; decide

theorem kindNew_eq_unregistered {b : Byte} (h : 10 ≤ b.toNat) : kindNew b = .unregistered := by
  revert b; decide

theorem kindNew_gives {s : State} (b : Byte) (hs : s.faulted = false) : Gives s (.kindNew b) (.kind (kindNew b)) :=
  gives_of_ok ⟨hs, rfl, List.forall_mem_nil _, rfl⟩ rfl ⟨rfl, rfl, rfl, rfl⟩ rfl

/-- Settles O25: the rule succeeds on every byte. -/
theorem kindNewIsTotal : Obligations.KindNewIsTotal := fun b _ hs =>
  ⟨kindNew b, kindNew_gives b hs, toNat_kindTag_kindNew, kindNew_eq_unregistered⟩

/-- A legal tag is written as its kind byte: the tag itself, or 255 for Unregistered (R152). -/
theorem kindEncode_kindOfTag {k : KindTag} (h : kindLegal k = true) : kindEncode (kindOfTag k) = kindByteOfTag k := by
  revert k; decide

theorem kindEncode_gives {s : State} {k : KindTag} (hs : s.faulted = false) (hk : kindLegal k = true) :
    Gives s (.kindEncode k) (.byte (kindEncode (kindOfTag k))) :=
  gives_of_ok ⟨hs, hk, List.forall_mem_nil _, rfl⟩ rfl ⟨rfl, rfl, rfl, rfl⟩ rfl

/-- Settles O26: a legal tag gives its kind byte, which KIND_NEW reads back; tags 11 to 15 are illegal operands. -/
theorem kindEncodeGivesTheWireCode : Obligations.KindEncodeGivesTheWireCode := by
  intro k s hs
  have gives (hk : k.toNat ≤ 10) : Gives s (.kindEncode k) (.byte (kindByteOfTag k)) :=
    kindEncode_kindOfTag (decide_eq_true hk) ▸ kindEncode_gives hs (decide_eq_true hk)
  refine ⟨fun hk => ?_, ?_, fun hk => ?_, ?_⟩
  · have hne : k ≠ 10#4 := by rintro rfl; exact absurd hk (by decide)
    have hcode : kindByteOfTag k = k.setWidth 8 := if_neg hne
    exact hcode ▸ gives (Nat.le_succ_of_le hk)
  · rintro rfl
    exact gives (by decide)
  · exact stops_of_illegal hs (decide_eq_false (Nat.not_le.2 hk))
  · rintro b q rfl hb
    have hcode : b = kindEncode q := by
      have hres := res_eq_of_gives hb (kindEncode_gives hs (kindLegal_kindTag q))
      rw [kindOfTag_kindTag] at hres
      exact Res.byte.inj hres
    have hgives := kindNew_gives (kindEncode q) hs
    rwa [kindNew_kindEncode, ← hcode] at hgives

/-! ### Stream identifiers -/

theorem sidParse_eq_ok {s : State} {v : View} (hlen : 4 ≤ v.len) : sidParse s.ib v = .ok (.sid (be31 s v.off)) := by
  rw [sidParse, if_neg (Nat.not_lt.2 hlen), sidDecode_eq]

/-- Settles O27: the rule raises Short below four bytes, and else decodes the four at the view's offset. -/
theorem sidParseMasksTheTopBit : Obligations.SidParseMasksTheTopBit := fun _ _ hr =>
  ⟨fun hlen => gives_of_ok hr rfl ⟨rfl, rfl, rfl, rfl⟩ (sidParse_eq_ok hlen),
    fun hlen => stops_of_raise hr rfl ⟨rfl, rfl, rfl, rfl⟩ (if_pos hlen)⟩

/-- Settles O28: the rule's bytes are those of the identifier without its top bit; its operands are legal as they are,
so the room in OB is the one check that can fail. -/
theorem sidEncodeWritesFourBytes : Obligations.SidEncodeWritesFourBytes := by
  intro sid obo s
  refine ⟨fun h => ?_, fun hs hroom => ?_⟩
  · exact sidBytes_eq sid ▸ encodes_of_bytes h rfl ⟨rfl, rfl, rfl, rfl⟩ rfl rfl
  · exact stops_of_noRoom ⟨hs, rfl, List.forall_mem_nil _, rfl⟩ rfl hroom

end Sys2Proof.Machine
end

section
/-! The frame header codec (42_frame_header.md R170 to R173). -/

namespace Sys2Proof.Machine

/-! ### Parsing -/

/-- The frame header at `a`, its kind read from the kind byte (R91, R151). -/
def headerField (s : State) (a : Nat) : FrameHeader :=
  { length := (be24 s a).setWidth 32, kind := kindTag (kindNew (s.ib (a + 3))), flags := s.ib (a + 4)
    streamId := be31 s (a + 5) }

theorem hdrParse_short {ib : Buffer} {v : View} (hlen : v.len < 9) : hdrParse ib v = .raise .short := if_pos hlen

theorem hdrParse_badFlag {ib : Buffer} {v : View} (hlen : 9 ≤ v.len) (hf : flagsLegal (ib (v.off + 4)) = false) :
    hdrParse ib v = .raise (.badFlag (ib (v.off + 4))) := by
  rw [hdrParse, if_neg (Nat.not_lt.2 hlen), flagsNew_illegal hf]
  rfl

theorem hdrParse_eq_ok {s : State} {v : View} (hlen : 9 ≤ v.len) (hf : flagsLegal (s.ib (v.off + 4)) = true) :
    hdrParse s.ib v = .ok (headerField s v.off) := by
  rw [hdrParse, if_neg (Nat.not_lt.2 hlen), flagsNew_legal hf, u24Decode_eq, sidDecode_eq]
  rfl

/-- A header that the rule gives is the one that stands at the view's offset. -/
theorem eq_headerField_of_hdrParse {s : State} {v : View} {h : FrameHeader} (hok : hdrParse s.ib v = .ok h) :
    h = headerField s v.off := by
  rcases Nat.lt_or_ge v.len 9 with hlen | hlen
  · cases (hdrParse_short hlen).symm.trans hok
  · cases hf : flagsLegal (s.ib (v.off + 4)) with
    | true => exact Result.ok.inj (hok.symm.trans (hdrParse_eq_ok hlen hf))
    | false => cases (hdrParse_badFlag hlen hf).symm.trans hok

/-- HDR_PARSE that can run gives a header exactly when its rule does. -/
theorem gives_header_iff {s : State} {v : View} {h : FrameHeader} (hr : Ready s (.hdrParse v)) :
    Gives s (.hdrParse v) (.header h) ↔ hdrParse s.ib v = .ok h := by
  obtain ⟨hok, hraise⟩ := exec_hdrParse_inside hr.running (hr.inside v (List.mem_singleton_self v))
  refine ⟨fun hg => ?_, hok h⟩
  cases hp : hdrParse s.ib v with
  | ok h' => exact congrArg Result.ok (Res.header.inj (res_eq_of_gives (hok h' hp) hg))
  | raise e => cases congrArg State.res (Host.Outcome.next.inj ((hraise e hp).symm.trans hg))

/-- Settles O29: the rule raises Short below nine bytes, then BadFlag on an illegal flag byte, and else gives the header
at the view's offset. -/
theorem hdrParseReadsTheHeader : Obligations.HdrParseReadsTheHeader := by
  intro v s hr
  obtain ⟨-, hraise⟩ := exec_hdrParse_inside hr.running (hr.inside v (List.mem_singleton_self v))
  refine ⟨fun hlen hf => ⟨kindTag (kindNew (s.ib (v.off + 3))), ?_, toNat_kindTag_kindNew, fun hb => ?_⟩,
    fun hlen => ?_, fun hlen hf => ?_⟩
  · exact (gives_header_iff hr).2 (hdrParse_eq_ok hlen (flagsLegal_eq_true_iff.2 hf))
  · exact congrArg kindTag (kindNew_eq_unregistered hb)
  · exact hraise .short (hdrParse_short hlen)
  · exact hraise (.badFlag _) (hdrParse_badFlag hlen (flagsLegal_eq_false_iff.2 hf))

/-! ### Encoding -/

theorem headerLegal_eq_false_iff {h : FrameHeader} :
    headerLegal h = false ↔ h.flags &&& 0xD2#8 ≠ 0#8 ∨ 10 < h.kind.toNat := by
  rw [headerLegal, Bool.and_eq_false_iff, flagsLegal_eq_false_iff, kindLegal, decide_eq_false_iff_not, Nat.not_le]

/-- The two checks of a header that HDR_ENCODE accepts (R51). -/
theorem legal_of_ready_hdrEncode {s : State} {h : FrameHeader} {obo : Nat} (hr : Ready s (.hdrEncode h obo)) :
    flagsLegal h.flags = true ∧ kindLegal h.kind = true :=
  Bool.and_eq_true_iff.1 hr.legal

theorem hdrEncode_encodes {s : State} {h : FrameHeader} {obo : Nat} (hc : CanEncode s (.hdrEncode h obo)) :
    Encodes s (.hdrEncode h obo) obo 9 (bytesHeader h) :=
  headerBytes_eq h (legal_of_ready_hdrEncode hc.ready).2 ▸
    encodes_of_bytes hc rfl ⟨rfl, rfl, rfl, rfl⟩ rfl (length_headerBytes h)

/-- Settles O30: the rule's bytes are the fields of the header in their order, and the checks that can fail are those of
the header and of the room in OB. -/
theorem hdrEncodeWritesNineBytes : Obligations.HdrEncodeWritesNineBytes := fun _ _ _ =>
  ⟨hdrEncode_encodes, fun hr hroom => stops_of_noRoom hr rfl hroom,
    fun hs hbad => stops_of_illegal hs (headerLegal_eq_false_iff.2 hbad)⟩

/-! ### Encoding, then parsing (R172) -/

/-- The kind byte of a legal tag is read back as that tag (R151, R152). -/
theorem kindTag_kindNew_kindByteOfTag {k : KindTag} (hk : kindLegal k = true) :
    kindTag (kindNew (kindByteOfTag k)) = k := by
  rw [← kindEncode_kindOfTag hk, kindNew_kindEncode, kindTag_kindOfTag hk]

/-- The nine bytes of a header are read back as it, with its length cut to 24 bits and its stream id to 31. -/
theorem headerField_of_bytes {s : State} {a : Nat} {h : FrameHeader} (hk : kindLegal h.kind = true)
    (hb : readBytes s.ib a 9 = bytesHeader h) :
    headerField s a =
      { h with length := (h.length.setWidth 24).setWidth 32, streamId := h.streamId &&& Config.sidMask } := by
  obtain ⟨hfields, hsid⟩ := readBytes_split (k := 5) (n := 4) hb rfl
  obtain ⟨hlength, -⟩ := readBytes_split (k := 3) (n := 2) hfields
    (l1 := [h.length.extractLsb' 16 8, h.length.extractLsb' 8 8, h.length.extractLsb' 0 8]) rfl
  have hkind : s.ib (a + 3) = kindByteOfTag h.kind := ib_of_bytes hfields 3 (by decide)
  have hflags : s.ib (a + 4) = h.flags := ib_of_bytes hfields 4 (by decide)
  rw [headerField, be24_of_bytes hlength, be31_of_bytes hsid, hkind, hflags, kindTag_kindNew_kindByteOfTag hk]

theorem setWidth_24_eq_iff (x : BitVec 32) : (x.setWidth 24).setWidth 32 = x ↔ x.toNat < 2 ^ 24 := by
  rw [← BitVec.toNat_inj, BitVec.toNat_setWidth, BitVec.toNat_setWidth]
  omega

/-- HDR_PARSE of the nine copied bytes of a legal header gives the header that stands there. -/
theorem hdrParse_of_bytes {u : State} {a : Nat} {h : FrameHeader} (hf : flagsLegal h.flags = true)
    (hb : readBytes u.ib a 9 = bytesHeader h) : hdrParse u.ib { off := a, len := 9 } = .ok (headerField u a) :=
  have hflags : u.ib (a + 4) = h.flags := ib_of_bytes hb 4 (by decide)
  hdrParse_eq_ok le_rfl (hflags ▸ hf)

/-- Settles O31: what is parsed differs from the header in the high bits of its length and stream id alone, so it is the
header exactly when those are 0; a parsed header has legal fields in range. -/
theorem headerRoundTrip : Obligations.HeaderRoundTrip := by
  refine ⟨fun h obo a s t u hc he hu hcopy => ?_, fun v h s hr hg => ?_⟩
  · obtain ⟨hf, hk⟩ := legal_of_ready_hdrEncode hc.ready
    have hb : readBytes u.ib a 9 = bytesHeader h := hcopy.bytes_eq.trans ((hdrEncode_encodes hc).bytes_eq he)
    rw [gives_header_iff hu, hdrParse_of_bytes hf hb, headerField_of_bytes hk hb, Result.ok.injEq,
      ← setWidth_24_eq_iff, ← mask_eq_iff]
    obtain ⟨length, kind, flags, streamId⟩ := h
    simp only [FrameHeader.mk.injEq, true_and]
  · have hmeets := hdrParse_meets s.cfg s v
    rw [(gives_header_iff hr).1 hg] at hmeets
    obtain ⟨hlegal, hlength, hsid⟩ := hmeets
    exact ⟨hlength, (mask_eq_iff _).1 (mask_of_sidLegal hsid),
      fun _ => ⟨hr.running, hlegal, List.forall_mem_nil _, rfl⟩⟩

/-! ### Parsing, then encoding (R173) -/

/-- A kind byte is written back as it was read, but for one from 10 up, which is written 255. -/
theorem kindByteOfTag_kindTag_kindNew (b : Byte) :
    kindByteOfTag (kindTag (kindNew b)) = if b.toNat ≤ 9 then b else 255#8 := by
  revert b; decide

/-- Writing a 24-bit length that was read gives the bytes that were read (R140, R141). -/
theorem u24Bytes_u24Decode (ib : Buffer) (a : Nat) : u24Bytes (u24Decode ib a) = readBytes ib a 3 := by
  have hlt : memRead ib a 3 < 2 ^ 32 := (memRead_lt ib a 3).trans (by decide)
  rw [u24Bytes, u24Decode, BitVec.toNat_ofNat, Nat.mod_eq_of_lt hlt, beBytes_memRead]

theorem u32Bytes_u32Decode (ib : Buffer) (a : Nat) : u32Bytes (u32Decode ib a) = readBytes ib a 4 := by
  have hlt : memRead ib a 4 < 2 ^ 32 := memRead_lt ib a 4
  rw [u32Bytes, u32Decode, BitVec.toNat_ofNat, Nat.mod_eq_of_lt hlt, beBytes_memRead]

/-- The reserved bit of a stream identifier is written 0 (R145). -/
theorem bytes31_mask (x : BitVec 32) : bytes31 (x &&& Config.sidMask) = bytes31 x := by
  rw [← sidBytes_eq, ← sidBytes_eq, sidBytes, sidBytes, BitVec.and_assoc, BitVec.and_self]

/-- Writing a stream identifier that was read gives the bytes that were read, the reserved bit 0 (R144, R145). -/
theorem bytes31_be31 (s : State) (a : Nat) :
    bytes31 (be31 s a) = [s.ib a &&& 0x7F#8, s.ib (a + 1), s.ib (a + 2), s.ib (a + 3)] := by
  have hb : bytes32 (be32 s a) = readBytes s.ib a 4 := by
    rw [← u32Decode_eq, ← u32Bytes_eq, u32Bytes_u32Decode]
  simp only [bytes32, readBytes, List.cons.injEq] at hb
  obtain ⟨h0, h1, h2, h3, -⟩ := hb
  rw [← be32_mask, bytes31_mask, bytes31, h0, h1, h2, h3]

/-- The nine bytes of a header that was read. -/
theorem bytesHeader_headerField (s : State) (a : Nat) :
    bytesHeader (headerField s a) =
      [s.ib a, s.ib (a + 1), s.ib (a + 2), if (s.ib (a + 3)).toNat ≤ 9 then s.ib (a + 3) else 255#8, s.ib (a + 4),
        s.ib (a + 5) &&& 0x7F#8, s.ib (a + 6), s.ib (a + 7), s.ib (a + 8)] := by
  have hb : u24Bytes ((be24 s a).setWidth 32) = readBytes s.ib a 3 := by
    rw [← u24Decode_eq, u24Bytes_u24Decode]
  simp only [u24Bytes_eq, readBytes, List.cons.injEq] at hb
  obtain ⟨h0, h1, h2, -⟩ := hb
  rw [bytesHeader, headerField, h0, h1, h2, kindByteOfTag_kindTag_kindNew, bytes31_be31]
  rfl

/-- Settles O32: the header parsed is the one that stands at the view's offset, and its nine bytes are those it was read
from, with the reserved bit 0 and the kind byte of Unregistered 255. -/
theorem headerBytesRoundTrip : Obligations.HeaderBytesRoundTrip := by
  intro v h obo s u hr hg hc
  obtain rfl := eq_headerField_of_hdrParse ((gives_header_iff hr).1 hg)
  exact bytesHeader_headerField s v.off ▸ hdrEncode_encodes hc

end Sys2Proof.Machine
end

section
/-! The padding helper and PAD_STRIP (43_padding.md R180). -/

namespace Sys2Proof.Machine

section
variable {ib : Buffer} {r : View}

/-- Padding that its region holds is cut off at both ends: the pad length byte and the bytes it declares. -/
theorem padStrip_eq_ok (hp : (ib r.off).toNat < r.len) :
    padStrip ib r = .ok { off := r.off + 1, len := r.len - (ib r.off).toNat - 1 } :=
  if_neg (Nat.not_le.2 hp)

theorem padStrip_tooMuchPadding (hp : r.len ≤ (ib r.off).toNat) :
    padStrip ib r = .raise (.tooMuchPadding (ib r.off)) :=
  if_pos hp

theorem padStripCommand_empty (hlen : r.len = 0) : padStripCommand ib r = .raise .payloadLengthTooShort := if_pos hlen

/-- On a view that is not empty the command is the helper of the payload dispatcher. -/
theorem padStripCommand_nonempty (hlen : 0 < r.len) : padStripCommand ib r = padStrip ib r :=
  if_neg (Nat.ne_of_gt hlen)

end

/-- Settles O33: the rule raises PayloadLengthTooShort on an empty view, then TooMuchPadding on a pad length byte that
reaches the view's length, and else gives what lies between the pad length byte and the padding. -/
theorem padStripRemovesThePadding : Obligations.PadStripRemovesThePadding := by
  intro v s hr
  refine ⟨fun hp => ?_, fun hlen hp => ?_, fun hlen => ?_⟩
  · have hrule := (padStripCommand_nonempty (Nat.zero_lt_of_lt hp)).trans (padStrip_eq_ok hp)
    exact gives_of_ok hr rfl ⟨rfl, rfl, rfl, rfl⟩ (congrArg (Result.map _) hrule)
  · have hrule := (padStripCommand_nonempty hlen).trans (padStrip_tooMuchPadding hp)
    exact stops_of_raise (e := .tooMuchPadding _) hr rfl ⟨rfl, rfl, rfl, rfl⟩ (congrArg (Result.map _) hrule)
  · have hrule := padStripCommand_empty (ib := s.ib) hlen
    exact stops_of_raise (e := .payloadLengthTooShort) hr rfl ⟨rfl, rfl, rfl, rfl⟩ (congrArg (Result.map _) hrule)

end Sys2Proof.Machine
end

section
/-! The priority sub-structure codec (44_priority.md R190 to R192). -/

namespace Sys2Proof.Machine

theorem prioParse_short {ib : Buffer} {r : View} (hlen : r.len < 5) : prioParse ib true r = .raise .short :=
  congrArg (Result.map _) (if_pos hlen : prioBlock ib r = .raise .short)

/-- PRIO_PARSE of a view that holds a priority block gives the block at its offset, and what follows it (R190). -/
theorem prioParse_gives {s : State} {v : View} (hr : Ready s (.prioParse true v)) (hlen : 5 ≤ v.len) :
    Gives s (.prioParse true v) (.prio { off := v.off + 5, len := v.len - 5 } (some (prioField s v.off))) :=
  gives_of_ok hr rfl ⟨rfl, rfl, rfl, rfl⟩ (congrArg (Result.map _) (prioParse_present hlen))

/-- Settles O34: an absent block reads nothing and leaves the view; a present one is the five bytes at the view's offset,
and the rule raises Short where the view does not hold them. -/
theorem prioParseReadsTheBlock : Obligations.PrioParseReadsTheBlock := by
  intro v s hr
  refine ⟨?_, prioParse_gives hr, fun hlen => ?_⟩
  · have hr' : Ready s (.prioParse false v) := ⟨hr.running, rfl, hr.inside, rfl⟩
    exact gives_of_ok hr' rfl ⟨rfl, rfl, rfl, rfl⟩ (congrArg (Result.map _) (prioParse_absent v))
  · exact stops_of_raise (e := .short) hr rfl ⟨rfl, rfl, rfl, rfl⟩ (congrArg (Result.map _) (prioParse_short hlen))

theorem prioEncode_encodes {s : State} {q : Priority} {obo : Nat} (hc : CanEncode s (.prioEncode q obo)) :
    Encodes s (.prioEncode q obo) obo 5 (bytesPrio q) :=
  prioBytes_eq q ▸ encodes_of_bytes hc rfl ⟨rfl, rfl, rfl, rfl⟩ rfl rfl

/-- Settles O35: the rule's bytes are those of the block with the exclusive bit in place of the dependency's top bit; its
operands are legal as they are, so the room in OB is the one check that can fail. -/
theorem prioEncodeWritesFiveBytes : Obligations.PrioEncodeWritesFiveBytes := fun _ _ _ =>
  ⟨prioEncode_encodes, fun hs hroom => stops_of_noRoom ⟨hs, rfl, List.forall_mem_nil _, rfl⟩ rfl hroom⟩

/-- Settles O36: PRIO_PARSE reads the five copied bytes back as the block with its dependency masked, and the mask keeps a
dependency below 2^31. -/
theorem priorityRoundTrip : Obligations.PriorityRoundTrip := by
  intro q obo a s t u hc he hu hcopy
  have hbytes : readBytes u.ib a 5 = bytesPrio q := hcopy.bytes_eq.trans ((prioEncode_encodes hc).bytes_eq he)
  have hmasked := prioParse_gives hu le_rfl
  rw [prioField_of_bytes hbytes] at hmasked
  refine ⟨hmasked, fun hdep => ?_⟩
  rwa [(mask_eq_iff q.dependency).2 hdep] at hmasked

end Sys2Proof.Machine
end

section
/-! The setting record codec (45_settings.md R200 to R202, R204). -/

namespace Sys2Proof.Machine

/-! ### Identifiers -/

theorem settingName_known {id : BitVec 16} (h1 : 1 ≤ id.toNat) (h5 : id.toNat ≤ 5) : settingName id = .known id :=
  if_pos ⟨h1, h5⟩

theorem settingName_unrecognized {id : BitVec 16} (h : id.toNat = 0 ∨ 6 ≤ id.toNat) :
    settingName id = .unrecognized id :=
  if_neg (by omega)

theorem settingLookup_gives {s : State} (id : BitVec 16) (hs : s.faulted = false) :
    Gives s (.settingLookup id) (.name (settingName id)) :=
  gives_of_ok ⟨hs, rfl, List.forall_mem_nil _, rfl⟩ rfl ⟨rfl, rfl, rfl, rfl⟩ rfl

/-- Settles O40: the command has no operand that a check could refuse, and its rule splits the identifiers at 1 and 5. -/
theorem settingLookupClassifies : Obligations.SettingLookupClassifies := fun id _ hs =>
  ⟨fun h1 h5 => settingName_known h1 h5 ▸ settingLookup_gives id hs,
    fun h => settingName_unrecognized h ▸ settingLookup_gives id hs⟩

/-! ### Parsing -/

theorem settingsParse_whole {r : View} (h : r.len % 6 = 0) : settingsParse r = .ok r := if_neg (not_not.2 h)

theorem settingsParse_partial {r : View} (h : r.len % 6 ≠ 0) : settingsParse r = .raise .partialSettingLength := if_pos h

theorem settingsParse_gives {s : State} {v : View} (hr : Ready s (.settingsParse v)) (h : v.len % 6 = 0) :
    Gives s (.settingsParse v) (.settings v) :=
  gives_of_ok hr rfl ⟨rfl, rfl, rfl, rfl⟩ (congrArg (Result.map _) (settingsParse_whole h))

theorem settingsParse_stops {s : State} {v : View} (hr : Ready s (.settingsParse v)) (h : v.len % 6 ≠ 0) :
    Stops s (.settingsParse v) (statusOfError .partialSettingLength) :=
  stops_of_raise hr rfl ⟨rfl, rfl, rfl, rfl⟩ (congrArg (Result.map _) (settingsParse_partial h))

/-- Record `i` of a view in the field terms of the statements. -/
theorem settingAt_eq (s : State) (v : View) (i : Nat) :
    settingAt s.ib v i = { identifier := be16 s (v.off + 6 * i), value := be32 s (v.off + 6 * i + 2) } := by
  rw [← u16Decode_eq, ← u32Decode_eq]
  rfl

/-- Settles O37: the rule looks at the view's length alone, and the big-endian decoders read record `i` at `6 i`. -/
theorem settingsParseAcceptsWholeRecords : Obligations.SettingsParseAcceptsWholeRecords := fun v s hr =>
  ⟨settingsParse_gives hr, settingsParse_stops hr, settingAt_eq s v⟩

/-- SETTINGS_PARSE gives nothing but the view it was given, when that is whole records. -/
theorem settingsParse_gives_iff {s : State} {v q : View} (hr : Ready s (.settingsParse v)) :
    Gives s (.settingsParse v) (.settings q) ↔ v = q ∧ v.len % 6 = 0 := by
  constructor
  · intro hg
    by_cases h : v.len % 6 = 0
    · exact ⟨Res.settings.inj (res_eq_of_gives (settingsParse_gives hr h) hg), h⟩
    · cases congrArg State.res (Host.Outcome.next.inj ((settingsParse_stops hr h).symm.trans hg))
  · rintro ⟨rfl, h⟩
    exact settingsParse_gives hr h

/-! ### Encoding -/

theorem seqLegal_view_iff {v : View} : seqLegal (.view v) = true ↔ v.len % 6 = 0 := beq_iff_eq

theorem seqLegal_view_eq_false_iff {v : View} : seqLegal (.view v) = false ↔ v.len % 6 ≠ 0 := beq_eq_false_iff_ne

theorem six_mul_seqCount_view {v : View} (h : v.len % 6 = 0) : 6 * seqCount (.view v) = v.len :=
  Nat.mul_div_cancel' (Nat.dvd_of_mod_eq_zero h)

/-- The bytes of a sequence are those of its records in order, in the field terms of the statements. -/
theorem seqBytes_eq (ib : Buffer) (q : SettingSeq) : seqBytes ib q = (seqRecords ib q).flatMap bytesSetting :=
  List.flatMap_congr fun r _ => settingBytes_eq r

theorem settingsEncode_encodes {s : State} {q : SettingSeq} {obo : Nat} (hc : CanEncode s (.settingsEncode q obo)) :
    Encodes s (.settingsEncode q obo) obo (6 * seqCount q) (seqBytes s.ib q) :=
  encodes_of_bytes hc rfl ⟨rfl, rfl, rfl, rfl⟩ rfl (length_seqBytes s.ib q)

/-- A view that SETTINGS_ENCODE can encode is copied (R201). -/
theorem settingsEncode_encodes_view {s : State} {v : View} {obo : Nat}
    (hc : CanEncode s (.settingsEncode (.view v) obo)) :
    Encodes s (.settingsEncode (.view v) obo) obo v.len (readBytes s.ib v.off v.len) := by
  have hwhole : v.len % 6 = 0 := seqLegal_view_iff.1 hc.ready.legal
  have henc := settingsEncode_encodes hc
  rwa [six_mul_seqCount_view hwhole, seqBytes_view s.ib hwhole] at henc

/-- Settles O38: the bytes are those of the records in order, which for a view are the viewed bytes; the checks that can
fail are those of the view's length and of the room in OB. -/
theorem settingsEncodeWritesTheRecords : Obligations.SettingsEncodeWritesTheRecords := fun _ s =>
  ⟨fun rs hc => seqBytes_eq s.ib (.list rs) ▸ settingsEncode_encodes hc, fun _ hc => settingsEncode_encodes_view hc,
    fun _ hr hroom => stops_of_noRoom hr rfl hroom,
    fun _ hs hpartial => stops_of_illegal hs (seqLegal_view_eq_false_iff.2 hpartial)⟩

/-! ### Encoding, then parsing, and parsing, then encoding (R204) -/

theorem settingAt_of_bytes {s : State} {v : View} {i : Nat} {r : Setting}
    (h : readBytes s.ib (v.off + 6 * i) 6 = bytesSetting r) : settingAt s.ib v i = r := by
  obtain ⟨hid, hvalue⟩ := readBytes_split (k := 2) (n := 4) h rfl
  rw [settingAt_eq, be16_of_bytes hid, be32_of_bytes hvalue]

/-- The records of a view that holds the bytes of a list of records are those of the list. -/
theorem settingAt_range_of_bytes {s : State} {v : View} {rs : List Setting}
    (h : readBytes s.ib v.off (6 * rs.length) = rs.flatMap bytesSetting) :
    (List.range rs.length).map (settingAt s.ib v) = rs := by
  induction rs using List.reverseRecOn with
  | nil => rfl
  | append_singleton rs r ih =>
    have hfirst : (rs.flatMap bytesSetting).length = 6 * rs.length :=
      seqBytes_eq s.ib (.list rs) ▸ length_seqBytes s.ib (.list rs)
    rw [List.length_append, List.length_singleton, Nat.mul_succ, List.flatMap_append, List.flatMap_singleton] at h
    obtain ⟨hrs, hr⟩ := readBytes_split h hfirst
    rw [List.length_append, List.length_singleton, List.range_succ, List.map_append, ih hrs, List.map_singleton,
      settingAt_of_bytes hr]

theorem length_seqRecords (ib : Buffer) (q : SettingSeq) : (seqRecords ib q).length = seqCount q := by
  cases q with
  | view v => rw [seqRecords, List.length_map, List.length_range]; rfl
  | list rs => rfl

/-- A view of the bytes of a sequence has the records of the sequence. -/
theorem seqRecords_view_of_bytes {s u : State} {q : SettingSeq} {a : Nat}
    (h : readBytes u.ib a (6 * seqCount q) = seqBytes s.ib q) :
    seqRecords u.ib (.view { off := a, len := 6 * seqCount q }) = seqRecords s.ib q := by
  have hcount : 6 * seqCount q / Config.settingLen = seqCount q := Nat.mul_div_cancel_left _ (by decide)
  rw [seqBytes_eq, ← length_seqRecords s.ib q] at h
  rw [seqRecords, hcount, ← length_seqRecords s.ib q]
  exact settingAt_range_of_bytes h

/-- Settles O39: the copied bytes are read back record by record; and a view that SETTINGS_PARSE accepts is whole records,
which SETTINGS_ENCODE copies. -/
theorem settingsRoundTrip : Obligations.SettingsRoundTrip := by
  refine ⟨?_, ?_⟩
  · rintro q obo a _ s t u hc he rfl hu hcopy
    have hbytes : readBytes u.ib a (6 * seqCount q) = seqBytes s.ib q :=
      hcopy.bytes_eq.trans ((settingsEncode_encodes hc).bytes_eq he)
    exact ⟨settingsParse_gives hu (Nat.mul_mod_right 6 _), seqRecords_view_of_bytes hbytes⟩
  · intro v q obo s hr hg hroom hapart hcells
    obtain ⟨rfl, hwhole⟩ := (settingsParse_gives_iff hr).1 hg
    have hready : Ready s (.settingsEncode (.view v) obo) :=
      ⟨hr.running, seqLegal_view_iff.2 hwhole, hr.inside, rfl⟩
    have hfits : fitsOb s (.settingsEncode (.view v) obo) := by
      rintro _ _ ⟨rfl, rfl⟩
      rwa [six_mul_seqCount_view hwhole]
    exact settingsEncode_encodes_view ⟨hready, hfits, List.forall_mem_singleton.2 hapart, hcells⟩

end Sys2Proof.Machine
end

section
/-! PAYLOAD_PARSE and FRAME_PARSE (46_payload_parse.md R210 to R222): the length checks of the prologue, then each arm as
the parse of a payload that reaches it. -/

namespace Sys2Proof.Machine

section
variable {s : State} {h : FrameHeader} {v : View} {k : Kind} {pl : Payload} {e : ProtoError}

/-! ### Both commands by the payload dispatcher -/

theorem Ready.frameParse (hr : Ready s (.payloadParse h v)) : Ready s (.frameParse h v) :=
  ⟨hr.running, hr.legal, hr.inside, rfl⟩

theorem parsesTo_of_ok (hr : Ready s (.payloadParse h v)) (hok : payloadParse s.cfg.wuMask s.ib h v = .ok pl) :
    ParsesTo s h v pl where
  payload := gives_of_ok hr rfl ⟨rfl, rfl, rfl, rfl⟩ (congrArg (Result.map _) hok)
  frame := gives_of_ok hr.frameParse rfl ⟨rfl, rfl, rfl, rfl⟩ (congrArg (Result.map _) hok)

theorem parseRaises_of_raise (hr : Ready s (.payloadParse h v))
    (hraise : payloadParse s.cfg.wuMask s.ib h v = .raise e) : ParseRaises s h v (statusOfError e) where
  payload := stops_of_raise hr rfl ⟨rfl, rfl, rfl, rfl⟩ (congrArg (Result.map _) hraise)
  frame := stops_of_raise hr.frameParse rfl ⟨rfl, rfl, rfl, rfl⟩ (congrArg (Result.map _) hraise)

/-- Past the prologue, what the kind's arm gives is the payload (R211). -/
theorem ArmRuns.parsesTo (ha : ArmRuns k s h v) (harm : payloadArm s.cfg.wuMask s.ib k (regionOf h v) = .ok pl) :
    ParsesTo s h v pl :=
  parsesTo_of_ok ha.ready ((payloadParse_eq ha.kind ha.reaches).trans harm)

/-- Past the prologue, what the kind's arm raises is the error (R211). -/
theorem ArmRuns.raises (ha : ArmRuns k s h v) (harm : payloadArm s.cfg.wuMask s.ib k (regionOf h v) = .raise e) :
    ParseRaises s h v (statusOfError e) :=
  parseRaises_of_raise ha.ready ((payloadParse_eq ha.kind ha.reaches).trans harm)

/-- An arm that raises TooMuchPadding leaves the pad length byte in STATUS (R45, R300). -/
theorem ArmRuns.raises_tooMuchPadding {p : Byte} (ha : ArmRuns k s h v)
    (harm : payloadArm s.cfg.wuMask s.ib k (regionOf h v) = .raise (.tooMuchPadding p)) :
    ParseRaises s h v (tooMuchPaddingWord p) :=
  ha.raises (e := .tooMuchPadding p) harm

/-! ### The prologue (R210) -/

theorem payloadPrologue_short (hlen : v.len < h.length.toNat) : payloadPrologue h v = .raise .short := if_pos hlen

theorem payloadPrologue_tooShort (hlen : h.length.toNat ≤ v.len) (hmin : h.length.toNat < minLength h.flags) :
    payloadPrologue h v = .raise .payloadLengthTooShort := by
  rw [payloadPrologue, if_neg (Nat.not_lt.2 hlen), minPayloadLength_eq, if_pos hmin]

theorem payloadParse_of_prologue_raise (wuMask : Bool) (ib : Buffer) (hraise : payloadPrologue h v = .raise e) :
    payloadParse wuMask ib h v = .raise e := by
  rw [payloadParse, hraise]
  rfl

/-- The dispatcher hands its arm the same region of the view as of the view cut to `header.length` bytes. -/
theorem payloadParse_cut (wuMask : Bool) (ib : Buffer) (ha : ReachesArm h v) :
    payloadParse wuMask ib h v = payloadParse wuMask ib h { off := v.off, len := h.length.toNat } := by
  rw [payloadParse, payloadParse, payloadPrologue_eq ha, payloadPrologue_eq ⟨le_rfl, ha.2⟩]
  rfl

theorem Ready.payloadParse_cut (hr : Ready s (.payloadParse h v)) (hlen : h.length.toNat ≤ v.len) :
    Ready s (.payloadParse h { off := v.off, len := h.length.toNat }) := by
  have hv : v.off + v.len ≤ s.cfg.iblen := hr.inside v (List.mem_singleton_self v)
  exact ⟨hr.running, hr.legal, List.forall_mem_singleton.2 ((Nat.add_le_add_left hlen _).trans hv), rfl⟩

end

/-- Settles O41: the prologue's two checks raise in that order for every kind; past them the dispatcher sees the cut view
alone, so both parses have one outcome. -/
theorem payloadPrologueChecksLengths : Obligations.PayloadPrologueChecksLengths := by
  intro h v s hr
  refine ⟨fun hlen => ?_, fun hlen hmin => ?_, fun ha => ?_⟩
  · exact parseRaises_of_raise hr (payloadParse_of_prologue_raise _ _ (payloadPrologue_short hlen))
  · exact parseRaises_of_raise hr (payloadParse_of_prologue_raise _ _ (payloadPrologue_tooShort hlen hmin))
  · have hcut := payloadParse_cut s.cfg.wuMask s.ib ha
    have hr' := hr.payloadParse_cut ha.1
    cases hp : payloadParse s.cfg.wuMask s.ib h v with
    | ok pl => exact (parsesTo_of_ok hr hp).payload.trans (parsesTo_of_ok hr' (hcut.symm.trans hp)).payload.symm
    | raise e =>
      exact (parseRaises_of_raise hr hp).payload.trans (parseRaises_of_raise hr' (hcut.symm.trans hp)).payload.symm

/-! ### Where an arm raises an error -/

section
variable {s : State} {h : FrameHeader} {v : View}

theorem parseData_tooMuchPadding (hp : ¬PadFits s h v) :
    parseData s.ib (regionOf h v) = .raise (.tooMuchPadding (s.ib v.off)) :=
  congrArg (Result.map _) (contentOf_overflows hp)

theorem parseHeaders_tooMuchPadding (hp : ¬PadFits s h v) :
    parseHeaders s.ib (regionOf h v) = .raise (.tooMuchPadding (s.ib v.off)) := by
  rw [parseHeaders, contentOf_overflows hp]
  rfl

theorem parseHeaders_short (hp : PadFits s h v) (hpri : h.flags.getLsbD 5 = true) (hlen : (content s h v).len < 5) :
    parseHeaders s.ib (regionOf h v) = .raise .short := by
  rw [parseHeaders, contentOf_fits hp, Result.bind, regionOf_pri, hpri, prioParse_short hlen]
  rfl

theorem parsePriority_short {ib : Buffer} (hlen : h.length.toNat < 5) :
    parsePriority ib (regionOf h v) = .raise .short :=
  congrArg (Result.map _) (if_pos hlen : prioBlock ib (regionOf h v).r = .raise .short)

theorem parseReset_tooShort {ib : Buffer} (hlen : h.length.toNat < 4) :
    parseReset ib (regionOf h v) = .raise .payloadLengthTooShort := if_pos hlen

theorem parseSettings_partial (hlen : h.length.toNat % 6 ≠ 0) :
    parseSettings (regionOf h v) = .raise .partialSettingLength :=
  congrArg (Result.map _) (settingsParse_partial (r := (regionOf h v).r) hlen)

theorem parsePushPromise_tooMuchPadding (hp : ¬PadFits s h v) :
    parsePushPromise s.ib (regionOf h v) = .raise (.tooMuchPadding (s.ib v.off)) := by
  rw [parsePushPromise, contentOf_overflows hp]
  rfl

theorem parsePushPromise_tooShort (hp : PadFits s h v) (hlen : (content s h v).len < 4) :
    parsePushPromise s.ib (regionOf h v) = .raise .payloadLengthTooShort := by
  rw [parsePushPromise, contentOf_fits hp, Result.bind, if_pos hlen]

theorem parsePing_invalid {ib : Buffer} (hlen : h.length.toNat ≠ 8) :
    parsePing ib (regionOf h v) = .raise .invalidPayloadLength := if_pos hlen

theorem parseGoAway_tooShort {ib : Buffer} (hlen : h.length.toNat < 8) :
    parseGoAway ib (regionOf h v) = .raise .payloadLengthTooShort := if_pos hlen

theorem parseWindowUpdate_invalid {ib : Buffer} (wuMask : Bool) (hlen : h.length.toNat ≠ 4) :
    parseWindowUpdate wuMask ib (regionOf h v) = .raise .invalidPayloadLength := if_pos hlen

end

/-! ### The arms -/

/-- Settles O42: the content that padding leaves is the payload, and padding that does not fit is the one error. -/
theorem dataArm : Obligations.DataArm := fun _ _ _ ha =>
  ⟨fun hp => ha.parsesTo (parseData_eq_ok hp), fun hp => ha.raises_tooMuchPadding (parseData_tooMuchPadding hp)⟩

/-- Settles O43: padding comes off first, so the priority block and its length check are those of the content. -/
theorem headersArm : Obligations.HeadersArm := fun _ _ _ ha =>
  ⟨fun hp hpri => ha.parsesTo (parseHeaders_eq_ok_none hp hpri),
    fun hp hpri hlen => ha.parsesTo (parseHeaders_eq_ok_some hp hpri hlen),
    fun hp hpri hlen => ha.raises (parseHeaders_short hp hpri hlen),
    fun hp => ha.raises_tooMuchPadding (parseHeaders_tooMuchPadding hp)⟩

/-- Settles O44: the block is read at the front of the region, whatever the flags. -/
theorem priorityArm : Obligations.PriorityArm := fun _ _ _ ha =>
  ⟨fun hlen => ha.parsesTo (parsePriority_eq_ok hlen), fun hlen => ha.raises (parsePriority_short hlen)⟩

/-- Settles O45: the first four bytes are the error code, with no mask. -/
theorem resetArm : Obligations.ResetArm := fun _ _ _ ha =>
  ⟨fun hlen => ha.parsesTo (parseReset_eq_ok hlen), fun hlen => ha.raises (parseReset_tooShort hlen)⟩

/-- Settles O46: the arm is `settings_parse` of the region. -/
theorem settingsArm : Obligations.SettingsArm := fun _ _ _ ha =>
  ⟨fun hlen => ha.parsesTo (parseSettings_eq_ok hlen), fun hlen => ha.raises (parseSettings_partial hlen)⟩

/-- Settles O47: padding comes off first, so the promised id and its length check are those of the content. -/
theorem pushPromiseArm : Obligations.PushPromiseArm := fun _ _ _ ha =>
  ⟨fun hp hlen => ha.parsesTo (parsePushPromise_eq_ok hp hlen),
    fun hp hlen => ha.raises (parsePushPromise_tooShort hp hlen),
    fun hp => ha.raises_tooMuchPadding (parsePushPromise_tooMuchPadding hp)⟩

/-- Settles O48: the arm's one check is that the length is eight. -/
theorem pingArm : Obligations.PingArm := fun _ _ _ ha =>
  ⟨fun hlen => ha.parsesTo (parsePing_eq_ok hlen), fun hlen => ha.raises (parsePing_invalid hlen)⟩

/-- Settles O49: two words at the front, of which the first alone is masked, and the rest of the region. -/
theorem goAwayArm : Obligations.GoAwayArm := fun _ _ _ ha =>
  ⟨fun hlen => ha.parsesTo (parseGoAway_eq_ok hlen), fun hlen => ha.raises (parseGoAway_tooShort hlen)⟩

/-- Settles O50: `parseWindowUpdate_eq_ok` at each value of `P_WU_MASK`. -/
theorem windowUpdateArm : Obligations.WindowUpdateArm := by
  intro h v s ha
  have hok (hlen : h.length.toNat = 4) := ha.parsesTo (parseWindowUpdate_eq_ok s.cfg.wuMask hlen)
  refine ⟨fun hlen hwu => ?_, fun hlen hwu => ?_, fun hlen => ha.raises (parseWindowUpdate_invalid _ hlen)⟩
  · simpa only [hwu, Bool.false_eq_true, if_false] using hok hlen
  · simpa only [hwu, if_true] using hok hlen

/-- Settles O51: both arms hand the region on as it is. -/
theorem continuationAndUnregisteredArms : Obligations.ContinuationAndUnregisteredArms := fun _ _ _ =>
  ⟨fun ha => ha.parsesTo rfl, fun ha => ha.parsesTo rfl⟩

end Sys2Proof.Machine
end

section
/-! The payload encoder and the length commands (47_payload_encode.md R240 to R255). -/

namespace Sys2Proof.Machine

/-! ### The bytes come from the operands and the viewed bytes (R253, R255) -/

/-- Whether an encode command can run depends on the cells through their canonical form alone. -/
theorem CanEncode.withMem {s : State} {i : Instr} {m : Memory} (h : CanEncode s i) (hm : m.wf) :
    CanEncode { s with mem := m } i where
  ready := ⟨h.ready.running, h.ready.legal, h.ready.inside, h.ready.kinds⟩
  room := h.room
  apart := h.apart
  cells := hm

/-- Settles O54: both runs store the command's bytes, which are the same from two memories that agree on its views. -/
theorem encodeFillsItsRangeFromItsOperands : Obligations.EncodeFillsItsRangeFromItsOperands := by
  intro i obo n s t u m ho hc hm hagree ht hu
  have hwt := exec_encode_wrote ho hc ht
  have hwu := exec_encode_wrote ho (hc.withMem hm) hu
  have hbytes : instrBytes s.cfg.wuMask (State.ib { s with mem := m }) i = instrBytes s.cfg.wuMask s.ib i :=
    instrBytes_congr _ fun v hv => agreeOn_of_read (hagree v hv)
  exact ⟨hwu.bytes.trans (hbytes.trans hwt.bytes.symm), hwt.res, hwu.res⟩

/-! ### The length commands (R252, R272) -/

theorem encodedLen_headers_none (v : View) : encodedLen (.headers none v) = v.len := Nat.zero_add v.len

/-- A view of settings that an operand check accepts is counted as its bytes. -/
theorem encodedLen_settings_view {v : View} (hl : payloadLegal (.settings (.view v)) = true) :
    encodedLen (.settings (.view v)) = v.len :=
  six_mul_seqCount_view (seqLegal_view_iff.1 hl)

theorem payloadLen_gives {s : State} {pl : Payload} (hr : Ready s (.payloadLen pl)) :
    Gives s (.payloadLen pl) (.count (encodedLen pl)) :=
  gives_of_ok hr rfl ⟨rfl, rfl, rfl, rfl⟩ rfl

/-- A legal header of the payload's kind adds no check that can fail (R37, R51). -/
theorem Ready.frameLen {s : State} {pl : Payload} {h : FrameHeader} (hr : Ready s (.payloadLen pl))
    (hh : headerLegal h = true) (hk : payloadTag pl = h.kind) :
    Ready s (.frameLen { header := h, payload := pl }) where
  running := hr.running
  legal := Bool.and_eq_true_iff.2 ⟨hh, hr.legal⟩
  inside := hr.inside
  kinds := beq_iff_eq.2 hk

theorem frameLen_gives {s : State} {fr : Frame} (hr : Ready s (.frameLen fr)) :
    Gives s (.frameLen fr) (.count (9 + encodedLen fr.payload)) :=
  gives_of_ok hr rfl ⟨rfl, rfl, rfl, rfl⟩ rfl

/-- Settles O55: the count is `encodedLen`, whose equations are the formula; a view of settings is whole records, since
the operand is legal. -/
theorem lengthCommandsCountBytes : Obligations.LengthCommandsCountBytes := by
  intro pl s hr
  refine ⟨encodedLen pl, payloadLen_gives hr, ?data, ?headersNone, ?headersSome, ?priority, ?reset, ?settingsView,
    ?settingsList, ?pushPromise, ?ping, ?goAway, ?windowUpdate, ?continuation, ?unregistered,
    fun h hh hk => frameLen_gives (hr.frameLen hh hk)⟩
  case headersNone => rintro b rfl; exact encodedLen_headers_none b
  case settingsView => rintro v rfl; exact encodedLen_settings_view hr.legal
  case goAway => rintro l e d rfl; rfl
  case headersSome | pushPromise => rintro x b rfl; rfl
  all_goals rintro x rfl; rfl

/-! ### The payload encoder (R240 to R251) -/

/-- PAYLOAD_ENCODE that can run leaves the bytes of its payload's arm, as many as `encoded_len` counts. -/
theorem payloadEncode_encodes {s : State} {pl : Payload} {obo : Nat} (hc : CanEncode s (.payloadEncode pl obo)) :
    Encodes s (.payloadEncode pl obo) obo (encodedLen pl) (payloadBytes s.cfg.wuMask s.ib pl) :=
  encodes_of_bytes hc rfl ⟨rfl, rfl, rfl, rfl⟩ rfl (length_payloadBytes s.cfg.wuMask s.ib pl)

/-- Settles O56: each of the three arms is the copy of its view. -/
theorem viewPayloadsAreCopied : Obligations.ViewPayloadsAreCopied := by
  rintro _ v obo s (rfl | rfl | rfl) hc <;> exact payloadEncode_encodes hc

/-- The bytes of an increment, its top bit written 0 when `P_WU_MASK` is true (R249). -/
theorem windowUpdateBytes_eq (wuMask : Bool) (x : BitVec 32) :
    windowUpdateBytes wuMask x = if wuMask then bytes31 x else bytes32 x := by
  cases wuMask with
  | false => exact u32Bytes_eq x
  | true => exact sidBytes_eq x

theorem windowUpdate_encodes {s : State} {x : BitVec 32} {obo : Nat}
    (hc : CanEncode s (.payloadEncode (.windowUpdate x) obo)) :
    Encodes s (.payloadEncode (.windowUpdate x) obo) obo 4 (if s.cfg.wuMask then bytes31 x else bytes32 x) :=
  windowUpdateBytes_eq s.cfg.wuMask x ▸ payloadEncode_encodes hc

/-- Settles O57: each arm is one scalar encoder, whose bytes are the big-endian ones of its field. -/
theorem fixedPayloadsAreWritten : Obligations.FixedPayloadsAreWritten := by
  refine fun obo s => ⟨fun q hc => ?_, fun e hc => ?_, fun hi lo hc => ?_, fun x hc hwu => ?_, fun x hc hwu => ?_⟩
  · exact prioBytes_eq q ▸ payloadEncode_encodes hc
  · exact u32Bytes_eq e ▸ payloadEncode_encodes hc
  · exact u64Bytes_append hi lo ▸ payloadEncode_encodes hc
  · simpa only [hwu, Bool.false_eq_true, if_false] using windowUpdate_encodes hc
  · simpa only [hwu, if_true] using windowUpdate_encodes hc

/-- A view of settings that can be encoded is copied (R245). -/
theorem payloadEncode_settings_view_encodes {s : State} {v : View} {obo : Nat}
    (hc : CanEncode s (.payloadEncode (.settings (.view v)) obo)) :
    Encodes s (.payloadEncode (.settings (.view v)) obo) obo v.len (readBytes s.ib v.off v.len) := by
  have hwhole : v.len % 6 = 0 := seqLegal_view_iff.1 hc.ready.legal
  have henc := payloadEncode_encodes hc
  rwa [encodedLen_settings_view hc.ready.legal, payloadBytes, settingsBytes, seqBytes_view s.ib hwhole] at henc

/-- Without a priority block, Headers is the copy of its view (R242). -/
theorem payloadEncode_headers_none_encodes {s : State} {v : View} {obo : Nat}
    (hc : CanEncode s (.payloadEncode (.headers none v) obo)) :
    Encodes s (.payloadEncode (.headers none v) obo) obo v.len (readBytes s.ib v.off v.len) := by
  have henc := payloadEncode_encodes hc
  rwa [encodedLen_headers_none] at henc

/-- Settles O58: each arm is the encoders of its fields, then the copy of its view; a view of settings is copied, since
the operand is legal. -/
theorem compositePayloadsAreWritten : Obligations.CompositePayloadsAreWritten := by
  refine fun b obo s => ⟨fun hc => ?_, fun q hc => ?_, fun rs hc => ?_, payloadEncode_settings_view_encodes,
    fun id hc => ?_, fun last e hc => ?_⟩
  · exact payloadEncode_headers_none_encodes hc
  · exact prioBytes_eq q ▸ payloadEncode_encodes hc
  · exact seqBytes_eq s.ib (.list rs) ▸ payloadEncode_encodes hc
  · exact sidBytes_eq id ▸ payloadEncode_encodes hc
  · exact sidBytes_eq last ▸ u32Bytes_eq e ▸ payloadEncode_encodes hc

end Sys2Proof.Machine
end

section
/-! The frame entry points (48_frame.md R270, R271, R273, R274): FRAME_PARSE beside PAYLOAD_PARSE, FRAME_ENCODE beside
PAYLOAD_ENCODE, and the round trip of a valid frame. -/

namespace Sys2Proof.Machine

/-! ### FRAME_ENCODE (R271) -/

theorem legal_of_ready_frameEncode {s : State} {fr : Frame} {obo : Nat} (hr : Ready s (.frameEncode fr obo)) :
    headerLegal fr.header = true ∧ payloadLegal fr.payload = true :=
  Bool.and_eq_true_iff.1 hr.legal

/-- FRAME_ENCODE that can run leaves the nine bytes of the header as stored, then those of the payload's arm. -/
theorem frameEncode_encodes {s : State} {fr : Frame} {obo : Nat} (hc : CanEncode s (.frameEncode fr obo)) :
    Encodes s (.frameEncode fr obo) obo (9 + encodedLen fr.payload)
      (bytesHeader fr.header ++ payloadBytes s.cfg.wuMask s.ib fr.payload) := by
  obtain ⟨-, hk⟩ := Bool.and_eq_true_iff.1 (legal_of_ready_frameEncode hc.ready).1
  rw [← headerBytes_eq fr.header hk]
  exact encodes_of_bytes hc rfl ⟨rfl, rfl, rfl, rfl⟩ rfl (length_frameBytes s.cfg.wuMask s.ib fr)

/-- Where FRAME_ENCODE can run, PAYLOAD_ENCODE of its payload can run nine bytes further on. -/
theorem CanEncode.payloadEncode {s : State} {fr : Frame} {obo : Nat} (hc : CanEncode s (.frameEncode fr obo)) :
    CanEncode s (.payloadEncode fr.payload (obo + 9)) where
  ready := ⟨hc.ready.running, (legal_of_ready_frameEncode hc.ready).2, hc.ready.inside, rfl⟩
  room := by
    rintro _ _ ⟨rfl, rfl⟩
    exact (Nat.add_assoc obo 9 _).le.trans (hc.room obo _ rfl)
  apart := hc.apart
  cells := hc.cells

/-- Settles O59: both commands write the bytes of the payload's arm, FRAME_ENCODE behind those of the header. -/
theorem frameEncodeWritesHeaderThenPayload : Obligations.FrameEncodeWritesHeaderThenPayload := by
  intro fr obo s hc
  obtain ⟨u, hu, hw⟩ := payloadEncode_encodes hc.payloadEncode
  refine ⟨u, hu, hw.status, ?_⟩
  rw [hw.bytes]
  exact frameEncode_encodes hc

/-! ### FRAME_PARSE (R270) -/

/-- Settles O52: both commands make the same checks and apply the payload dispatcher, so they fault and raise alike; a
payload that the dispatcher gives is of its header's kind. -/
theorem frameParseDelegates : Obligations.FrameParseDelegates := by
  intro h v s t hs ht
  obtain rfl := Host.Outcome.next.inj ht
  cases hf : ({ legal := headerLegal h, views := [v] } : Checks).firstFault s.cfg with
  | some f =>
    rw [State.readCycle_fault _ hs hf]
    exact ⟨nofun, fun _ => congrArg Host.Outcome.next (State.readCycle_fault _ hs hf),
      fun h0 => absurd h0 (State.takeFault_status_ne s f)⟩
  | none =>
    obtain ⟨hl, hv, -⟩ := Checks.firstFault_eq_none.1 hf
    have hr : Ready s (.payloadParse h v) := ⟨hs, hl, hv, rfl⟩
    rw [State.readCycle_rule _ hs hf]
    cases hp : payloadParse s.cfg.wuMask s.ib h v with
    | ok pl =>
      refine ⟨?_, fun hne => absurd rfl hne, fun _ => ⟨pl, rfl, ?_⟩⟩
      · rintro _ ⟨rfl⟩
        exact (parsesTo_of_ok hr hp).frame
      · exact payloadTag_of_parse (Bool.and_eq_true_iff.1 hl).2 hp
    | raise e =>
      exact ⟨nofun, fun _ => (parseRaises_of_raise hr hp).frame, fun h0 => absurd h0 (State.statusOfError_ne e)⟩

/-! ### Encoding, then parsing (R274) -/

/-- The header of a valid frame is read back from its nine bytes as it was: its length and stream id are in range. -/
theorem hdrParse_of_bytesHeader {u : State} {a n : Nat} {h : FrameHeader} (hl : headerLegal h = true)
    (hlength : h.length.toNat < 2 ^ 24) (hsid : sidLegal h.streamId) (hn : 9 ≤ n)
    (hb : readBytes u.ib a 9 = bytesHeader h) : hdrParse u.ib { off := a, len := n } = .ok h := by
  obtain ⟨hf, hk⟩ := Bool.and_eq_true_iff.1 hl
  have hflags : u.ib (a + 4) = h.flags := ib_of_bytes hb 4 (by decide)
  rw [hdrParse_eq_ok hn (hflags ▸ hf), headerField_of_bytes hk hb, (setWidth_24_eq_iff _).2 hlength,
    mask_of_sidLegal hsid]

/-- IB of `u` holds, at the view's offset, the bytes of a payload whose views stand in IB of `s`, and the header counts
them. -/
structure Carries (s u : State) (h : FrameHeader) (v : View) (pl : Payload) : Prop where
  length : h.length.toNat = encodedLen pl
  bytes : readBytes u.ib v.off (encodedLen pl) = payloadBytes u.cfg.wuMask s.ib pl

/-- A parse from IB of `u` gives a payload equal by content to one whose views stand in IB of `s` (R274). -/
def Recovers (s u : State) (parsed : Result Payload) (pl : Payload) : Prop :=
  ∃ pl', parsed = .ok pl' ∧ sameContent s.ib u.ib pl pl'

section
variable {s u : State} {h : FrameHeader} {v : View}

theorem padFits_of_unpadded (hpad : h.flags.getLsbD 3 = false) : PadFits u h v :=
  fun hset => absurd (hpad.symm.trans hset) Bool.false_ne_true

theorem content_of_unpadded (hpad : h.flags.getLsbD 3 = false) :
    content u h v = { off := v.off, len := h.length.toNat } := by
  rw [content, hpad]
  rfl

/-- What a parse leaves after the first `k` bytes of a payload is the view that the encoder copied behind them. -/
theorem viewBytes_of_split {b : View} {a k n : Nat} {front : List Byte}
    (hb : readBytes u.ib a (k + b.len) = front ++ viewBytes s.ib b) (hk : front.length = k) (hn : n = k + b.len) :
    readBytes u.ib a k = front ∧ viewBytes s.ib b = viewBytes u.ib { off := a + k, len := n - k } := by
  obtain ⟨hfront, hrest⟩ := readBytes_split hb hk
  rw [hn, viewBytes, Nat.add_sub_cancel_left]
  exact ⟨hfront, hrest.symm⟩

/-- A priority block whose dependency is below 2^31 is read back as it was. -/
theorem prioField_of_prioBytes {q : Priority} {a : Nat} (hq : prioLegal q) (hb : readBytes u.ib a 5 = prioBytes q) :
    prioField u a = q := by
  rw [prioField_of_bytes (hb.trans (prioBytes_eq q)), mask_of_sidLegal hq]

theorem be31_of_sidBytes {x : BitVec 32} {a : Nat} (hx : sidLegal x) (hb : readBytes u.ib a 4 = sidBytes x) :
    be31 u a = x := by
  rw [be31_of_bytes (hb.trans (sidBytes_eq x)), mask_of_sidLegal hx]

theorem be32_of_u32Bytes {x : BitVec 32} {a : Nat} (hb : readBytes u.ib a 4 = u32Bytes x) : be32 u a = x :=
  be32_of_bytes (hb.trans (u32Bytes_eq x))

theorem be64_of_u64Bytes {x : BitVec 64} {a : Nat} (hb : readBytes u.ib a 8 = u64Bytes x) : be64 u a = x := by
  rw [← halves_append x, u64Bytes_append] at hb
  rw [be64_of_bytes hb, halves_append]

/-! The arms, each on the bytes that its encode arm writes. -/

theorem recovers_data {d : View} (hc : Carries s u h v (.data d)) (hpad : h.flags.getLsbD 3 = false) :
    Recovers s u (parseData u.ib (regionOf h v)) (.data d) := by
  refine ⟨_, parseData_eq_ok (padFits_of_unpadded hpad), ?_⟩
  rw [content_of_unpadded hpad, hc.length]
  exact hc.bytes.symm

theorem recovers_headers_none {b : View} (hc : Carries s u h v (.headers none b))
    (hpad : h.flags.getLsbD 3 = false) (hpri : h.flags.getLsbD 5 = false) :
    Recovers s u (parseHeaders u.ib (regionOf h v)) (.headers none b) := by
  refine ⟨_, parseHeaders_eq_ok_none (padFits_of_unpadded hpad) hpri, rfl, ?_⟩
  rw [content_of_unpadded hpad, hc.length]
  exact hc.bytes.symm

theorem recovers_headers_some {q : Priority} {b : View} (hc : Carries s u h v (.headers (some q) b))
    (hpad : h.flags.getLsbD 3 = false) (hpri : h.flags.getLsbD 5 = true) (hq : prioLegal q) :
    Recovers s u (parseHeaders u.ib (regionOf h v)) (.headers (some q) b) := by
  have hcontent := content_of_unpadded (u := u) (v := v) hpad
  have hlength : h.length.toNat = 5 + b.len := hc.length
  have hlen : (content u h v).len = 5 + b.len := by rw [hcontent, hlength]
  obtain ⟨hprio, hblock⟩ := viewBytes_of_split hc.bytes rfl hlength
  refine ⟨_, parseHeaders_eq_ok_some (padFits_of_unpadded hpad) hpri (by omega), ?_⟩
  rw [hcontent, prioField_of_prioBytes hq hprio]
  exact ⟨rfl, hblock⟩

theorem recovers_priority {q : Priority} (hc : Carries s u h v (.priority q)) (hq : prioLegal q) :
    Recovers s u (parsePriority u.ib (regionOf h v)) (.priority q) :=
  ⟨_, parsePriority_eq_ok hc.length.ge, (prioField_of_prioBytes hq hc.bytes).symm⟩

theorem recovers_reset {e : BitVec 32} (hc : Carries s u h v (.reset e)) :
    Recovers s u (parseReset u.ib (regionOf h v)) (.reset e) :=
  ⟨_, parseReset_eq_ok hc.length.ge, (be32_of_u32Bytes hc.bytes).symm⟩

/-- Settings come back as the view of the region, whose records are those that were encoded (R39). -/
theorem recovers_settings {q : SettingSeq} (hc : Carries s u h v (.settings q)) :
    Recovers s u (parseSettings (regionOf h v)) (.settings q) := by
  have hlength : h.length.toNat = 6 * seqCount q := hc.length
  refine ⟨_, parseSettings_eq_ok (by omega), ?_⟩
  rw [hlength]
  exact (seqRecords_view_of_bytes hc.bytes).symm

theorem recovers_pushPromise {id : BitVec 32} {b : View} (hc : Carries s u h v (.pushPromise id b))
    (hpad : h.flags.getLsbD 3 = false) (hid : sidLegal id) :
    Recovers s u (parsePushPromise u.ib (regionOf h v)) (.pushPromise id b) := by
  have hcontent := content_of_unpadded (u := u) (v := v) hpad
  have hlength : h.length.toNat = 4 + b.len := hc.length
  have hlen : (content u h v).len = 4 + b.len := by rw [hcontent, hlength]
  obtain ⟨hpromised, hblock⟩ := viewBytes_of_split hc.bytes rfl hlength
  refine ⟨_, parsePushPromise_eq_ok (padFits_of_unpadded hpad) (by omega), ?_⟩
  rw [hcontent, be31_of_sidBytes hid hpromised]
  exact ⟨rfl, hblock⟩

theorem recovers_ping {x : BitVec 64} (hc : Carries s u h v (.ping x)) :
    Recovers s u (parsePing u.ib (regionOf h v)) (.ping x) :=
  ⟨_, parsePing_eq_ok hc.length, (be64_of_u64Bytes hc.bytes).symm⟩

theorem recovers_goAway {last e : BitVec 32} {d : View} (hc : Carries s u h v (.goAway last e d))
    (hlast : sidLegal last) : Recovers s u (parseGoAway u.ib (regionOf h v)) (.goAway last e d) := by
  have hlength : h.length.toNat = 8 + d.len := hc.length
  obtain ⟨hfront, hdebug⟩ := viewBytes_of_split hc.bytes rfl hlength
  obtain ⟨hid, hcode⟩ := readBytes_split (k := 4) (n := 4) hfront rfl
  exact ⟨_, parseGoAway_eq_ok (by omega), (be31_of_sidBytes hlast hid).symm, (be32_of_u32Bytes hcode).symm, hdebug⟩

/-- The increment comes back whole: under `P_WU_MASK` its top bit was 0 to begin with (R273). -/
theorem recovers_windowUpdate {x : BitVec 32} (hc : Carries s u h v (.windowUpdate x))
    (hx : u.cfg.wuMask = true → sidLegal x) :
    Recovers s u (parseWindowUpdate u.cfg.wuMask u.ib (regionOf h v)) (.windowUpdate x) := by
  refine ⟨_, parseWindowUpdate_eq_ok _ hc.length, ?_⟩
  have hbytes : readBytes u.ib v.off 4 = windowUpdateBytes u.cfg.wuMask x := hc.bytes
  cases hwu : u.cfg.wuMask with
  | false =>
    rw [hwu] at hbytes
    exact (be32_of_u32Bytes hbytes).symm
  | true =>
    rw [hwu] at hbytes
    exact (be31_of_sidBytes (hx hwu) hbytes).symm

theorem recovers_continuation {b : View} (hc : Carries s u h v (.continuation b)) :
    Recovers s u (parseContinuation (regionOf h v)) (.continuation b) := by
  refine ⟨_, rfl, ?_⟩
  rw [regionOf_r, hc.length]
  exact hc.bytes.symm

theorem recovers_unregistered {b : View} (hc : Carries s u h v (.unregistered b)) :
    Recovers s u (parseUnregistered (regionOf h v)) (.unregistered b) := by
  refine ⟨_, rfl, ?_⟩
  rw [regionOf_r, hc.length]
  exact hc.bytes.symm

/-- The arm of a valid frame's kind reads the payload back from its bytes: the clauses of R273 are the premises of the
arms. -/
theorem ValidFrame.recovers {fr : Frame} (hv : ValidFrame u.cfg.wuMask fr) (hl : payloadLegal fr.payload = true)
    (hc : Carries s u fr.header v fr.payload) :
    Recovers s u (payloadArm u.cfg.wuMask u.ib (kindOfTag (payloadTag fr.payload)) (regionOf fr.header v))
      fr.payload := by
  obtain ⟨h, pl⟩ := fr
  have hpad := has_padded h.flags ▸ hv.d
  cases pl with
  | data d => exact recovers_data hc (hpad (.inl ⟨d, rfl⟩))
  | headers opt b =>
    have hpri := has_priority h.flags ▸ hv.e opt b rfl
    have hunpadded := hpad (.inr (.inl ⟨opt, b, rfl⟩))
    cases opt with
    | none => exact recovers_headers_none hc hunpadded hpri
    | some q => exact recovers_headers_some hc hunpadded hpri hv.f
  | priority q => exact recovers_priority hc hv.f
  | reset e => exact recovers_reset hc
  | settings q => exact recovers_settings hc
  | pushPromise id b => exact recovers_pushPromise hc (hpad (.inr (.inr ⟨id, b, rfl⟩))) hv.f
  | ping x => exact recovers_ping hc
  | goAway last e d => exact recovers_goAway hc hv.f
  | windowUpdate x => exact recovers_windowUpdate hc hv.f
  | continuation b => exact recovers_continuation hc
  | unregistered b => exact recovers_unregistered hc
  | illegal n => exact absurd hl Bool.false_ne_true

end

/-- A view that holds the payload of a valid frame gets past the prologue (R210, R273). -/
theorem ValidFrame.reachesArm {wuMask : Bool} {fr : Frame} {v : View} (hv : ValidFrame wuMask fr)
    (hlen : encodedLen fr.payload ≤ v.len) : ReachesArm fr.header v :=
  ⟨hv.b.1.trans_le hlen, minPayloadLength_eq fr.header.flags ▸ hv.g⟩

/-- Settles O60: the copied bytes are the nine of the header and those of the payload's arm, which HDR_PARSE and the parse
arm of the header's kind read back. -/
theorem frameRoundTrip : Obligations.FrameRoundTrip := by
  rintro fr obo a _ s t u hv hc ht rfl hwu hu hin hcopy
  rw [← hwu] at hv
  obtain ⟨hlh, hlp⟩ := legal_of_ready_frameEncode hc.ready
  obtain ⟨hheader, hpayload⟩ := readBytes_split (hcopy.bytes_eq.trans ((frameEncode_encodes hc).bytes_eq ht)) rfl
  refine ⟨?_, ?_⟩
  · have hr : Ready u (.hdrParse { off := a, len := 9 + encodedLen fr.payload }) :=
      ⟨hu, rfl, List.forall_mem_singleton.2 hin, rfl⟩
    have hlength : fr.header.length.toNat < 2 ^ 24 := Nat.lt_of_le_pred (by decide) hv.b.2
    exact (gives_header_iff hr).2
      (hdrParse_of_bytesHeader hlh hlength hv.c (Nat.le_add_right 9 _) hheader)
  · rw [Nat.add_sub_cancel_left]
    have hr : Ready u (.frameParse fr.header { off := a + 9, len := encodedLen fr.payload }) :=
      ⟨hu, hlh, List.forall_mem_singleton.2 ((Nat.add_assoc a 9 _).le.trans hin), rfl⟩
    obtain ⟨pl, hparse, hsame⟩ := hv.recovers (s := s) (v := { off := a + 9, len := encodedLen fr.payload }) hlp
      ⟨hv.b.1, hwu ▸ hpayload⟩
    rw [hv.a] at hparse
    have hk := (kindTag_kindOfTag (Bool.and_eq_true_iff.1 hlh).2).symm
    exact ⟨pl, frameParse_gives hr hk (hv.reachesArm le_rfl) hparse, hsame⟩

end Sys2Proof.Machine
end

section
/-! Faults and errors of any instruction (60_exceptions.md R301, R310, R311, R313, R314): the order of the checks, what a
stop leaves unchanged, and the stuck block. -/

namespace Sys2Proof.Machine

/-! ### The order of the faults -/

/-- An instruction is turned away for whatever fault its checks find first, with the place its bytes go to among them. -/
theorem stops_of_firstFault {s : State} {i : Instr} {f : ModelFault} (hs : s.faulted = false)
    (hf : ∀ c : Checks, c.legal = i.legal → c.views = instrViews s.cfg.iblen i → c.kindsMatch = instrKindsMatch i →
      c.firstFault s.cfg = some f) : Stops s i (statusOfFault f) := by
  cases ho : instrOut i with
  | none =>
    obtain ⟨c, rule, he, hc⟩ := exec_read i s ho
    rw [Stops, he, State.readCycle_fault rule hs (hf c hc.legal hc.views hc.kinds)]
    rfl
  | some out =>
    obtain ⟨c, bytes, he, hc, -⟩ := exec_encode i s (obo := out.1) (n := out.2) ho
    rw [Stops, he, State.encodeCycle_fault bytes hs (hf _ hc.legal hc.views hc.kinds)]
    rfl

/-- A view that leaves IB is IB_BOUNDS, when the operands are legal. -/
theorem stops_of_outside {s : State} {i : Instr} (hs : s.faulted = false) (hl : i.legal = true)
    (hv : ∃ v ∈ instrViews s.cfg.iblen i, s.cfg.iblen < v.off + v.len) : Stops s i (statusOfFault .ibBounds) :=
  stops_of_firstFault hs fun _ hlegal hviews _ => Checks.firstFault_outside (hlegal.trans hl) (hviews ▸ hv)

/-- A payload of another kind than its header's is KIND_MISMATCH, when the operands are legal and their views in IB. -/
theorem stops_of_mismatch {s : State} {i : Instr} (hs : s.faulted = false) (hl : i.legal = true)
    (hv : ∀ v ∈ instrViews s.cfg.iblen i, v.off + v.len ≤ s.cfg.iblen) (hk : instrKindsMatch i = false) :
    Stops s i (statusOfFault .kindMismatch) :=
  stops_of_firstFault hs fun _ hlegal hviews hkinds =>
    Checks.firstFault_mismatch (hlegal.trans hl) (hviews ▸ hv) (hkinds.trans hk)

/-- Settles O12: each fault is the first that the checks of R50 find, in their order. -/
theorem faultsComeFirstInOrder : Obligations.FaultsComeFirstInOrder := fun _ _ hs =>
  ⟨stops_of_illegal hs, stops_of_outside hs, stops_of_mismatch hs,
    fun hr ⟨_, _, ho, hroom⟩ => stops_of_noRoom hr ho hroom⟩

/-- Settles O13: no check fails, so the command completes or raises an error, and neither leaves FAULT set. -/
theorem noFaultForLegalCommands : Obligations.NoFaultForLegalCommands := by
  intro i s hr hroom
  cases ho : instrOut i with
  | none =>
    obtain ⟨c, rule, he, hc⟩ := exec_read i s ho
    rw [State.readCycle_rule rule hr.running (hr.firstFault hc)] at he
    cases rule with
    | ok r => exact ⟨_, he, State.complete_faulted s r⟩
    | raise e => exact ⟨_, he, State.raiseError_faulted s e⟩
  | some out =>
    obtain ⟨views, bytes, he⟩ := exec_encode_done (obo := out.1) (n := out.2) ho hr hroom
    exact ⟨_, he, State.complete_faulted _ _⟩

/-! ### The stuck block (R314, R354) -/

theorem State.reject_stuck {s : State} (r : Reject) (hs : s.faulted = true) : s.reject r = s := by
  cases r <;> simp [reject, badOpcode, hs]

/-- A stuck block takes a command record and does nothing, whatever the record decodes to (log entry 9). -/
theorem step_cmd_stuck {s : State} {bits : Nat} {rest : List PortInput} (hs : s.faulted = true)
    (hp : s.port = .cmd bits :: rest) : step s = .next { s with port := rest } := by
  cases hd : decode s.cfg.addrW (.record bits) with
  | ok i => exact (stepRunsDecodedRecord s bits rest i hp hd).trans (exec_stuck i hs)
  | error r =>
    refine step_of_issue_done hp ((State.issueFetched_of_reject (s := { s with port := rest }) hd).trans ?_)
    rw [State.reject_stuck (s := { s with port := rest }) r hs]

/-- A stuck block takes a frame and does nothing. -/
theorem step_frame_stuck {s : State} {c : Nat} {rest : List PortInput} (hs : s.faulted = true)
    (hp : s.port = .frame c :: rest) : step s = .next { s with port := rest } :=
  step_of_issue_done hp (State.issueFrame_stuck (s := { s with port := rest }) c hs)

/-- Settles O14: a command and a frame find the block stuck, and what the caller writes reaches the cells alone. -/
theorem faultIsStickyUntilReset : Obligations.FaultIsStickyUntilReset := by
  refine fun s hs => ⟨fun i => exec_stuck i hs, fun input rest hp hne => ?_, fun _ _ => step_cmd_stuck hs,
    fun _ _ => step_frame_stuck hs⟩
  cases input with
  | cmd bits => exact ⟨_, step_cmd_stuck hs hp, rfl, rfl⟩
  | frame c => exact ⟨_, step_frame_stuck hs hp, rfl, rfl⟩
  | reset => exact absurd rfl hne
  | ibWrite a bytes => exact ⟨_, step_of_issue_done hp rfl, rfl, rfl⟩
  | obWrite a bytes => exact ⟨_, step_of_issue_done hp rfl, rfl, rfl⟩

/-! ### What a stop leaves unchanged (R301, R313) -/

/-- A reading cycle that ends with STATUS other than 0 has set STATUS, and RES to NONE. -/
theorem State.readCycle_stopped {s : State} {c : Checks} {rule : Result Res} (hs : s.faulted = false)
    (hstop : (s.readCycle c rule).status ≠ 0#32) :
    s.readCycle c rule = { s with status := (s.readCycle c rule).status, res := .none } := by
  obtain ⟨hstuck, -⟩ | ⟨-, f, -, heq⟩ | ⟨-, -, ⟨r, -, heq⟩ | ⟨e, -, heq⟩⟩ := s.readCycle_cases c rule
  · simp [hs] at hstuck
  · rw [heq]; rfl
  · exact absurd (congrArg status heq) hstop
  · rw [heq]; rfl

/-- An encode cycle that ends with STATUS other than 0 has stored nothing. -/
theorem State.encodeCycle_stopped {s : State} {c : Checks} {obo n : Nat} {bytes : List Byte} (hs : s.faulted = false)
    (hstop : (s.encodeCycle c obo n bytes).status ≠ 0#32) :
    s.encodeCycle c obo n bytes = { s with status := (s.encodeCycle c obo n bytes).status, res := .none } := by
  obtain ⟨hstuck, -⟩ | ⟨-, f, -, heq⟩ | ⟨-, -, heq⟩ := s.encodeCycle_cases c obo n bytes
  · simp [hs] at hstuck
  · rw [heq]; rfl
  · exact absurd (congrArg status heq) hstop

/-- Settles O15: an instruction is one command cycle, which stores nothing before its last check has passed. -/
theorem errorsAndFaultsArePrecise : Obligations.ErrorsAndFaultsArePrecise := by
  intro i s t hs ht hstop
  cases ho : instrOut i with
  | none =>
    obtain ⟨c, rule, he, -⟩ := exec_read i s ho
    obtain rfl := Host.Outcome.next.inj (he.symm.trans ht)
    exact State.readCycle_stopped hs hstop
  | some out =>
    obtain ⟨c, bytes, he, -⟩ := exec_encode i s (obo := out.1) (n := out.2) ho
    obtain rfl := Host.Outcome.next.inj (he.symm.trans ht)
    exact State.encodeCycle_stopped hs hstop

end Sys2Proof.Machine
end

section
/-! RESET and power-on, the idle step, and the independence of an instruction from earlier outcomes
(70_reset_and_hazards.md R340, R341, 60_exceptions.md R325, 10_state.md R48). -/

namespace Sys2Proof.Machine

/-- Settles O7: there is no input to issue. -/
theorem idleStepChangesNothing : Obligations.IdleStepChangesNothing := fun _ => step_of_port_nil

/-- Settles O8: for RESET the port issues no instruction but clears both registers itself; the launches are evaluated. -/
theorem resetClearsStatusAndResult : Obligations.ResetClearsStatusAndResult :=
  ⟨fun _ _ hp => step_of_issue_done hp rfl, fun _ => ⟨rfl, rfl, rfl⟩, rfl, rfl⟩

/-! ### Independence from STATUS and RES -/

namespace State

/-- A store neither reads nor writes STATUS and RES. -/
theorem storeOut_with (s : State) (obo : Nat) (views : List View) (bytes : List Byte) (w : BitVec 32) (r : Res) :
    State.storeOut { s with status := w, res := r } obo views bytes =
      { s.storeOut obo views bytes with status := w, res := r } := by
  unfold storeOut
  split <;> rfl

/-- While the block is not stuck, an encode cycle does not depend on the STATUS and RES it starts from (R341). -/
theorem encodeCycle_with {s : State} (c : Checks) (obo n : Nat) (bytes : List Byte) {w : BitVec 32} (r : Res)
    (hs : s.faulted = false) (hw : statusFault w = false) :
    State.encodeCycle { s with status := w, res := r } c obo n bytes = s.encodeCycle c obo n bytes := by
  obtain ⟨hstuck, -⟩ | ⟨-, f, hf, heq⟩ | ⟨-, hf, heq⟩ := s.encodeCycle_cases c obo n bytes
  · simp [hs] at hstuck
  · exact heq ▸ encodeCycle_fault bytes hw hf
  · rw [heq, encodeCycle_done (s := { s with status := w, res := r }) bytes hw hf, storeOut_with]
    rfl

end State

/-- The checks that R50 names for an instruction are one value. -/
theorem ChecksOf.unique {p : Params} {i : Instr} {c c' : Checks} (h : ChecksOf p i c) (h' : ChecksOf p i c') :
    c = c' := by
  cases c
  cases c'
  rw [Checks.mk.injEq]
  exact ⟨h.legal.trans h'.legal.symm, h.views.trans h'.views.symm, h.kinds.trans h'.kinds.symm,
    h.out.trans h'.out.symm⟩

/-- Settles O22: the two runs are one command cycle with the same checks and rule, which looks at FAULT alone. -/
theorem resultsDoNotDependOnHistory : Obligations.ResultsDoNotDependOnHistory := by
  intro i s w r hs hw
  cases ho : instrOut i with
  | none =>
    obtain ⟨c, rule, he, he', -⟩ := exec_read_with i s w r ho
    rw [he, he', State.readCycle_with c rule r hs hw]
  | some out =>
    obtain ⟨c, he, hc⟩ := exec_encode_bytes i s (obo := out.1) (n := out.2) ho
    obtain ⟨c', he', hc'⟩ := exec_encode_bytes i { s with status := w, res := r } (obo := out.1) (n := out.2) ho
    obtain rfl := hc.unique hc'
    exact he'.trans ((congrArg Host.Outcome.next (State.encodeCycle_with c _ _ _ r hs hw)).trans he.symm)

end Sys2Proof.Machine
end
